-- ==== Sys2Proof/Word.lean ====
section
/-! DEFINITION. The plain data words of HSC: bytes, the value port, bit sequences, byte buffers. -/

namespace Sys2Proof

/-- A byte, 0 to 255; bit 7 the most significant (00_scope.md R16, 20_memory.md R51). -/
abbrev Byte := BitVec 8

/-- The value port of `WRITEBITS`, `CNT_MAX = 16` bits wide (00_scope.md R13). -/
abbrev PortValue := BitVec 16

/-- A finite list of bits, the first one on the wire first (00_scope.md R17). -/
abbrev BitSeq := List Bool

/-- One of the four byte spaces `IN`, `WBUF`, `STREAM`, `OUT`: a finite list of bytes of any
length, indexed from 0 (00_scope.md R14, 20_memory.md R50). -/
abbrev Buffer := List Byte

end Sys2Proof
end

