-- ==== Sys2Proof/Machine/Bits.lean ====
section
/-! DEFINITION. Bit sequences, most significant bit first (00_scope.md R17; 20_memory.md R52, R53). -/

namespace Sys2Proof

/-- The low `n` bits of `v`, most significant first (00_scope.md R17). -/
def bitsMSB (v : Nat) : Nat → BitSeq
  | 0 => []
  | n + 1 => v.testBit n :: bitsMSB v n

/-- The natural whose binary digits, most significant first, are `bs` (00_scope.md R17). -/
def valMSB (bs : BitSeq) : Nat :=
  bs.foldl (fun v b => 2 * v + b.toNat) 0

/-- The bit sequence of a byte buffer (00_scope.md R17, 20_memory.md R52). -/
def bytesToBits (buf : Buffer) : BitSeq :=
  buf.flatMap fun b => bitsMSB b.toNat 8

/-- The inverse of `bytesToBits` on sequences whose length is a multiple of 8 (00_scope.md R17). Up to
seven bits left over at the end are no byte and give none. -/
def bitsToBytes : BitSeq → Buffer
  | a :: b :: c :: d :: e :: f :: g :: h :: rest =>
    BitVec.ofNat 8 (valMSB [a, b, c, d, e, f, g, h]) :: bitsToBytes rest
  | _ => []

/-- `bs` followed by the zero bits that make its length a multiple of 8 (00_scope.md R17). -/
def padTo8 (bs : BitSeq) : BitSeq :=
  bs ++ List.replicate ((8 - bs.length % 8) % 8) false

end Sys2Proof
end

