-- ==== Sys2Proof/Config.lean ====
section
/-! DEFINITION. What an implementation of HSC fixes (the spec's named parameters, at the spec's
defaults) and the one free value. -/

namespace Sys2Proof

/-- `W_MIN` (00_scope.md R11; 92_eei_decisions.md D4), the spec's default: log entry 7. -/
def Config.wMin : Nat := 4

/-- `W_MAX` (00_scope.md R11; 92_eei_decisions.md D4), the spec's default: log entry 7. -/
def Config.wMax : Nat := 15

/-- `CNT_MAX` (00_scope.md R13; 92_eei_decisions.md D5), the spec's default: log entry 7. -/
def Config.cntMax : Nat := 16

/-- The capacities in bytes of the four buffers; `none` is unbounded (00_scope.md R14). -/
structure Caps where
  /-- `IN_CAP` -/
  inCap : Option Nat := none
  /-- `WBUF_CAP` -/
  wbufCap : Option Nat := none
  /-- `STREAM_CAP` -/
  streamCap : Option Nat := none
  /-- `OUT_CAP` -/
  outCap : Option Nat := none
deriving DecidableEq, Repr

/-- The capacities of the machine: "The default of each is unbounded" (00_scope.md R14; log entry 8).
Every operation that grows a buffer is written over an arbitrary `Caps`; the machine takes this one. -/
def Config.caps : Caps := {}

/-- FREE VALUE (log entry 2). What `cap_hint` of a `DEC` holds after a `DEC.CONFIG` that failed: the
instance is then "as at power-on", where `cap_hint` is unspecified (10_state.md R38, R47;
93_implementation_defined.md U11). The arguments are the index of the decoder and the number of free
values it has drawn. Nothing constrains the result. -/
opaque Config.freeCapHint : Nat → Nat → Nat

end Sys2Proof
end

