-- ==== Sys2Proof/Syntax.lean ====
section
/-! DEFINITION. The instructions of HSC: the two tokens of the wire format, the thirteen host
operations and the reserved codes (00_scope.md R3; 30_encoding.md R86, R87), and the two kinds of
code word they are encoded in. -/

namespace Sys2Proof

/-- The three reserved operation codes (30_encoding.md R86). -/
inductive ReservedCode where
  /-- code 0x6 -/
  | op6
  /-- code 0x7 -/
  | op7
  /-- code 0xF -/
  | opF
deriving DecidableEq, Repr

/-- One constructor per mnemonic of spec/opcode_table.json. The 102 rows of `BACKREF` are one
constructor: the row is selected by the decoder's own `W`, `L`, which the token does not carry
(30_encoding.md R77, R87). The three `RESERVED` rows are one constructor over `ReservedCode`. -/
inductive Instr where
  /-- token `LITERAL` (30_encoding.md R71) -/
  | literal (byte : Byte)
  /-- token `BACKREF` with its stored fields, each one less than its meaning (30_encoding.md R72, R75) -/
  | backref (offM1 lenM1 : Nat)
  /-- `STATUS` (43_decoder.md R156) -/
  | status
  /-- `ENC.CONFIG(W', L')` (42_encoder.md R120) -/
  | encConfig (w l : Nat)
  /-- `COMPRESS(input)` (42_encoder.md R121) -/
  | compress (input : Buffer)
  /-- `DEC.CONFIG(W', L', hint)` (43_decoder.md R145) -/
  | decConfig (w l hint : Nat)
  /-- `PROCESS(chunk)` (43_decoder.md R146) -/
  | process (chunk : Buffer)
  /-- `GETOUTPUT` (43_decoder.md R155) -/
  | getOutput
  /-- `BW.RESET` (40_bit_writer.md R90) -/
  | bwReset
  /-- `WRITEBITS(value, count)` (40_bit_writer.md R91) -/
  | writeBits (value : PortValue) (count : Nat)
  /-- `WRITEBYTE(b)` (40_bit_writer.md R93) -/
  | writeByte (byte : Byte)
  /-- `FLUSH` (40_bit_writer.md R94) -/
  | flush
  /-- `BR.RESET` (41_bit_reader.md R105) -/
  | brReset
  /-- `FEED(chunk)` (41_bit_reader.md R106) -/
  | feed (chunk : Buffer)
  /-- `READBITS(count)` (41_bit_reader.md R107) -/
  | readBits (count : Nat)
  /-- a reserved operation code (30_encoding.md R86, 60_exceptions.md R179) -/
  | reserved (code : ReservedCode)
deriving DecidableEq, Repr

/-- The operand ports of a host operation, one for each operand of the table of 30_encoding.md R86. An
operation reads its own and ignores the others. The spec encodes no operand in bits. -/
structure Ports where
  /-- `W'` of a `CONFIG` -/
  w : Nat := 0
  /-- `L'` of a `CONFIG` -/
  l : Nat := 0
  /-- `hint` of a `DEC.CONFIG` -/
  hint : Nat := 0
  /-- `input` of `COMPRESS`, `chunk` of `PROCESS` and of `FEED` -/
  bytes : Buffer := []
  /-- `value` of `WRITEBITS` -/
  value : PortValue := 0
  /-- `count` of `WRITEBITS` and of `READBITS` -/
  count : Nat := 0
  /-- `b` of `WRITEBYTE` -/
  byte : Byte := 0
deriving DecidableEq, Repr

/-- A host operation as the host presents it: the 4-bit operation code and the operand ports
(30_encoding.md R86). -/
structure HostWord where
  op : BitVec 4
  ports : Ports := {}
deriving DecidableEq, Repr

/-- The code an instruction is encoded in: bits of the wire format, or a host word. -/
inductive Code where
  | token (bits : BitSeq)
  | host (word : HostWord)
deriving DecidableEq, Repr

end Sys2Proof
end

