-- ==== Sys2Proof/WellFormed.lean ====
section
/-! DEFINITION. Which parameter pairs are legal and which instructions are well-formed: whose operands
fit the fields and ports that carry them. -/

namespace Sys2Proof

/-- The legal parameter pairs: `W_MIN <= W <= W_MAX`, `1 <= L`, `L < W` (00_scope.md R10, R11). -/
def legalParams (w l : Nat) : Bool :=
  decide (Config.wMin ≤ w) && decide (w ≤ Config.wMax) && decide (1 ≤ l) && decide (l < w)

/-- Well-formed at the parameters `(w, l)`: a back-reference's stored fields fit their `w` and `l` bits
at a legal pair (30_encoding.md R72, R75), and a bit count is one the port expresses, 0 to `CNT_MAX`
(40_bit_writer.md R91, 41_bit_reader.md R107). Every other operand is legal at every value: any byte,
any byte sequence, any `CONFIG` operand (42_encoder.md R120, 30_encoding.md R81). -/
def Instr.wellFormed (w l : Nat) : Instr → Bool
  | .literal _ => true
  | .backref o n => legalParams w l && decide (o < 2 ^ w) && decide (n < 2 ^ l)
  | .status => true
  | .encConfig _ _ => true
  | .compress _ => true
  | .decConfig _ _ _ => true
  | .process _ => true
  | .getOutput => true
  | .bwReset => true
  | .writeBits _ c => decide (c ≤ Config.cntMax)
  | .writeByte _ => true
  | .flush => true
  | .brReset => true
  | .feed _ => true
  | .readBits c => decide (c ≤ Config.cntMax)
  | .reserved _ => true

end Sys2Proof
end

