-- ==== Sys2Proof/Decode.lean ====
section
/-! DEFINITION. Decoding: tokens from bits of the wire format, host operations from their code and
ports; then the encoder, written from the same tables (30_encoding.md R70 to R72, R86). -/

namespace Sys2Proof

/-- Why a code decodes to no instruction. No bit pattern is illegal (30_encoding.md R81): a code fails
only by its length. -/
inductive DecodeError where
  /-- fewer bits than the token has -/
  | exhausted
  /-- more bits than the token has, where exactly one token was to be read -/
  | trailingBits
deriving DecidableEq, Repr

/-- The value of the first `n` bits, and the bits after them; `none` when there are fewer. -/
def takeField (n : Nat) (bs : BitSeq) : Option (Nat × BitSeq) :=
  if n ≤ bs.length then some (valMSB (bs.take n), bs.drop n) else none

/-- Read one token at parameters `(w, l)` from the front of a bit sequence, and the bits after it. The
tag bit alone decides the format (30_encoding.md R70 to R72, R77). -/
def decodeToken (w l : Nat) : BitSeq → Except DecodeError (Instr × BitSeq)
  | [] => .error .exhausted
  | true :: bs =>
    match takeField 8 bs with
    | some (b, rest) => .ok (.literal (BitVec.ofNat 8 b), rest)
    | none => .error .exhausted
  | false :: bs =>
    match takeField w bs with
    | some (o, bs') =>
      match takeField l bs' with
      | some (n, rest) => .ok (.backref o n, rest)
      | none => .error .exhausted
    | none => .error .exhausted

/-- The host operation a code and its ports stand for: the table of 30_encoding.md R86, all sixteen
codes. -/
def decodeHost (h : HostWord) : Instr :=
  match h.op.toNat with
  | 0x0 => .status
  | 0x1 => .encConfig h.ports.w h.ports.l
  | 0x2 => .compress h.ports.bytes
  | 0x3 => .decConfig h.ports.w h.ports.l h.ports.hint
  | 0x4 => .process h.ports.bytes
  | 0x5 => .getOutput
  | 0x6 => .reserved .op6
  | 0x7 => .reserved .op7
  | 0x8 => .bwReset
  | 0x9 => .writeBits h.ports.value h.ports.count
  | 0xA => .writeByte h.ports.byte
  | 0xB => .flush
  | 0xC => .brReset
  | 0xD => .feed h.ports.bytes
  | 0xE => .readBits h.ports.count
  | _ => .reserved .opF

/-- The instruction a code stands for at parameters `(w, l)`; a token code must hold exactly one token. -/
def decode (w l : Nat) : Code → Except DecodeError Instr
  | .host h => .ok (decodeHost h)
  | .token bs =>
    match decodeToken w l bs with
    | .ok (i, []) => .ok i
    | .ok (_, _ :: _) => .error .trailingBits
    | .error e => .error e

/-- The bits of a `LITERAL` token (30_encoding.md R71). -/
def literalBits (b : Byte) : BitSeq := true :: bitsMSB b.toNat 8

/-- The bits of a `BACKREF` token at parameters `(w, l)` (30_encoding.md R72). -/
def backrefBits (w l offM1 lenM1 : Nat) : BitSeq := false :: (bitsMSB offM1 w ++ bitsMSB lenM1 l)

/-- The code of an instruction at parameters `(w, l)` (30_encoding.md R71, R72, R86). Ports that an
operation does not read are at zero. -/
def encode (w l : Nat) : Instr → Code
  | .literal b => .token (literalBits b)
  | .backref o n => .token (backrefBits w l o n)
  | .status => .host { op := 0x0 }
  | .encConfig w' l' => .host { op := 0x1, ports := { w := w', l := l' } }
  | .compress input => .host { op := 0x2, ports := { bytes := input } }
  | .decConfig w' l' hint => .host { op := 0x3, ports := { w := w', l := l', hint := hint } }
  | .process chunk => .host { op := 0x4, ports := { bytes := chunk } }
  | .getOutput => .host { op := 0x5 }
  | .reserved .op6 => .host { op := 0x6 }
  | .reserved .op7 => .host { op := 0x7 }
  | .bwReset => .host { op := 0x8 }
  | .writeBits v c => .host { op := 0x9, ports := { value := v, count := c } }
  | .writeByte b => .host { op := 0xA, ports := { byte := b } }
  | .flush => .host { op := 0xB }
  | .brReset => .host { op := 0xC }
  | .feed chunk => .host { op := 0xD, ports := { bytes := chunk } }
  | .readBits c => .host { op := 0xE, ports := { count := c } }
  | .reserved .opF => .host { op := 0xF }

/-- The bits of a token at parameters `(w, l)`; a host operation has none on the wire. -/
def tokenBits (w l : Nat) (i : Instr) : BitSeq :=
  match encode w l i with
  | .token bs => bs
  | .host _ => []

/-- Whether a word of the opcode table is a host operation's: the operation code is 4 bits, and a token
has at least 6 (30_encoding.md R72, R86). A word below 16 in one byte is taken as an operation code; the
three 8-bit `BACKREF` rows share those words (log entry 9). -/
def isHostTableWord (nbits w : Nat) : Bool := decide (nbits ≤ 8) && decide (w < 16)

/-- A legal pair at which a `BACKREF` of the opcode table has `nbits` bits: `1 + W + L = nbits`
(30_encoding.md R72), the one with the smallest window (log entry 9). -/
def tableParams (nbits : Nat) : Nat × Nat :=
  if nbits < 6 || 30 < nbits then (15, 14)
  else
    let w := max 4 ((nbits + 1) / 2)
    (w, nbits - 1 - w)

/-- The wire bits of a token word of the opcode table: its most significant bit is the first on the
wire, and zeros follow it up to the longest token, 30 bits, and to a whole byte (30_encoding.md R72, R87). -/
def tableBits (nbits w : Nat) : BitSeq :=
  let bs := bitsMSB w nbits
  padTo8 (bs ++ List.replicate (32 - bs.length) false)

/-- The instruction this decoder reads from a word of the opcode table. -/
def decodeTableWord (nbits w : Nat) : Option Instr :=
  if isHostTableWord nbits w then some (decodeHost { op := BitVec.ofNat 4 w })
  else
    let p := tableParams nbits
    match decodeToken p.1 p.2 (tableBits nbits w) with
    | .ok (i, _) => some i
    | .error _ => none

end Sys2Proof
end

