-- ==== Sys2Proof/Machine/State.lean ====
section
/-! DEFINITION. The state of HSC as plain data (10_state.md), why a step can stop, and the state right
after reset. -/

namespace Sys2Proof.Machine

/-- The decoder's FSM register; code 3 is never held, so the type has three values (10_state.md R33;
93_implementation_defined.md U19). -/
inductive DState where
  | awaitTag
  | literal
  | backRef
deriving DecidableEq, Repr

/-- `CAUSE`: code 3 is never held (10_state.md R40; 93_implementation_defined.md U20). -/
inductive Cause where
  | none
  | configError
  | corrupt
deriving DecidableEq, Repr

/-- `INFO`: 0, the violation mask of a `ConfigError`, or the pair `(tok_off, len(OUT))` of a `Corrupt`
(10_state.md R40; 60_exceptions.md R176, R177). -/
inductive Info where
  | zero
  | mask (m : BitVec 3)
  | corrupt (off outLen : Nat)
deriving DecidableEq, Repr

/-- The control and status registers that `ENC` and `DEC` instances both have (10_state.md R36, R37,
R39, R40). -/
structure Control where
  /-- `W`, 4 bits -/
  w : BitVec 4
  /-- `L`, 4 bits -/
  l : BitVec 4
  /-- `STATUS.configured` -/
  configured : Bool
  /-- `STATUS.fault` -/
  fault : Bool
  /-- `CAUSE` -/
  cause : Cause
  /-- `INFO` -/
  info : Info
deriving DecidableEq, Repr

/-- The bit writer `BW` (10_state.md R21 to R23). -/
structure Writer where
  /-- `WBUF`: the completed bytes -/
  wbuf : Buffer
  /-- `acc`: the partial byte, its valid bits at the top -/
  acc : BitVec 8
  /-- `nacc`: the number of valid bits in `acc`, 0 to 7 -/
  nacc : Fin 8
deriving DecidableEq, Repr

/-- The bit reader `BR` (10_state.md R25, R26). -/
structure Reader where
  /-- `STREAM`: every byte fed so far -/
  stream : Buffer
  /-- `rpos`: the bit cursor -/
  rpos : Nat
deriving DecidableEq, Repr

/-- An `ENC` instance (10_state.md R20, R28 to R31). -/
structure Encoder where
  ctl : Control
  bw : Writer
  /-- `IN` -/
  input : Buffer
  pos : Nat
  /-- `max_match`; between passes it keeps the last `SEARCH`'s value, as the two below do: DESIGN CHOICE (log entry 20) -/
  maxMatch : Nat
  /-- `best_len` -/
  bestLen : Nat
  /-- `best_off` -/
  bestOff : Nat
deriving DecidableEq, Repr

/-- A `DEC` instance (10_state.md R20, R32 to R35, R38, R39). -/
structure Decoder where
  ctl : Control
  /-- `cap_hint`: stored, read by no rule -/
  capHint : Nat
  /-- `STATUS.starved` -/
  starved : Bool
  br : Reader
  /-- `OUT` -/
  out : Buffer
  dstate : DState
  /-- `tok_off`; between steps it keeps the last token's value, as `tok_len` does: DESIGN CHOICE (log entry 20) -/
  tokOff : Nat
  /-- `tok_len` -/
  tokLen : Nat
  /-- The MODEL's own: how many free values this instance has drawn (log entry 2). -/
  freeDraws : Nat
deriving DecidableEq, Repr

/-- An instance of one of the four kinds (00_scope.md R6). -/
inductive Inst where
  | enc (e : Encoder)
  | dec (d : Decoder)
  | bw (w : Writer)
  | br (r : Reader)
deriving DecidableEq, Repr

/-- An operation the host has issued: the instance it is addressed to and the host word. -/
structure Request where
  target : Nat
  word : HostWord
deriving DecidableEq, Repr

/-- Why the machine stops with a fault. The spec's own faults (`ConfigError`, `Corrupt`) are recorded in
the state and do not stop the machine (60_exceptions.md R182); these two are the model's, for what no
rule describes. -/
inductive Fault where
  /-- Raised by every meaning but that of a reserved code when the instance it is addressed to does not
  exist. Safe: an operation is a transition of an instance (00_scope.md R7), so no rule describes this
  (log entry 10). -/
  | noInstance
  /-- Raised by the two token meanings when the decoder stands in the middle of the other kind of token.
  Safe: 43_decoder.md R147 has no such transition, and no step fetches such a token (log entry 11). -/
  | tokenOutOfPlace
deriving DecidableEq, Repr

/-- Why an operation is refused: it does not happen (60_exceptions.md R179). All but the first are the
spec's own refusals. Safe: a refused operation changes nothing. -/
inductive Refusal where
  /-- Raised by an arm of `exec` whose instruction has no meaning yet; none today. Safe. -/
  | notModelled (mnemonic : String)
  /-- Raised by a reserved code, and by every operation sent to an instance of another kind
  (60_exceptions.md R179). Safe: the spec maps it to a refusal. -/
  | badOp
  /-- Raised by `COMPRESS`, `PROCESS` and the tokens on an instance with neither `configured` nor
  `fault` (60_exceptions.md R179). Safe: the spec maps it to a refusal. -/
  | notConfigured
  /-- Raised by `COMPRESS`, `PROCESS` and the tokens on an instance with `fault`; it carries `CAUSE` and
  `INFO` (60_exceptions.md R179, R182). Safe: the spec maps it to a refusal. -/
  | faulted (cause : Cause) (info : Info)
  /-- Raised by `WRITEBITS` and `READBITS` when `count > CNT_MAX` (60_exceptions.md R179). Safe: the spec
  maps it to a refusal. -/
  | badCount
  /-- Raised by an operation that would make a buffer longer than its capacity, where a capacity is
  finite (60_exceptions.md R179, 00_scope.md R14). Safe: the spec maps it to a refusal. -/
  | capacityExceeded
deriving DecidableEq, Repr

/-- The response an operation ends in (00_scope.md R7; the table of 30_encoding.md R86). -/
inductive Response where
  /-- no response: `BW.RESET`, `WRITEBITS`, `WRITEBYTE`, `BR.RESET`, `FEED` -/
  | none
  /-- ok: `ENC.CONFIG`, `DEC.CONFIG`, `PROCESS` -/
  | ok
  /-- bytes: `COMPRESS`, `GETOUTPUT`, `FLUSH` -/
  | bytes (bs : Buffer)
  /-- the value of a `READBITS` -/
  | value (v : Nat)
  /-- `Exhausted`, of a `READBITS` (60_exceptions.md R178) -/
  | exhausted
  /-- the registers `STATUS`, `CAUSE`, `INFO` -/
  | status (word : BitVec 8) (cause : Cause) (info : Info)
  /-- the fault `ConfigError(m)` (60_exceptions.md R176) -/
  | configError (m : BitVec 3)
  /-- the fault `Corrupt(off, outlen)` (60_exceptions.md R177) -/
  | corrupt (off outLen : Nat)
  /-- the name of a refusal (60_exceptions.md R179) -/
  | refused (r : Refusal)
deriving DecidableEq, Repr

/-- The state of the block: the disjoint union of the states of its instances (10_state.md R20), and the
model's own fields at its border with the host. -/
structure State where
  /-- The instances; any number of any kind. -/
  insts : List Inst
  /-- The MODEL's own: the index of the instance the operation under way is addressed to. -/
  cur : Nat
  /-- The MODEL's own: the operations the host has issued and the block has not served, oldest first. -/
  port : List Request
  /-- The MODEL's own: the response of the last operation. -/
  response : Response
deriving DecidableEq, Repr

/-- Power-on values of the control and status registers (10_state.md R47). `W` and `L` are unspecified
there; 0 is DESIGN CHOICE, unsafe (log entry 1). -/
def Control.powerOn : Control :=
  { w := 0, l := 0, configured := false, fault := false, cause := .none, info := .zero }

/-- The writer at power-on and after `BW.RESET` (10_state.md R47, 40_bit_writer.md R90). -/
def Writer.fresh : Writer := { wbuf := [], acc := 0, nacc := 0 }

/-- The reader at power-on and after `BR.RESET` (10_state.md R47, 41_bit_reader.md R105). -/
def Reader.fresh : Reader := { stream := [], rpos := 0 }

/-- An `ENC` at power-on (10_state.md R47). -/
def Encoder.powerOn : Encoder :=
  { ctl := .powerOn, bw := .fresh, input := [], pos := 0, maxMatch := 0, bestLen := 0, bestOff := 0 }

/-- A `DEC` at power-on (10_state.md R47). `cap_hint` is unspecified there; 0 is DESIGN CHOICE, unsafe
(log entry 1). -/
def Decoder.powerOn : Decoder :=
  { ctl := .powerOn, capHint := 0, starved := false, br := .fresh, out := [], dstate := .awaitTag,
    tokOff := 0, tokLen := 0, freeDraws := 0 }

/-- The machine right after reset: one instance of each kind at power-on (10_state.md R47; the number of
instances is DESIGN CHOICE, log entry 3), no operation issued, no response yet. -/
def State.reset : State :=
  { insts := [.enc .powerOn, .dec .powerOn, .bw .fresh, .br .fresh]
    cur := 0
    port := []
    response := .none }

end Sys2Proof.Machine
end

