-- ==== Sys2Proof/Machine/Ops.lean ====
section
/-! DEFINITION. Named operations over buffers, registers and instances; taking a fault; the tests that
come before an operation; how an operation ends. -/

namespace Sys2Proof.Machine

/-! ### Buffers -/

/-- `MemRead(S, a)`: the byte at index `a`; nothing is stored at or past the end (00_scope.md R18,
20_memory.md R50, R60). -/
def memRead (buf : Buffer) (a : Nat) : Option Byte := buf[a]?

/-- `MemAppend(S, b)`, the only write any buffer takes (00_scope.md R18). -/
def memAppend (buf : Buffer) (b : Byte) : Buffer := buf ++ [b]

/-- A byte list as cells from address `a` on. -/
def cellsFrom : Nat → Buffer → List Host.Cell
  | _, [] => []
  | a, b :: bs => (a, b) :: cellsFrom (a + 1) bs

/-- A buffer as (address, byte) pairs: its canonical form as a memory (20_memory.md R50; log entry 12). -/
def bufferCells (buf : Buffer) : List Host.Cell := cellsFrom 0 buf

/-- The canonical form of a buffer's cells: the addresses are 0, 1, 2, … in order, so they rise strictly
and a missing address is one past the end, which reads as nothing (20_memory.md R50). -/
def Memory.wf (cells : List Host.Cell) : Bool :=
  decide (cells.map Prod.fst = List.range cells.length)

/-! ### Instances -/

/-- The instance the operation under way is addressed to. -/
def State.inst? (s : State) : Option Inst := s.insts[s.cur]?

/-- The state with that instance replaced. -/
def State.put (s : State) (x : Inst) : State := { s with insts := s.insts.set s.cur x }

/-- The state with that instance replaced and a response given: how an operation ends (00_scope.md R7). -/
def State.answer (s : State) (x : Inst) (r : Response) : State :=
  { s with insts := s.insts.set s.cur x, response := r }

/-- What an operation's meaning answers. -/
abbrev Result := Host.Outcome State Fault Refusal

/-- An operation of `ENC` instances; refused as `BadOp` by the other kinds (60_exceptions.md R179). -/
def State.onEnc (s : State) (f : Encoder → Result) : Result :=
  match s.inst? with
  | some (.enc e) => f e
  | some (.dec _) => .refused .badOp
  | some (.bw _) => .refused .badOp
  | some (.br _) => .refused .badOp
  | none => .fault .noInstance

/-- An operation of `DEC` instances; refused as `BadOp` by the other kinds (60_exceptions.md R179). -/
def State.onDec (s : State) (f : Decoder → Result) : Result :=
  match s.inst? with
  | some (.enc _) => .refused .badOp
  | some (.dec d) => f d
  | some (.bw _) => .refused .badOp
  | some (.br _) => .refused .badOp
  | none => .fault .noInstance

/-- An operation of standalone `BW` instances; refused as `BadOp` by the other kinds (60_exceptions.md R179). -/
def State.onBw (s : State) (f : Writer → Result) : Result :=
  match s.inst? with
  | some (.enc _) => .refused .badOp
  | some (.dec _) => .refused .badOp
  | some (.bw w) => f w
  | some (.br _) => .refused .badOp
  | none => .fault .noInstance

/-- An operation of standalone `BR` instances; refused as `BadOp` by the other kinds (60_exceptions.md R179). -/
def State.onBr (s : State) (f : Reader → Result) : Result :=
  match s.inst? with
  | some (.enc _) => .refused .badOp
  | some (.dec _) => .refused .badOp
  | some (.bw _) => .refused .badOp
  | some (.br r) => f r
  | none => .fault .noInstance

/-! ### Faults (the exceptions of this hardware) -/

/-- Taking a fault, the one shared operation: record it and stop; there is no vector, no saved program
counter and no mode change (60_exceptions.md R182). -/
def Control.raise (c : Control) (cause : Cause) (info : Info) : Control :=
  { c with fault := true, cause := cause, info := info }

/-- The way back from a fault, and there is no other: a construction that passes validation clears the
record (60_exceptions.md R184; the last branch of 42_encoder.md R120 and 43_decoder.md R145). -/
def Control.construct (w l : Nat) : Control :=
  { w := BitVec.ofNat 4 w, l := BitVec.ofNat 4 l, configured := true, fault := false, cause := .none,
    info := .zero }

/-- The control registers after a construction that failed: power-on values, the fault taken, and `W`, `L`
not written, since they are "written only ... when the validation ... passes" (10_state.md R36, R37, R47;
92_eei_decisions.md D12; log entry 6). -/
def Control.constructFailed (c : Control) (m : BitVec 3) : Control :=
  Control.raise { Control.powerOn with w := c.w, l := c.l } .configError (.mask m)

/-! ### Tests before an operation -/

/-- The refusal of an operation that needs a configured, unfaulted instance, if there is one
(60_exceptions.md R179, R181). -/
def Control.refusal? (c : Control) : Option Refusal :=
  if c.fault then some (.faulted c.cause c.info)
  else if c.configured then none
  else some .notConfigured

/-- Whether a buffer of `n` bytes is within a capacity (00_scope.md R14). -/
def fits (cap : Option Nat) (n : Nat) : Bool :=
  match cap with
  | none => true
  | some c => decide (n ≤ c)

/-- End in `r`, or be refused whole as `CapacityExceeded` when a buffer would not fit (60_exceptions.md R179). -/
def within (ok : Bool) (r : Result) : Result :=
  if ok then r else .refused .capacityExceeded

/-! ### Serving the host -/

/-- Whether a refusal is one of the spec's own, which returns its name to the host (60_exceptions.md R179). -/
def Refusal.isReturned : Refusal → Bool
  | .badOp => true
  | .notConfigured => true
  | .faulted _ _ => true
  | .badCount => true
  | .capacityExceeded => true
  | _ => false

/-- How the machine goes on after an operation taken from the port in state `s`: a refused one "changes no
state, sets no flag, and returns the name of the refusal" (60_exceptions.md R179; log entry 13). -/
def State.returnRefusal (s : State) : Result → Result
  | .refused r => if r.isReturned then .next { s with response := .refused r } else .refused r
  | .next t => .next t
  | .fault f => .fault f

/-- The state in which the oldest request of the port is served: it is taken off, and its target is the
instance addressed. -/
def State.accept (s : State) (r : Request) (rest : List Request) : State :=
  { s with cur := r.target, port := rest }

end Sys2Proof.Machine
end

