-- ==== Sys2Proof/Machine/Flags.lean ====
section
/-! DEFINITION. The flags and codes of `STATUS` and `CAUSE`, the violation mask of a construction, and
`starved` (10_state.md R39 to R41). -/

namespace Sys2Proof.Machine

/-- The 2-bit code of the FSM register (10_state.md R33). -/
def DState.code : DState → BitVec 2
  | .awaitTag => 0
  | .literal => 1
  | .backRef => 2

/-- The 2-bit code of `CAUSE` (10_state.md R40). -/
def Cause.code : Cause → BitVec 2
  | .none => 0
  | .configError => 1
  | .corrupt => 2

/-- The `STATUS` word: `configured` bit 0, `fault` bit 1, `dstate` bits 3:2, `starved` bit 4, bits 7:5
zero (10_state.md R39). -/
def statusWord (configured fault : Bool) (dstate : BitVec 2) (starved : Bool) : BitVec 8 :=
  0#3 ++ BitVec.ofBool starved ++ dstate ++ BitVec.ofBool fault ++ BitVec.ofBool configured

/-- `STATUS` of an `ENC`: `dstate` and `starved` read 0 (10_state.md R39). -/
def Encoder.statusReg (e : Encoder) : BitVec 8 :=
  statusWord e.ctl.configured e.ctl.fault 0 false

/-- `STATUS` of a `DEC`: its `dstate` field is the FSM register (10_state.md R39; log entry 14). -/
def Decoder.statusReg (d : Decoder) : BitVec 8 :=
  statusWord d.ctl.configured d.ctl.fault d.dstate.code d.starved

/-- The violation mask of a construction with operands `w`, `l`; all three checks are made
(42_encoder.md R120, 60_exceptions.md R176). -/
def configMask (w l : Nat) : BitVec 3 :=
  (if w < Config.wMin ∨ Config.wMax < w then 1#3 else 0#3) |||
  (if l = 0 then 2#3 else 0#3) |||
  (if w ≤ l then 4#3 else 0#3)

/-- `starved` at the end of a `PROCESS`: no fault was raised and a token has begun (43_decoder.md R146). -/
def Decoder.starvedNow (d : Decoder) : Bool :=
  !d.ctl.fault && decide (d.dstate ≠ .awaitTag)

end Sys2Proof.Machine
end

