-- ==== Sys2Proof/Machine/Operands.lean ====
section
/-! DEFINITION. Bit-granular operand access: writing and reading bits at a cursor, the field split, and the
token that stands at a decoder's program counter. -/

namespace Sys2Proof.Machine

/-! ### Writing bits (40_bit_writer.md) -/

/-- One pass of the reference loop of `WRITEBITS` (40_bit_writer.md R91). -/
def Writer.writeBit (w : Writer) (bit : Bool) : Writer :=
  let acc := w.acc ||| ((BitVec.ofBool bit).zeroExtend 8 <<< (7 - w.nacc.val))
  if w.nacc.val + 1 = 8 then { wbuf := memAppend w.wbuf acc, acc := 0, nacc := 0 }
  else { w with acc := acc, nacc := Fin.ofNat 8 (w.nacc.val + 1) }

/-- `WRITEBITS(value, count)`, the reference loop: bits `count - 1` down to 0 of `value` (40_bit_writer.md R91). -/
def Writer.writeBits (w : Writer) (value : Nat) : Nat → Writer
  | 0 => w
  | n + 1 => (w.writeBit (value.testBit n)).writeBits value n

/-- `WRITEFIELD(v, n)`: a field wider than 8 bits is written as two parts, high part first
(42_encoder.md R130, 30_encoding.md R73). -/
def Writer.writeField (w : Writer) (v n : Nat) : Writer :=
  if 8 < n then (w.writeBits (v >>> 8) (n - 8)).writeBits (v &&& 0xFF) 8
  else w.writeBits v n

/-- The padding step of `FLUSH` (40_bit_writer.md R94). -/
def Writer.flushed (w : Writer) : Writer :=
  if 0 < w.nacc.val then { wbuf := memAppend w.wbuf w.acc, acc := 0, nacc := 0 } else w

/-- The abstract content of a writer, one bit sequence (10_state.md R24). -/
def Writer.wbits (w : Writer) : BitSeq :=
  bytesToBits w.wbuf ++ bitsMSB (w.acc.toNat >>> (8 - w.nacc.val)) w.nacc.val

/-- The bytes the byte slicer of the barrel form takes from a number of `t` bits: the top `k` of them
(40_bit_writer.md R92). -/
def slicedBytes (comb t k : Nat) : Buffer :=
  (List.range k).map fun j => BitVec.ofNat 8 ((comb >>> (t - 8 * (j + 1))) &&& 0xFF)

/-- The barrel-shifter form of `WRITEBITS`: one shift, one merge, a byte slicer (40_bit_writer.md R92). -/
def Writer.writeBitsBarrel (w : Writer) (value count : Nat) : Writer :=
  let t := w.nacc.val + count
  let comb := ((w.acc.toNat >>> (8 - w.nacc.val)) <<< count) ||| (value &&& (2 ^ count - 1))
  let k := t / 8
  let r := t % 8
  { wbuf := w.wbuf ++ slicedBytes comb t k
    acc := BitVec.ofNat 8 ((comb &&& (2 ^ r - 1)) <<< (8 - r))
    nacc := Fin.ofNat 8 r }

/-! ### Reading bits (41_bit_reader.md) -/

/-- `avail`, the number of unread bits (10_state.md R27). -/
def Reader.avail (r : Reader) : Nat := 8 * r.stream.length - r.rpos

/-- `FEED(chunk)`: bytes at the end of the stream, the cursor does not move (41_bit_reader.md R106). -/
def Reader.feed (r : Reader) (chunk : Buffer) : Reader := { r with stream := r.stream ++ chunk }

/-- The reader with its cursor moved on. -/
def Reader.advance (r : Reader) (n : Nat) : Reader := { r with rpos := r.rpos + n }

/-- Bit `k` of a stream: bit `7 - (k mod 8)` of byte `k div 8` (10_state.md R26, 20_memory.md R52). Every
rule reads bits below the end of the stream only (20_memory.md R60). -/
def streamBit (buf : Buffer) (k : Nat) : Bool :=
  match memRead buf (k / 8) with
  | some b => b.getLsbD (7 - k % 8)
  | none => false

/-- The value of `count` bits of a stream from bit `at` on, the loop of `READBITS` (41_bit_reader.md R107). -/
def streamValue (buf : Buffer) (start : Nat) : Nat → Nat
  | 0 => 0
  | n + 1 => (streamValue buf start n) <<< 1 ||| (streamBit buf (start + n)).toNat

/-- `READBITS(count)`: the next `count` bits and the reader after them, or nothing (`Exhausted`) when
fewer are unread (41_bit_reader.md R107, R108). -/
def Reader.readBits (r : Reader) (count : Nat) : Option (Nat × Reader) :=
  if r.avail < count then none
  else some (streamValue r.stream r.rpos count, r.advance count)

/-- `READFIELD(n)`: a field wider than 8 bits is read as two parts, high part first (41_bit_reader.md R110). -/
def Reader.readField (r : Reader) (n : Nat) : Option (Nat × Reader) :=
  if 8 < n then
    match r.readBits (n - 8) with
    | some (hi, r') =>
      match r'.readBits 8 with
      | some (lo, r'') => some ((hi <<< 8) ||| lo, r'')
      | none => none
    | none => none
  else r.readBits n

/-- The number that the bytes of a window form, first byte most significant (41_bit_reader.md R109). -/
def windowNumber (bytes : Buffer) : Nat := bytes.foldl (fun v b => v * 256 + b.toNat) 0

/-- The value of the barrel-shifter form of a `READBITS` that succeeds (41_bit_reader.md R109). -/
def Reader.barrelValue (r : Reader) (count : Nat) : Nat :=
  let q := r.rpos / 8
  let s := r.rpos % 8
  let m := (s + count + 7) / 8
  let win := windowNumber ((r.stream.drop q).take m)
  (win >>> (8 * m - s - count)) &&& (2 ^ count - 1)

/-! ### The program counter of a decoder -/

/-- The unread bits of a reader (10_state.md R26, R27). -/
def Reader.unread (r : Reader) : BitSeq := (bytesToBits r.stream).drop r.rpos

/-- The bits of the token that stands at a decoder's place `(dstate, rpos)` (10_state.md R42): in
`AwaitTag` its tag is the next unread bit, in the other two states the tag has been read. -/
def Decoder.tokenBitsAt (d : Decoder) : BitSeq :=
  match d.dstate with
  | .awaitTag => d.br.unread
  | .literal => true :: d.br.unread
  | .backRef => false :: d.br.unread

/-- The next token of the decoder addressed, if all of it has arrived and the decoder may run
(30_encoding.md R77: `W` and `L` come from the decoder's control registers). -/
def State.fetchToken (s : State) : Option Instr :=
  match s.inst? with
  | some (.dec d) =>
    match d.ctl.refusal? with
    | some _ => none
    | none =>
      match decodeToken d.ctl.w.toNat d.ctl.l.toNat d.tokenBitsAt with
      | .ok (i, _) => some i
      | .error _ => none
  | _ => none

end Sys2Proof.Machine
end

