-- ==== Sys2Proof/Machine/BitReader.lean ====
section
/-! DEFINITION. The operations of a standalone bit reader `BR` (41_bit_reader.md). They raise no fault and
write no flag. -/

namespace Sys2Proof.Machine

/-- `BR.RESET` (41_bit_reader.md R105). -/
def execBrReset (s : State) : Result :=
  s.onBr fun _ => .next (s.answer (.br .fresh) .none)

/-- `FEED` at capacities `c`; a chunk that does not fit is refused whole (41_bit_reader.md R106). -/
def feedWithin (c : Caps) (chunk : Buffer) (s : State) : Result :=
  s.onBr fun r =>
    within (fits c.streamCap (r.feed chunk).stream.length) (.next (s.answer (.br (r.feed chunk)) .none))

/-- `FEED` (41_bit_reader.md R106). -/
def execFeed (chunk : Buffer) (s : State) : Result := feedWithin Config.caps chunk s

/-- `READBITS` (41_bit_reader.md R107, R108): the value, or `Exhausted` with nothing consumed. -/
def execReadBits (count : Nat) (s : State) : Result :=
  s.onBr fun r =>
    if Config.cntMax < count then .refused .badCount
    else
      match r.readBits count with
      | some (v, r') => .next (s.answer (.br r') (.value v))
      | none => .next (s.answer (.br r) .exhausted)

end Sys2Proof.Machine
end

