-- ==== Sys2Proof/Machine/BitWriter.lean ====
section
/-! DEFINITION. The operations of a standalone bit writer `BW` (40_bit_writer.md). They raise no fault and
write no flag (R98). Each is written over arbitrary capacities; the meaning is the one at `Config.caps`. -/

namespace Sys2Proof.Machine

/-- End a writer operation in writer `w'` and response `r`, or be refused whole when `WBUF` would exceed
its capacity (40_bit_writer.md R97). -/
def State.endWrite (c : Caps) (s : State) (w' : Writer) (r : Response) : Result :=
  within (fits c.wbufCap w'.wbuf.length) (.next (s.answer (.bw w') r))

/-- `BW.RESET` (40_bit_writer.md R90). -/
def execBwReset (s : State) : Result :=
  s.onBw fun _ => .next (s.answer (.bw .fresh) .none)

/-- `WRITEBITS` at capacities `c` (40_bit_writer.md R91, 60_exceptions.md R179, R181). -/
def writeBitsWithin (c : Caps) (value : PortValue) (count : Nat) (s : State) : Result :=
  s.onBw fun w =>
    if Config.cntMax < count then .refused .badCount
    else s.endWrite c (w.writeBits value.toNat count) .none

/-- `WRITEBITS` (40_bit_writer.md R91). -/
def execWriteBits (value : PortValue) (count : Nat) (s : State) : Result :=
  writeBitsWithin Config.caps value count s

/-- `WRITEBYTE` at capacities `c`: `WRITEBITS(b, 8)` (40_bit_writer.md R93). -/
def writeByteWithin (c : Caps) (b : Byte) (s : State) : Result :=
  writeBitsWithin c (b.zeroExtend 16) 8 s

/-- `WRITEBYTE` (40_bit_writer.md R93). -/
def execWriteByte (b : Byte) (s : State) : Result :=
  writeByteWithin Config.caps b s

/-- `FLUSH` at capacities `c` (40_bit_writer.md R94, R95). -/
def flushWithin (c : Caps) (s : State) : Result :=
  s.onBw fun w => s.endWrite c w.flushed (.bytes w.flushed.wbuf)

/-- `FLUSH` (40_bit_writer.md R94). -/
def execFlush (s : State) : Result := flushWithin Config.caps s

end Sys2Proof.Machine
end

