-- ==== Sys2Proof/Machine/GreedyEncoder.lean ====
section
/-! DEFINITION. The greedy-match encoder `ENC` (42_encoder.md): construction, the match search, token
emission, `COMPRESS`. -/

namespace Sys2Proof.Machine

/-! ### Construction -/

/-- The encoder after `ENC.CONFIG(w, l)`, and the response (42_encoder.md R120). -/
def Encoder.configure (e : Encoder) (w l : Nat) : Encoder × Response :=
  let m := configMask w l
  if m = 0 then ({ Encoder.powerOn with ctl := Control.construct w l }, .ok)
  else ({ Encoder.powerOn with ctl := e.ctl.constructFailed m }, .configError m)

/-- `ENC.CONFIG` (42_encoder.md R120). -/
def execEncConfig (w l : Nat) (s : State) : Result :=
  s.onEnc fun e => .next (s.answer (.enc (e.configure w l).1) (e.configure w l).2)

/-! ### The match search -/

/-- `start`, the first position of the search window (42_encoder.md R122). -/
def windowStart (w pos : Nat) : Nat := if 2 ^ w ≤ pos then pos - 2 ^ w else 0

/-- `max_match`, the longest match feasible at `pos` (42_encoder.md R122). -/
def maxMatchAt (l pos n : Nat) : Nat := min (2 ^ l) (n - pos)

/-- The extension loop of a match: from length `m`, at most `fuel` bytes longer (42_encoder.md R123). The
compared source may run past `pos` (R136). -/
def extendMatch (inp : Buffer) (i pos : Nat) : Nat → Nat → Nat
  | 0, m => m
  | fuel + 1, m =>
    if memRead inp (i + m) = memRead inp (pos + m) then extendMatch inp i pos fuel (m + 1) else m

/-- `mlen(i)`, the match length of a candidate whose first byte matches (42_encoder.md R123). -/
def matchLength (inp : Buffer) (i pos maxMatch : Nat) : Nat :=
  extendMatch inp i pos (maxMatch - 1) 1

/-- The scan of `SEARCH` over the `fuel` candidates from `i` on, with the best length and offset so far: a
tie keeps the earlier candidate, and a length of `max_match` stops the scan (42_encoder.md R124). -/
def scanWindow (inp : Buffer) (pos maxMatch : Nat) : Nat → Nat → Nat × Nat → Nat × Nat
  | 0, _, best => best
  | fuel + 1, i, best =>
    if memRead inp i = memRead inp pos then
      let m := matchLength inp i pos maxMatch
      if best.1 < m then
        if m = maxMatch then (m, pos - i) else scanWindow inp pos maxMatch fuel (i + 1) (m, pos - i)
      else scanWindow inp pos maxMatch fuel (i + 1) best
    else scanWindow inp pos maxMatch fuel (i + 1) best

/-- `SEARCH` (42_encoder.md R124): writes `max_match`, `best_len`, `best_off`. DESIGN CHOICE (log entry 20): the three
registers keep these values after the pass, where 10_state.md R30 says that their values do not survive the step. -/
def Encoder.search (e : Encoder) : Encoder :=
  let start := windowStart e.ctl.w.toNat e.pos
  let maxMatch := maxMatchAt e.ctl.l.toNat e.pos e.input.length
  let best := scanWindow e.input e.pos maxMatch (e.pos - start) start (0, 0)
  { e with maxMatch := maxMatch, bestLen := best.1, bestOff := best.2 }

/-- `cand_len(d)`, one comparator lane: how many leading bytes agree at distance `d`, at most `max_match`
(42_encoder.md R125). -/
def candLen (inp : Buffer) (pos d : Nat) : Nat → Nat
  | 0 => 0
  | k + 1 =>
    if candLen inp pos d k = k ∧ memRead inp (pos - d + k) = memRead inp (pos + k) then k + 1
    else candLen inp pos d k

/-! ### Token emission and the passes of `COMPRESS` -/

/-- `EMIT.LITERAL(b)` (42_encoder.md R129). -/
def Writer.emitLiteral (w : Writer) (b : Byte) : Writer := (w.writeBits 1 1).writeBits b.toNat 8

/-- `EMIT.BACKREF(offset, length)` at parameters `(wb, lb)` (42_encoder.md R128). -/
def Writer.emitBackref (w : Writer) (wb lb offset length : Nat) : Writer :=
  ((w.writeBits 0 1).writeField (offset - 1) wb).writeField (length - 1) lb

/-- What one pass does after its `SEARCH`, with `b` the byte at `pos`: the decision rule, the emission, and
the step of `pos` (42_encoder.md R121, R127). -/
def Encoder.emit (e : Encoder) (b : Byte) : Encoder :=
  if 2 ≤ e.bestLen then
    { e with bw := e.bw.emitBackref e.ctl.w.toNat e.ctl.l.toNat e.bestOff e.bestLen, pos := e.pos + e.bestLen }
  else { e with bw := e.bw.emitLiteral b, pos := e.pos + 1 }

/-- The loop of `COMPRESS`, `while pos < n`; a pass advances `pos` by at least 1, so `n` passes are enough
(42_encoder.md R121, R134). -/
def Encoder.passes : Nat → Encoder → Encoder
  | 0, e => e
  | fuel + 1, e =>
    match memRead e.input e.pos with
    | some b => (e.search.emit b).passes fuel
    | none => e

/-- The encoder at the start of a `COMPRESS`: the input loaded, `pos` 0, the writer reset (42_encoder.md
R121, 70_reset_and_hazards.md R202), and the scratch registers at their reset values: all working state is
re-initialised, so that only the control and status registers matter (10_state.md R31). -/
def Encoder.load (e : Encoder) (input : Buffer) : Encoder :=
  { e with input := input, pos := 0, bw := .fresh, maxMatch := 0, bestLen := 0, bestOff := 0 }

/-- The encoder after `COMPRESS(input)`; the response is its flushed buffer (42_encoder.md R121, R131). -/
def Encoder.compressed (e : Encoder) (input : Buffer) : Encoder :=
  let e' := (e.load input).passes input.length
  { e' with bw := e'.bw.flushed }

/-- The token a pass emits after its `SEARCH`, with `b` the byte at `pos` (42_encoder.md R127 to R129). -/
def Encoder.token (e : Encoder) (b : Byte) : Instr :=
  if 2 ≤ e.bestLen then .backref (e.bestOff - 1) (e.bestLen - 1) else .literal b

/-- The tokens that the passes of `COMPRESS` emit, in order (42_encoder.md R121). -/
def Encoder.passTokens : Nat → Encoder → List Instr
  | 0, _ => []
  | fuel + 1, e =>
    match memRead e.input e.pos with
    | some b => e.search.token b :: (e.search.emit b).passTokens fuel
    | none => []

/-- The tokens of `COMPRESS(input)` (42_encoder.md R121). -/
def Encoder.tokens (e : Encoder) (input : Buffer) : List Instr :=
  (e.load input).passTokens input.length

/-- `COMPRESS` at capacities `c` (42_encoder.md R121, 60_exceptions.md R179, R181). -/
def compressWithin (c : Caps) (input : Buffer) (s : State) : Result :=
  s.onEnc fun e =>
    match e.ctl.refusal? with
    | some r => .refused r
    | none =>
      let e' := e.compressed input
      within (fits c.inCap input.length && fits c.wbufCap e'.bw.wbuf.length)
        (.next (s.answer (.enc e') (.bytes e'.bw.wbuf)))

/-- `COMPRESS` (42_encoder.md R121). -/
def execCompress (input : Buffer) (s : State) : Result := compressWithin Config.caps input s

end Sys2Proof.Machine
end

