-- ==== Sys2Proof/Machine/System.lean ====
section
/-! DEFINITION. The operations every codec instance has, and the reserved codes: `STATUS` (43_decoder.md
R156), refused codes (60_exceptions.md R179). -/

namespace Sys2Proof.Machine

/-- `STATUS`: the registers `STATUS`, `CAUSE`, `INFO`, and no change; an operation of `ENC` and `DEC`
instances (43_decoder.md R156, 30_encoding.md R86). -/
def execStatus (s : State) : Result :=
  match s.inst? with
  | some (.enc e) => .next (s.answer (.enc e) (.status e.statusReg e.ctl.cause e.ctl.info))
  | some (.dec d) => .next (s.answer (.dec d) (.status d.statusReg d.ctl.cause d.ctl.info))
  | some (.bw _) => .refused .badOp
  | some (.br _) => .refused .badOp
  | none => .fault .noInstance

/-- A reserved operation code, sent to any instance: refused as `BadOp` (60_exceptions.md R179;
30_encoding.md R86). -/
def execReserved (_code : ReservedCode) (_s : State) : Result := .refused .badOp

end Sys2Proof.Machine
end

