-- ==== Sys2Proof/Machine/WindowDecoder.lean ====
section
/-! DEFINITION. The sliding-window decoder `DEC` (43_decoder.md): construction, the three-state machine,
`PROCESS`, `GETOUTPUT`, and the execution of a single token. -/

namespace Sys2Proof.Machine

/-! ### Construction -/

/-- The decoder after `DEC.CONFIG(w, l, hint)`, and the response (43_decoder.md R145). After a failed one
`cap_hint` is unspecified (10_state.md R38, R47): the free value `freeHint` (log entry 2). -/
def Decoder.configure (d : Decoder) (w l hint freeHint : Nat) : Decoder × Response :=
  let m := configMask w l
  if m = 0 then
    ({ Decoder.powerOn with ctl := Control.construct w l, capHint := hint, freeDraws := d.freeDraws }, .ok)
  else
    ({ Decoder.powerOn with
        ctl := d.ctl.constructFailed m, capHint := freeHint, freeDraws := d.freeDraws + 1 }, .configError m)

/-- `DEC.CONFIG` (43_decoder.md R145). -/
def execDecConfig (w l hint : Nat) (s : State) : Result :=
  s.onDec fun d =>
    let p := d.configure w l hint (Config.freeCapHint s.cur d.freeDraws)
    .next (s.answer (.dec p.1) p.2)

/-! ### The steps of the FSM -/

/-- How a step of the FSM ends: it has run, it found too few bits and suspends, or it raised `Corrupt`. -/
inductive FsmResult where
  | ran (d : Decoder)
  | suspended (d : Decoder)
  | corrupt (d : Decoder)
deriving DecidableEq, Repr

/-- The back-copy: `length` bytes, one at a time in increasing index order, each read from `offset` back in
an output that already holds those before it (43_decoder.md R150, R151; 20_memory.md R64). The index is in
bounds whenever `1 <= offset <= len(OUT)` (20_memory.md R60). -/
def backCopy (offset : Nat) : Nat → Buffer → Buffer
  | 0, out => out
  | n + 1, out =>
    match memRead out (out.length - offset) with
    | some b => backCopy offset n (memAppend out b)
    | none => out

/-- Taking `Corrupt(off, outlen)` (43_decoder.md R152): the fault is recorded, `starved` is 0, everything
else is as the step left it. -/
def Decoder.raiseCorrupt (d : Decoder) : Decoder :=
  { d with ctl := d.ctl.raise .corrupt (.corrupt d.tokOff d.out.length), starved := false }

/-- The end of a tag: the FSM goes on in the state the tag selects (43_decoder.md R148). -/
def Decoder.tagged (d : Decoder) (br : Reader) (tag : Bool) : Decoder :=
  { d with br := br, dstate := if tag then .literal else .backRef }

/-- The end of a literal: the byte is appended (43_decoder.md R149). -/
def Decoder.appendLiteral (d : Decoder) (br : Reader) (b : Byte) : Decoder :=
  { d with br := br, out := memAppend d.out b, dstate := .awaitTag }

/-- The end of a back-reference whose stored fields are `offM1` and `lenM1`: the copy, or `Corrupt` when
the offset exceeds the output length (43_decoder.md R150, R152). DESIGN CHOICE (log entry 20): `tok_off` and
`tok_len` keep the token's values afterwards, where 10_state.md R34 says that they hold nothing between steps. -/
def Decoder.replay (d : Decoder) (br : Reader) (offM1 lenM1 : Nat) : FsmResult :=
  let d' := { d with br := br, tokOff := offM1 + 1, tokLen := lenM1 + 1 }
  if d.out.length < d'.tokOff then .corrupt d'.raiseCorrupt
  else .ran { d' with out := backCopy d'.tokOff d'.tokLen d.out, dstate := .awaitTag }

/-- `STEP.TAG` (43_decoder.md R148). -/
def Decoder.stepTag (d : Decoder) : FsmResult :=
  match d.br.readBits 1 with
  | some (t, br) => .ran (d.tagged br (decide (t = 1)))
  | none => .suspended d

/-- `STEP.LIT` (43_decoder.md R149). -/
def Decoder.stepLit (d : Decoder) : FsmResult :=
  match d.br.readBits 8 with
  | some (b, br) => .ran (d.appendLiteral br (BitVec.ofNat 8 b))
  | none => .suspended d

/-- `STEP.BREF` (43_decoder.md R150): it runs only when all `W + L` bits are there (R154), so neither field
read can fall short (41_bit_reader.md R110). -/
def Decoder.stepBref (d : Decoder) : FsmResult :=
  if d.br.avail < d.ctl.w.toNat + d.ctl.l.toNat then .suspended d
  else
    match d.br.readField d.ctl.w.toNat with
    | some (o, br) =>
      match br.readField d.ctl.l.toNat with
      | some (n, br') => d.replay br' o n
      | none => .suspended d
    | none => .suspended d

/-- One step of the FSM, by its state (43_decoder.md R146, R147). -/
def Decoder.fsmStep (d : Decoder) : FsmResult :=
  match d.dstate with
  | .awaitTag => d.stepTag
  | .literal => d.stepLit
  | .backRef => d.stepBref

/-- The steps that execute one token: from `AwaitTag` the tag and then the body, otherwise the body
(43_decoder.md R147 to R150). -/
def Decoder.fsmToken (d : Decoder) : FsmResult :=
  match d.dstate with
  | .awaitTag =>
    match d.stepTag with
    | .ran d' => d'.fsmStep
    | .suspended d' => .suspended d'
    | .corrupt d' => .corrupt d'
  | .literal => d.stepLit
  | .backRef => d.stepBref

/-- The loop of `PROCESS`, until a step suspends or raises (43_decoder.md R146). Every step that does not
suspend consumes at least one bit, so `avail + 1` steps are enough. -/
def Decoder.runFsm : Nat → Decoder → Decoder
  | 0, d => d
  | fuel + 1, d =>
    match d.fsmStep with
    | .ran d' => d'.runFsm fuel
    | .suspended d' => d'
    | .corrupt d' => d'

/-- The decoder after `PROCESS(chunk)` (43_decoder.md R146). -/
def Decoder.processed (d : Decoder) (chunk : Buffer) : Decoder :=
  let d0 := { d with br := d.br.feed chunk }
  let d1 := d0.runFsm (d0.br.avail + 1)
  { d1 with starved := d1.starvedNow }

/-- The response of a `PROCESS` that ends in decoder `d`: ok, or the fault raised (43_decoder.md R146). -/
def Decoder.processResponse (d : Decoder) : Response :=
  if d.ctl.fault then .corrupt d.tokOff d.out.length else .ok

/-- `PROCESS` at capacities `c` (43_decoder.md R146, 60_exceptions.md R179, R181). -/
def processWithin (c : Caps) (chunk : Buffer) (s : State) : Result :=
  s.onDec fun d =>
    match d.ctl.refusal? with
    | some r => .refused r
    | none =>
      let d' := d.processed chunk
      within (fits c.streamCap d'.br.stream.length && fits c.outCap d'.out.length)
        (.next (s.answer (.dec d') d'.processResponse))

/-- `PROCESS` (43_decoder.md R146). -/
def execProcess (chunk : Buffer) (s : State) : Result := processWithin Config.caps chunk s

/-- `GETOUTPUT`: the whole of `OUT`, and no change, in every state of the instance (43_decoder.md R155). -/
def execGetOutput (s : State) : Result :=
  s.onDec fun d => .next (s.answer (.dec d) (.bytes d.out))

/-! ### A single token -/

/-- Where a token's own bits begin: with the decoder in `AwaitTag` the tag `tag` is consumed first, by
`STEP.TAG`; with the tag already read the decoder is there; in the middle of the other kind of token there
is no such place (43_decoder.md R147, R148). -/
def Decoder.atToken (d : Decoder) (tag : Bool) : Option FsmResult :=
  match d.dstate, tag with
  | .awaitTag, t => if d.br.avail < 1 then some (.suspended d) else some (.ran (d.tagged (d.br.advance 1) t))
  | .literal, true => some (.ran d)
  | .backRef, false => some (.ran d)
  | .literal, false => none
  | .backRef, true => none

/-- The execution of `LITERAL` by a decoder past its tag: `STEP.LIT` with the byte decoded (43_decoder.md R149). -/
def Decoder.literalBody (d : Decoder) (b : Byte) : FsmResult :=
  if d.br.avail < 8 then .suspended d else .ran (d.appendLiteral (d.br.advance 8) b)

/-- The execution of `BACKREF` by a decoder past its tag: `STEP.BREF` with the fields decoded (43_decoder.md R150). -/
def Decoder.backrefBody (d : Decoder) (offM1 lenM1 : Nat) : FsmResult :=
  if d.br.avail < d.ctl.w.toNat + d.ctl.l.toNat then .suspended d
  else d.replay (d.br.advance (d.ctl.w.toNat + d.ctl.l.toNat)) offM1 lenM1

/-- End the execution of a token in state `s`. A fault is the response; otherwise a token has none, since
it is no host operation (00_scope.md R3, 60_exceptions.md R182). -/
def State.endToken (c : Caps) (s : State) : FsmResult → Result
  | .ran d => within (fits c.outCap d.out.length) (.next (s.put (.dec d)))
  | .suspended d => .next (s.put (.dec d))
  | .corrupt d => .next (s.answer (.dec d) (.corrupt d.tokOff d.out.length))

/-- Execute a token with tag `tag` and body `body` on the decoder addressed, at capacities `c`. It needs what
`PROCESS` needs: a faulted or unconfigured decoder executes nothing (60_exceptions.md R179, R182). -/
def tokenWithin (c : Caps) (tag : Bool) (body : Decoder → FsmResult) (s : State) : Result :=
  s.onDec fun d =>
    match d.ctl.refusal? with
    | some r => .refused r
    | none =>
      match d.atToken tag with
      | some (.ran d') => s.endToken c (body d')
      | some (.suspended d') => .next (s.put (.dec d'))
      | some (.corrupt d') => .next (s.put (.dec d'))
      | none => .fault .tokenOutOfPlace

/-- `LITERAL` (30_encoding.md R71, 43_decoder.md R149). -/
def execLiteral (b : Byte) (s : State) : Result :=
  tokenWithin Config.caps true (fun d => d.literalBody b) s

/-- `BACKREF` (30_encoding.md R72, 43_decoder.md R150 to R154). -/
def execBackref (offM1 lenM1 : Nat) (s : State) : Result :=
  tokenWithin Config.caps false (fun d => d.backrefBody offM1 lenM1) s

end Sys2Proof.Machine
end

