-- ==== Sys2Proof/Machine/Dispatch.lean ====
section
/-! DEFINITION. One arm per instruction. -/

namespace Sys2Proof.Machine

/-- The meaning of every instruction: the two tokens, the thirteen host operations, the reserved codes. -/
def exec (i : Instr) (s : State) : Host.Outcome State Fault Refusal :=
  match i with
  | .literal byte => Sys2Proof.Machine.execLiteral byte s
  | .backref offM1 lenM1 => Sys2Proof.Machine.execBackref offM1 lenM1 s
  | .status => Sys2Proof.Machine.execStatus s
  | .encConfig w l => Sys2Proof.Machine.execEncConfig w l s
  | .compress input => Sys2Proof.Machine.execCompress input s
  | .decConfig w l hint => Sys2Proof.Machine.execDecConfig w l hint s
  | .process chunk => Sys2Proof.Machine.execProcess chunk s
  | .getOutput => Sys2Proof.Machine.execGetOutput s
  | .bwReset => Sys2Proof.Machine.execBwReset s
  | .writeBits value count => Sys2Proof.Machine.execWriteBits value count s
  | .writeByte byte => Sys2Proof.Machine.execWriteByte byte s
  | .flush => Sys2Proof.Machine.execFlush s
  | .brReset => Sys2Proof.Machine.execBrReset s
  | .feed chunk => Sys2Proof.Machine.execFeed chunk s
  | .readBits count => Sys2Proof.Machine.execReadBits count s
  | .reserved code => Sys2Proof.Machine.execReserved code s

end Sys2Proof.Machine
end

