-- ==== Sys2Proof/Machine/Loader.lean ====
section
/-! DEFINITION. Placing one word of the opcode table where the machine takes its next instruction from, for
`State.withFetchWord` (log entries 4 and 9). -/

namespace Sys2Proof.Machine

/-- Whether an instance is of a kind that executes the operation code `op` (30_encoding.md R86). A reserved
code is refused by every kind. -/
def Inst.serves (op : Nat) : Inst → Bool
  | .enc _ => decide (op ≤ 0x2) || decide (op = 0x6) || decide (op = 0x7) || decide (op = 0xF)
  | .dec _ => decide (op = 0x0) || decide (0x3 ≤ op ∧ op ≤ 0x7) || decide (op = 0xF)
  | .bw _ => decide (op = 0x6) || decide (op = 0x7) || decide (0x8 ≤ op ∧ op ≤ 0xB) || decide (op = 0xF)
  | .br _ => decide (op = 0x6) || decide (op = 0x7) || decide (0xC ≤ op)

/-- Whether an instance is a `DEC`. -/
def Inst.isDec : Inst → Bool
  | .enc _ => false
  | .dec _ => true
  | .bw _ => false
  | .br _ => false

/-- A decoder about to execute the first token of `bits` at parameters `p`: configured at `p`, in `AwaitTag`
at bit 0 of a stream that holds `bits`. Its output stays. -/
def Decoder.loaded (d : Decoder) (p : Nat × Nat) (bits : BitSeq) : Decoder :=
  { d with
    ctl := Control.construct p.1 p.2
    br := { stream := bitsToBytes bits, rpos := 0 }
    dstate := .awaitTag }

/-- The first decoder loaded with a token, alone to move: nothing is pending at the port. A state with no
decoder is given one. -/
def State.placeToken (s : State) (p : Nat × Nat) (bits : BitSeq) : State :=
  let k := s.insts.findIdx Inst.isDec
  match s.insts[k]? with
  | some (.dec d) => { s with insts := s.insts.set k (.dec (d.loaded p bits)), cur := k, port := [] }
  | _ => { s with insts := s.insts ++ [.dec (Decoder.powerOn.loaded p bits)], cur := s.insts.length, port := [] }

/-- A host operation put at the head of the port, addressed to the first instance that executes its code,
every operand port at zero. -/
def State.placeHost (s : State) (op : Nat) : State :=
  { s with
    port := { target := s.insts.findIdx (Inst.serves op), word := { op := BitVec.ofNat 4 op } } :: s.port }

end Sys2Proof.Machine
end

