-- ==== Sys2Proof/Machine/Step.lean ====
section
/-! DEFINITION. One step of the machine. -/

namespace Sys2Proof.Machine

/-- One step. The oldest operation of the port is taken off, decoded and run to completion (00_scope.md R7).
With nothing at the port, nothing happens (60_exceptions.md R180), unless a whole token stands at the program
counter of the decoder addressed: then that token is executed. A `PROCESS` leaves no such token behind
(43_decoder.md R153), so no run from reset comes there (log entry 4). -/
def step (s : State) : Host.Outcome State Fault Refusal :=
  match s.port with
  | r :: rest => (s.accept r rest).returnRefusal (exec (decodeHost r.word) (s.accept r rest))
  | [] =>
    match s.fetchToken with
    | some i => exec i s
    | none => .next s

/-- The state with one word of the opcode table where `step` takes its next instruction from: an operation
code at the head of the port, or a token at bit 0 of the stream of the first decoder (log entries 4 and 9). -/
def State.withFetchWord (s : State) (nbits w : Nat) : State :=
  if isHostTableWord nbits w then s.placeHost w
  else s.placeToken (tableParams nbits) (tableBits nbits w)

end Sys2Proof.Machine
end

