-- ==== Sys2Proof/Safety.lean ====
section
/-! DEFINITION. What claims are stated in terms of: legal states between operations, what counts as a safe
run, which operation belongs to which kind of instance. -/

namespace Sys2Proof.Machine

/-! ### Which instance an operation belongs to -/

/-- Whether instruction `i` is executed by instances of the kind of `x` (00_scope.md R6; the table of
30_encoding.md R86). The tokens are executed by `DEC`. A reserved code is executed by no kind. -/
def runsOn (i : Instr) (x : Inst) : Bool :=
  match i, x with
  | .literal _, .dec _ => true
  | .backref _ _, .dec _ => true
  | .status, .enc _ => true
  | .status, .dec _ => true
  | .encConfig _ _, .enc _ => true
  | .compress _, .enc _ => true
  | .decConfig _ _ _, .dec _ => true
  | .process _, .dec _ => true
  | .getOutput, .dec _ => true
  | .bwReset, .bw _ => true
  | .writeBits _ _, .bw _ => true
  | .writeByte _, .bw _ => true
  | .flush, .bw _ => true
  | .brReset, .br _ => true
  | .feed _, .br _ => true
  | .readBits _, .br _ => true
  | _, _ => false

/-- The control registers of an instance; `BW` and `BR` have none (10_state.md R20). -/
def Inst.control? : Inst → Option Control
  | .enc e => some e.ctl
  | .dec d => some d.ctl
  | .bw _ => none
  | .br _ => none

/-! ### Legal states between operations -/

/-- Configured and with no fault recorded: `COMPRESS` and `PROCESS` are accepted (42_encoder.md R121,
43_decoder.md R146). -/
def Control.Ready (c : Control) : Prop := c.configured = true ∧ c.fault = false

/-- The low `8 - nacc` bits of `acc` are 0 at all times (10_state.md R22). -/
def Writer.Inv (w : Writer) : Prop := w.acc.toNat % 2 ^ (8 - w.nacc.val) = 0

/-- The cursor is inside the stream (10_state.md R26). -/
def Reader.Inv (r : Reader) : Prop := r.rpos ≤ 8 * r.stream.length

/-- The three states of the fault record: none, a `ConfigError` on an unconfigured instance with a mask that
is not 0, a `Corrupt` on a configured one with an offset beyond the output length (10_state.md R39, R40;
60_exceptions.md R176, R177; 93_implementation_defined.md U22). -/
def Control.RecordInv (c : Control) : Prop :=
  (c.fault = false ∧ c.cause = .none ∧ c.info = .zero) ∨
  (c.fault = true ∧ c.configured = false ∧ c.cause = .configError ∧ ∃ m, m ≠ 0 ∧ c.info = .mask m) ∨
  (c.fault = true ∧ c.configured = true ∧ c.cause = .corrupt ∧
    ∃ off outLen, outLen < off ∧ c.info = .corrupt off outLen)

/-- The control registers: a configured instance has a legal pair (10_state.md R36, R37), and the fault
record is in one of its three states. -/
def Control.Inv (c : Control) : Prop :=
  (c.configured = true → legalParams c.w.toNat c.l.toNat = true) ∧ c.RecordInv

/-- An `ENC` between operations: no corruption recorded, the writer flushed (20_memory.md R65), all input
covered (42_encoder.md R135), the scratch registers in their ranges (10_state.md R30). -/
def Encoder.Inv (e : Encoder) : Prop :=
  e.ctl.Inv ∧ e.ctl.cause ≠ .corrupt ∧ e.bw.nacc = 0 ∧ e.bw.acc = 0 ∧ e.pos = e.input.length ∧
  e.bestLen ≤ e.maxMatch ∧ e.maxMatch ≤ 2 ^ e.ctl.l.toNat ∧ e.bestOff ≤ 2 ^ e.ctl.w.toNat

/-- A decoder that may run has no step to run: the next one suspends (43_decoder.md R153). -/
def Decoder.Quiescent (d : Decoder) : Prop := d.ctl.Ready → d.fsmStep = .suspended d

/-- A `DEC` between operations: the cursor inside the stream (10_state.md R26), `starved` as the last
`PROCESS` left it (43_decoder.md R146), nothing left to run, the token registers in their ranges (10_state.md
R34), nothing fed or decoded while unconfigured (10_state.md R47), and a recorded corruption is that of the
token registers (43_decoder.md R152, R157). -/
def Decoder.Inv (d : Decoder) : Prop :=
  d.ctl.Inv ∧ d.br.Inv ∧ d.starved = d.starvedNow ∧ d.Quiescent ∧
  d.tokOff ≤ 2 ^ d.ctl.w.toNat ∧ d.tokLen ≤ 2 ^ d.ctl.l.toNat ∧
  (d.ctl.configured = false → d.br = .fresh ∧ d.out = [] ∧ d.dstate = .awaitTag) ∧
  (d.ctl.cause = .corrupt → d.ctl.info = .corrupt d.tokOff d.out.length ∧ d.dstate = .backRef)

/-- An instance between operations. -/
def Inst.Inv : Inst → Prop
  | .enc e => e.Inv
  | .dec d => d.Inv
  | .bw w => w.Inv
  | .br r => r.Inv

/-- The block between operations: every instance is legal. -/
def State.Inv (s : State) : Prop := ∀ x ∈ s.insts, x.Inv

/-! ### Safe runs -/

/-- No instance has a fault recorded (60_exceptions.md R183: "no fault recorded" as a premise of a claim). -/
def State.NoFault (s : State) : Prop := ∀ x ∈ s.insts, ∀ c, x.control? = some c → c.fault = false

/-- A step is safe when it answers a next state with no fault recorded and its response is no refusal. -/
def State.SafeStep (s : State) : Prop :=
  ∃ t, step s = .next t ∧ t.NoFault ∧ ∀ r, t.response ≠ .refused r

/-- The capacities hold of an instance's buffers (00_scope.md R14). -/
def Inst.fitsCaps (c : Caps) : Inst → Bool
  | .enc e => fits c.inCap e.input.length && fits c.wbufCap e.bw.wbuf.length
  | .dec d => fits c.streamCap d.br.stream.length && fits c.outCap d.out.length
  | .bw w => fits c.wbufCap w.wbuf.length
  | .br r => fits c.streamCap r.stream.length

/-! ### Sequences of operations -/

/-- `PROCESS` of several chunks, one after another. -/
def processAll : List Buffer → State → Result
  | [], s => .next s
  | c :: cs, s =>
    match exec (.process c) s with
    | .next t => processAll cs t
    | .fault f => .fault f
    | .refused r => .refused r

/-- Several writes, one after another, each a value and a count. -/
def Writer.writeAll (w : Writer) (fields : List (Nat × Nat)) : Writer :=
  fields.foldl (fun w f => w.writeBits f.1 f.2) w

/-- Several reads, one after another, each a count: the values, and the reader after them; nothing when one
of them is `Exhausted`. -/
def Reader.readAll (r : Reader) : List Nat → Option (List Nat × Reader)
  | [] => some ([], r)
  | c :: cs =>
    match r.readBits c with
    | some (v, r') =>
      match r'.readAll cs with
      | some (vs, r'') => some (v :: vs, r'')
      | none => none
    | none => none

/-- How many bytes of data a token stands for: 1, or the length of a back-reference (42_encoder.md R121, R128,
R129). -/
def tokenLength : Instr → Nat
  | .backref _ n => n + 1
  | _ => 1

/-- Where in the input the `k`-th of a list of tokens begins. -/
def tokenStart (tokens : List Instr) (k : Nat) : Nat := ((tokens.take k).map tokenLength).sum

/-- Whether a token is a `LITERAL`. -/
def isLiteralToken : Instr → Bool
  | .literal _ => true
  | _ => false

end Sys2Proof.Machine
end

