-- ==== Sys2Proof/Certificates/Slice0/Obligations.lean ====
section
/-! DEFINITION. The statements for the provers. Each docstring names the rules of spec/ it formalises. An
operation's answer is written `s.answer x r` (or `s.put x`): the state `s` with the addressed instance replaced by
`x` and the response `r`; every other instance, the port and the address stay by that very equation. -/

open Sys2Proof Sys2Proof.Machine

/-! ### Encoding -/

/-- Decoding the code of a well-formed instruction gives it back, with every operand, at every parameter pair
(30_encoding.md R71, R72, R75, R86). -/
def Obligations.DecodeOfEncodeIsTheInstruction : Prop :=
  ∀ (w l : Nat) (i : Instr), i.wellFormed w l = true → decode w l (encode w l i) = .ok i

/-- The other direction for tokens: the bits a decoded token was read from are its code, nothing is skipped,
and at a legal pair the token is well-formed (30_encoding.md R70 to R72, R81). -/
def Obligations.EncodeOfDecodedTokenIsTheBits : Prop :=
  ∀ (w l : Nat) (bs rest : BitSeq) (i : Instr), decodeToken w l bs = .ok (i, rest) →
    bs = tokenBits w l i ++ rest ∧ (legalParams w l = true → i.wellFormed w l = true)

/-- The tag bit alone decides the token and its length, and no bit pattern is illegal (30_encoding.md R77, R81). -/
def Obligations.TagBitAloneSelectsTheToken : Prop :=
  ∀ (w l : Nat) (bs : BitSeq),
    (8 ≤ bs.length → ∃ b, decodeToken w l (true :: bs) = .ok (.literal b, bs.drop 8)) ∧
    (w + l ≤ bs.length → ∃ o n, decodeToken w l (false :: bs) = .ok (.backref o n, bs.drop (w + l))) ∧
    (bs.length < 8 → decodeToken w l (true :: bs) = .error .exhausted) ∧
    (bs.length < w + l → decodeToken w l (false :: bs) = .error .exhausted)

/-- Words written out from the formats of 30_encoding.md R71, R72 and the codes of R86 decode to what they stand
for; the token words are those of 95_test_vectors.md A5, A6 and B-DE13. -/
def Obligations.WrittenOutWordsDecode : Prop :=
  decodeToken 4 2 [true, false, true, true, false, false, false, false, true] = .ok (.literal 0x61, []) ∧
  decodeToken 4 2 [false, false, false, false, false, true, false] = .ok (.backref 0 2, []) ∧
  decodeToken 12 4
      [false, false, false, false, true, false, false, true, false, true, false, true, true, false, false, true, false]
    = .ok (.backref 299 2, []) ∧
  decodeHost { op := 0x0 } = .status ∧
  decodeHost { op := 0x1, ports := { w := 8, l := 4 } } = .encConfig 8 4 ∧
  decodeHost { op := 0x4, ports := { bytes := [0xB0, 0x82] } } = .process [0xB0, 0x82] ∧
  decodeHost { op := 0x7 } = .reserved .op7 ∧
  decodeHost { op := 0x9, ports := { value := 0x61, count := 8 } } = .writeBits 0x61 8 ∧
  decodeHost { op := 0xE, ports := { count := 3 } } = .readBits 3

/-- R74: splitting a field wider than 8 bits does not change the bits on the wire. -/
def Obligations.FieldSplitKeepsTheBits : Prop :=
  ∀ (v w : Nat), 8 < w → v < 2 ^ w → bitsMSB (v >>> 8) (w - 8) ++ bitsMSB (v &&& 0xFF) 8 = bitsMSB v w

/-! ### The step -/

/-- A step runs the decoded instruction. The oldest request of the port is taken off, its target is the
instance addressed, and the step is `exec` of the decoded operation there, a refusal of the spec's being
returned as the response. With nothing at the port, a whole token at the program counter of a ready decoder is
executed (00_scope.md R7; 60_exceptions.md R179; 10_state.md R42; log entries 4 and 13). -/
def Obligations.StepRunsTheDecodedInstruction : Prop :=
  (∀ (s : State) (q : Request) (rest : List Request) (i : Instr), s.port = q :: rest → decodeHost q.word = i →
    (∀ t, exec i (s.accept q rest) = .next t → step s = .next t) ∧
    (∀ r, exec i (s.accept q rest) = .refused r → r.isReturned = true →
      step s = .next { s.accept q rest with response := .refused r }) ∧
    (∀ f, exec i (s.accept q rest) = .fault f → step s = .fault f)) ∧
  (∀ (s : State) (d : Decoder) (i : Instr) (rest : BitSeq), s.port = [] → s.inst? = some (.dec d) →
    d.ctl.Ready → decodeToken d.ctl.w.toNat d.ctl.l.toNat d.tokenBitsAt = .ok (i, rest) → step s = exec i s)

/-- With nothing issued, nothing happens, in every state between operations (60_exceptions.md R180). -/
def Obligations.NothingHappensBetweenOperations : Prop :=
  ∀ s : State, s.Inv → s.port = [] → step s = .next s

/-- The invariant of the state between operations holds at reset. -/
def Obligations.ResetIsBetweenOperations : Prop := State.reset.Inv

/-- Every step keeps the invariant of the state between operations: unwritten bits of `acc` zero (10_state.md
R22), cursors inside their streams (R26), scratch and token registers in range (R30, R34), legal parameters on
configured instances (R36, R37), the fault record in one of its three states (R39, R40), encoders flushed
(20_memory.md R65), decoders with nothing left to run (43_decoder.md R153). What the scratch and token registers hold
between operations is the model's choice (log entry 20). -/
def Obligations.StepKeepsTheInvariant : Prop :=
  ∀ s t : State, s.Inv → step s = .next t → t.Inv

/-- R47, power-on: every instance has `STATUS = 0`, `CAUSE = 0`, `INFO = 0`, all buffers empty and all working
registers 0. Which instances there are is the model's choice (log entry 3); `W`, `L` and `cap_hint` are unspecified
and not stated. -/
def Obligations.PowerOnState : Prop :=
  ∃ e d, State.reset.insts = [.enc e, .dec d, .bw .fresh, .br .fresh] ∧
    e.statusReg = 0 ∧ e.ctl.cause = .none ∧ e.ctl.info = .zero ∧ e.input = [] ∧ e.bw.wbuf = [] ∧ e.bw.acc = 0 ∧
    e.bw.nacc = 0 ∧ e.pos = 0 ∧ e.maxMatch = 0 ∧ e.bestLen = 0 ∧ e.bestOff = 0 ∧
    d.statusReg = 0 ∧ d.ctl.cause = .none ∧ d.ctl.info = .zero ∧ d.br.stream = [] ∧ d.br.rpos = 0 ∧ d.out = [] ∧
    d.dstate = .awaitTag ∧ d.tokOff = 0 ∧ d.tokLen = 0

/-! ### Frames over all instructions -/

/-- An operation is a transition of one instance: the others, the port and the address stay as they are
(00_scope.md R6, R7; 10_state.md R20). -/
def Obligations.OnlyTheAddressedInstanceChanges : Prop :=
  ∀ (i : Instr) (s t : State), exec i s = .next t →
    t.cur = s.cur ∧ t.port = s.port ∧ t.insts.length = s.insts.length ∧
    ∀ k, k ≠ s.cur → t.insts[k]? = s.insts[k]?

/-- R8: operations on different instances commute, since they share no state. -/
def Obligations.OperationsOnDifferentInstancesCommute : Prop :=
  ∀ (i j : Instr) (a b : Nat) (s t u : State), a ≠ b →
    exec i { s with cur := a } = .next t → exec j { t with cur := b } = .next u →
    ∃ t' u', exec j { s with cur := b } = .next t' ∧ exec i { t' with cur := a } = .next u' ∧ u'.insts = u.insts

/-- The buffers are append-only: no operation but a construction, a reset or the reload of `COMPRESS` changes a
byte that a buffer holds, and `IN` changes with `COMPRESS` and `ENC.CONFIG` only (20_memory.md R50, R59; 10_state.md
R21, R25, R28, R32). Read byte by byte, through the model's read. -/
def Obligations.BuffersAreAppendOnly : Prop :=
  ∀ (i : Instr) (s t : State), exec i s = .next t →
    (∀ d d', s.inst? = some (.dec d) → t.inst? = some (.dec d') → (∀ w l h, i ≠ .decConfig w l h) →
      (∀ a < d.out.length, memRead d'.out a = memRead d.out a) ∧
      (∀ a < d.br.stream.length, memRead d'.br.stream a = memRead d.br.stream a)) ∧
    (∀ w w', s.inst? = some (.bw w) → t.inst? = some (.bw w') → i ≠ .bwReset →
      ∀ a < w.wbuf.length, memRead w'.wbuf a = memRead w.wbuf a) ∧
    (∀ r r', s.inst? = some (.br r) → t.inst? = some (.br r') → i ≠ .brReset →
      ∀ a < r.stream.length, memRead r'.stream a = memRead r.stream a) ∧
    (∀ e e', s.inst? = some (.enc e) → t.inst? = some (.enc e') → (∀ w l, i ≠ .encConfig w l) →
      (∀ input, i ≠ .compress input) → e' = e)

/-- The fault record is sticky: while `fault` is 1 an instruction that is no construction leaves the control registers
as they are, and a construction clears `fault` exactly when its operands pass validation (10_state.md R39, R41;
60_exceptions.md R183, R184). -/
def Obligations.FaultRecordIsSticky : Prop :=
  ∀ (i : Instr) (s t : State) (x y : Inst) (c c' : Control), exec i s = .next t →
    s.inst? = some x → t.inst? = some y → x.control? = some c → y.control? = some c' → c.fault = true →
    ((∀ w l, i ≠ .encConfig w l ∧ ∀ h, i ≠ .decConfig w l h) → c' = c) ∧
    (∀ w l, (i = .encConfig w l ∨ ∃ h, i = .decConfig w l h) → (c'.fault = false ↔ legalParams w l = true))

/-- `fault` is set by `raise ConfigError` and `raise Corrupt` and by nothing else, and the response is the fault
recorded (10_state.md R41; 60_exceptions.md R175, R182). -/
def Obligations.FaultIsSetOnlyByItsTwoCauses : Prop :=
  ∀ (i : Instr) (s t : State) (x y : Inst) (c c' : Control), exec i s = .next t →
    s.inst? = some x → t.inst? = some y → x.control? = some c → y.control? = some c' →
    c.fault = false → c'.fault = true →
    (∃ m, m ≠ 0 ∧ c'.cause = .configError ∧ c'.info = .mask m ∧ t.response = .configError m ∧
      ∃ w l, i = .encConfig w l ∨ ∃ h, i = .decConfig w l h) ∨
    (∃ off outLen, outLen < off ∧ c'.cause = .corrupt ∧ c'.info = .corrupt off outLen ∧
      t.response = .corrupt off outLen ∧ ((∃ chunk, i = .process chunk) ∨ ∃ o n, i = .backref o n))

/-- `W` and `L` are written only by a construction, and only when its validation passes; then they are its
operands (10_state.md R36, R37). -/
def Obligations.ParametersAreWrittenOnlyByAPassedConstruction : Prop :=
  ∀ (i : Instr) (s t : State) (x y : Inst) (c c' : Control), exec i s = .next t →
    s.inst? = some x → t.inst? = some y → x.control? = some c → y.control? = some c' →
    (c'.w = c.w ∧ c'.l = c.l) ∨
    (∃ w l, (i = .encConfig w l ∨ ∃ h, i = .decConfig w l h) ∧ legalParams w l = true ∧
      c'.w.toNat = w ∧ c'.l.toNat = l)

/-! ### Refusals -/

/-- A code sent to an instance of another kind is refused as `BadOp`: the table of 30_encoding.md R86. A token is
executed by a `DEC` only (00_scope.md R3). -/
def Obligations.WrongKindIsRefusedAsBadOp : Prop :=
  ∀ (i : Instr) (s : State) (x : Inst), s.inst? = some x → runsOn i x = false → exec i s = .refused .badOp

/-- The reserved codes 0x6, 0x7, 0xF are refused as `BadOp`, in every state (30_encoding.md R86; 60_exceptions.md
R179). -/
def Obligations.ReservedCodesAreRefused : Prop :=
  (∀ (c : ReservedCode) (s : State), exec (.reserved c) s = .refused .badOp) ∧
  decodeHost { op := 0x6 } = .reserved .op6 ∧ decodeHost { op := 0x7 } = .reserved .op7 ∧
  decodeHost { op := 0xF } = .reserved .opF

/-- `COMPRESS` and `PROCESS` are refused: `NotConfigured` with neither `configured` nor `fault`, `Faulted` with
`CAUSE` and `INFO` while `fault` is 1 (60_exceptions.md R179, R182; 43_decoder.md R157). -/
def Obligations.UnreadyInstanceRefusesWork : Prop :=
  ∀ (s : State) (bs : Buffer),
    (∀ e, s.inst? = some (.enc e) →
      (e.ctl.configured = false → e.ctl.fault = false → exec (.compress bs) s = .refused .notConfigured) ∧
      (e.ctl.fault = true → exec (.compress bs) s = .refused (.faulted e.ctl.cause e.ctl.info))) ∧
    (∀ d, s.inst? = some (.dec d) →
      (d.ctl.configured = false → d.ctl.fault = false → exec (.process bs) s = .refused .notConfigured) ∧
      (d.ctl.fault = true → exec (.process bs) s = .refused (.faulted d.ctl.cause d.ctl.info)))

/-- A request that is refused changes no state and sets no flag: a step takes it off the port and returns the name
(60_exceptions.md R179; log entry 13). First for every refusal `exec` answers; then each refusal with the condition that
causes it: `BadOp` (a reserved code, a code for another kind), `NotConfigured`, `Faulted` with `CAUSE` and `INFO`,
`BadCount`. `CapacityExceeded` does not arise at the unbounded capacities of `exec` (log entry 8). -/
def Obligations.RefusedRequestReturnsItsName : Prop :=
  ∀ (s : State) (q : Request) (rest : List Request) (x : Inst), s.port = q :: rest →
    s.insts[q.target]? = some x →
    let i := decodeHost q.word
    let returns := fun r : Refusal =>
      step s = .next { insts := s.insts, cur := q.target, port := rest, response := .refused r }
    (∀ r, exec i (s.accept q rest) = .refused r → returns r) ∧
    (runsOn i x = false → returns .badOp) ∧
    (∀ bs c, (i = .compress bs ∨ i = .process bs) → runsOn i x = true → x.control? = some c →
      (c.configured = false → c.fault = false → returns .notConfigured) ∧
      (c.fault = true → returns (.faulted c.cause c.info))) ∧
    (∀ v n, (i = .writeBits v n ∨ i = .readBits n) → runsOn i x = true → 16 < n → returns .badCount)

/-- A finite capacity: the operation that would make a buffer longer is refused whole, and every other one does
what it does at unbounded capacity (00_scope.md R14; 60_exceptions.md R179; 92_eei_decisions.md D6). `exec` runs
at unbounded capacity (log entry 8). -/
def Obligations.FiniteCapacityRefusesWhole : Prop :=
  ∀ (c : Caps) (s t : State) (y : Inst), t.inst? = some y →
    (∀ v n, exec (.writeBits v n) s = .next t →
      writeBitsWithin c v n s = if y.fitsCaps c then .next t else .refused .capacityExceeded) ∧
    (∀ b, exec (.writeByte b) s = .next t →
      writeByteWithin c b s = if y.fitsCaps c then .next t else .refused .capacityExceeded) ∧
    (exec .flush s = .next t →
      flushWithin c s = if y.fitsCaps c then .next t else .refused .capacityExceeded) ∧
    (∀ chunk, exec (.feed chunk) s = .next t →
      feedWithin c chunk s = if y.fitsCaps c then .next t else .refused .capacityExceeded) ∧
    (∀ input, exec (.compress input) s = .next t →
      compressWithin c input s = if y.fitsCaps c then .next t else .refused .capacityExceeded) ∧
    (∀ chunk, exec (.process chunk) s = .next t →
      processWithin c chunk s = if y.fitsCaps c then .next t else .refused .capacityExceeded)

/-! ### The bit writer -/

/-- R90: `BW.RESET` makes a fresh writer. -/
def Obligations.BwResetMakesAFreshWriter : Prop :=
  (∀ p : Ports, decodeHost { op := 0x8, ports := p } = .bwReset) ∧
  ∀ (s : State) (w : Writer), s.inst? = some (.bw w) →
    exec .bwReset s = .next (s.answer (.bw { wbuf := [], acc := 0, nacc := 0 }) .none)

/-- R91: `WRITEBITS` appends the low `count` bits of `value`, most significant first, to the writer's
content, keeps the unwritten bits of `acc` zero, and answers for every count up to `CNT_MAX`; a larger count is
refused as `BadCount`, and count 0 changes nothing. -/
def Obligations.WriteBitsAppendsTheLowBits : Prop :=
  (∀ p : Ports, decodeHost { op := 0x9, ports := p } = .writeBits p.value p.count) ∧
  ∀ (s : State) (w : Writer) (value : PortValue) (count : Nat), s.inst? = some (.bw w) → w.Inv →
    (count ≤ 16 → ∃ w', exec (.writeBits value count) s = .next (s.answer (.bw w') .none) ∧
      w'.wbits = w.wbits ++ bitsMSB value.toNat count ∧ w'.Inv ∧
      w'.wbuf.length = w.wbuf.length + (w.nacc.val + count) / 8 ∧ (count = 0 → w' = w)) ∧
    (16 < count → exec (.writeBits value count) s = .refused .badCount)

/-- R92: the barrel-shifter form equals the loop of R91 for every state and operand. The unwritten bits of `acc` are
zero in every state of the hardware (R22): that invariant is the premise. -/
def Obligations.BarrelWriterEqualsTheLoop : Prop :=
  ∀ (w : Writer) (value count : Nat), w.Inv → w.writeBitsBarrel value count = w.writeBits value count

/-- R93: `WRITEBYTE(b)` is `WRITEBITS(b, 8)`. It completes exactly one byte, `acc | (b >> nacc)`, and leaves
`acc = (b << (8 - nacc)) & 0xFF` and `nacc` unchanged; on a byte-aligned writer the byte is `b` itself. -/
def Obligations.WriteByteCompletesOneByte : Prop :=
  (∀ p : Ports, decodeHost { op := 0xA, ports := p } = .writeByte p.byte) ∧
  ∀ (s : State) (b : Byte), exec (.writeByte b) s = exec (.writeBits (b.zeroExtend 16) 8) s ∧
    ∀ w, s.inst? = some (.bw w) →
      exec (.writeByte b) s =
        .next (s.answer (.bw { wbuf := w.wbuf ++ [w.acc ||| (b >>> w.nacc.val)]
                               acc := b <<< (8 - w.nacc.val)
                               nacc := w.nacc }) .none) ∧
      (w.Inv → w.nacc = 0 → w.acc ||| (b >>> w.nacc.val) = b)

/-- R94, R95: `FLUSH` pads the content with zero bits to whole bytes, returns the buffer and keeps it; the writer is
byte-aligned afterwards, and a second `FLUSH` returns the same bytes and changes nothing. -/
def Obligations.FlushPadsAndReturnsTheBuffer : Prop :=
  ∀ (s : State) (w : Writer), s.inst? = some (.bw w) → w.Inv →
    ∃ w', exec .flush s = .next (s.answer (.bw w') (.bytes w'.wbuf)) ∧
      w'.wbuf = bitsToBytes (padTo8 w.wbits) ∧ w'.wbits = padTo8 w.wbits ∧ w'.acc = 0 ∧ w'.nacc = 0 ∧
      exec .flush (s.answer (.bw w') (.bytes w'.wbuf)) = .next (s.answer (.bw w') (.bytes w'.wbuf))

/-- R96: two writes leave the state of one write of the joined value; a sequence of writes from reset followed by
`FLUSH` returns the padded concatenation of the fields. -/
def Obligations.WritesConcatenate : Prop :=
  (∀ (w : Writer) (v1 c1 v2 c2 : Nat),
    (w.writeBits v1 c1).writeBits v2 c2 =
      w.writeBits (((v1 &&& (2 ^ c1 - 1)) <<< c2) ||| (v2 &&& (2 ^ c2 - 1))) (c1 + c2)) ∧
  (∀ fields : List (Nat × Nat),
    (Writer.fresh.writeAll fields).flushed.wbuf =
      bitsToBytes (padTo8 (fields.flatMap fun f => bitsMSB f.1 f.2)))

/-! ### The bit reader -/

/-- R105: `BR.RESET` makes a fresh reader, with nothing to read. -/
def Obligations.BrResetMakesAFreshReader : Prop :=
  (∀ p : Ports, decodeHost { op := 0xC, ports := p } = .brReset) ∧
  ∀ (s : State) (r : Reader), s.inst? = some (.br r) →
    exec .brReset s = .next (s.answer (.br { stream := [], rpos := 0 }) .none) ∧ Reader.fresh.avail = 0

/-- R106: `FEED` adds the chunk at the end of the stream and the cursor does not move; feeding two chunks is feeding
their concatenation; an empty chunk changes nothing; a finite capacity refuses a chunk that does not fit. -/
def Obligations.FeedAppendsTheChunk : Prop :=
  (∀ p : Ports, decodeHost { op := 0xD, ports := p } = .feed p.bytes) ∧
  ∀ (s : State) (r : Reader) (c1 c2 : Buffer), s.inst? = some (.br r) →
    exec (.feed c1) s = .next (s.answer (.br { stream := r.stream ++ c1, rpos := r.rpos }) .none) ∧
    (r.Inv → (r.feed c1).avail = r.avail + 8 * c1.length) ∧
    r.feed [] = r ∧ (r.feed c1).feed c2 = r.feed (c1 ++ c2) ∧
    ∀ (c : Caps) (n : Nat), c.streamCap = some n → n < r.stream.length + c1.length →
      feedWithin c c1 s = .refused .capacityExceeded

/-- R107: `READBITS` answers the number that the next `count` bits stand for and moves the cursor past them;
with fewer bits left it answers `Exhausted` and consumes nothing; a count above `CNT_MAX` is refused. -/
def Obligations.ReadBitsAnswersTheNextBits : Prop :=
  (∀ p : Ports, decodeHost { op := 0xE, ports := p } = .readBits p.count) ∧
  ∀ (s : State) (r : Reader) (count : Nat), s.inst? = some (.br r) →
    (count ≤ 16 → count ≤ r.avail →
      exec (.readBits count) s =
        .next (s.answer (.br { stream := r.stream, rpos := r.rpos + count })
          (.value (valMSB (((bytesToBits r.stream).drop r.rpos).take count))))) ∧
    (count ≤ 16 → r.avail < count → exec (.readBits count) s = .next (s.answer (.br r) .exhausted)) ∧
    (16 < count → exec (.readBits count) s = .refused .badCount)

/-- R108: the same call succeeds later, once enough bytes have been fed, and reads from where it stood. -/
def Obligations.ExhaustedReadSucceedsOnceFed : Prop :=
  ∀ (s : State) (r : Reader) (count : Nat) (chunk : Buffer), s.inst? = some (.br r) → r.Inv → count ≤ 16 →
    r.avail < count → count ≤ r.avail + 8 * chunk.length →
    ∃ t u, exec (.readBits count) s = .next t ∧ t.response = .exhausted ∧ t.insts = s.insts ∧
      exec (.feed chunk) t = .next u ∧
      exec (.readBits count) u =
        .next (u.answer (.br { stream := r.stream ++ chunk, rpos := r.rpos + count })
          (.value (valMSB (((bytesToBits (r.stream ++ chunk)).drop r.rpos).take count))))

/-- R109: the barrel-shifter form of a read that succeeds equals the loop of R107, and every byte of its window is
below the end of the stream; for `count = 0` the result is 0 and nothing is read. -/
def Obligations.BarrelReaderEqualsTheLoop : Prop :=
  ∀ (r : Reader) (count : Nat),
    (1 ≤ count → count ≤ r.avail →
      r.readBits count = some (r.barrelValue count, { stream := r.stream, rpos := r.rpos + count }) ∧
      r.rpos / 8 + (r.rpos % 8 + count + 7) / 8 ≤ r.stream.length) ∧
    r.readBits 0 = some (0, r)

/-- R110: a field read, in one part or two, answers what one read of its width would return, is not `Exhausted`, and
moves the cursor by its width. -/
def Obligations.FieldReadIsOneRead : Prop :=
  ∀ (r : Reader) (w : Nat), w ≤ r.avail →
    r.readField w = r.readBits w ∧
    ∃ v, r.readField w = some (v, { stream := r.stream, rpos := r.rpos + w })

/-- R111: reader and writer are inverse. What a fresh writer writes and flushes, a fresh reader fed with it reads
back, field by field; the bits left are the padding, 0 to 7 of them, all zero. -/
def Obligations.ReaderInvertsWriter : Prop :=
  ∀ fields : List (Nat × Nat),
    let fed := Reader.fresh.feed (Writer.fresh.writeAll fields).flushed.wbuf
    ∃ r, fed.readAll (fields.map Prod.snd) = some (fields.map fun f => f.1 &&& (2 ^ f.2 - 1), r) ∧
      r.avail = (8 - (fields.map Prod.snd).sum % 8) % 8 ∧ r.unread = List.replicate r.avail false

/-! ### Construction and status -/

/-- R120, R176: `ENC.CONFIG` with a legal pair makes a fresh, configured encoder and answers ok; with any other it
leaves the power-on state with the fault recorded and answers `ConfigError` with the violation mask, which is not 0.
`W` and `L` are then not written (10_state.md R36; log entry 6). -/
def Obligations.EncConfigConstructsOrFaults : Prop :=
  ∀ (s : State) (e : Encoder) (w l : Nat), s.inst? = some (.enc e) →
    (legalParams w l = true →
      exec (.encConfig w l) s =
        .next (s.answer (.enc { Encoder.powerOn with
          ctl := { w := BitVec.ofNat 4 w, l := BitVec.ofNat 4 l, configured := true, fault := false, cause := .none,
                   info := .zero } }) .ok)) ∧
    (legalParams w l = false → configMask w l ≠ 0 ∧
      exec (.encConfig w l) s =
        .next (s.answer (.enc { Encoder.powerOn with
          ctl := { w := e.ctl.w, l := e.ctl.l, configured := false, fault := true, cause := .configError,
                   info := .mask (configMask w l) } }) (.configError (configMask w l))))

/-- R145, R176: `DEC.CONFIG`, the same for a decoder; `hint` is stored when validation passes. After a failed one
`cap_hint` may hold anything, and the count of free values drawn is the model's own (log entry 2). -/
def Obligations.DecConfigConstructsOrFaults : Prop :=
  ∀ (s : State) (d : Decoder) (w l hint : Nat), s.inst? = some (.dec d) →
    (legalParams w l = true → ∃ n,
      exec (.decConfig w l hint) s =
        .next (s.answer (.dec { Decoder.powerOn with
          ctl := { w := BitVec.ofNat 4 w, l := BitVec.ofNat 4 l, configured := true, fault := false, cause := .none,
                   info := .zero }
          capHint := hint
          freeDraws := n }) .ok)) ∧
    (legalParams w l = false → configMask w l ≠ 0 ∧ ∃ h n,
      exec (.decConfig w l hint) s =
        .next (s.answer (.dec { Decoder.powerOn with
          ctl := { w := d.ctl.w, l := d.ctl.l, configured := false, fault := true, cause := .configError,
                   info := .mask (configMask w l) }
          capHint := h
          freeDraws := n }) (.configError (configMask w l))))

/-- R176: all three checks are made and every violation is reported: bit 0 when `W'` is outside 4 to 15, bit 1 when
`L'` is 0, bit 2 when `L'` is not below `W'`; the mask is 0 exactly for a legal pair. -/
def Obligations.ViolationMaskReportsEveryCheck : Prop :=
  ∀ w l : Nat,
    (configMask w l).getLsbD 0 = decide (w < 4 ∨ 15 < w) ∧ (configMask w l).getLsbD 1 = decide (l = 0) ∧
    (configMask w l).getLsbD 2 = decide (w ≤ l) ∧ (configMask w l = 0 ↔ legalParams w l = true)

/-- R39, R156: `STATUS` answers the registers `STATUS`, `CAUSE`, `INFO` of an `ENC` or a `DEC`, in every state of the
instance, and changes no state. `configured` is bit 0, `fault` bit 1, `dstate` bits 3:2, `starved` bit 4; the other bits
are 0, and on an `ENC` `dstate` and `starved` are. -/
def Obligations.StatusAnswersTheRegisters : Prop :=
  (∀ p : Ports, decodeHost { op := 0x0, ports := p } = .status) ∧
  (∀ (s : State) (e : Encoder), s.inst? = some (.enc e) → ∃ t word, exec .status s = .next t ∧
    t.insts = s.insts ∧ t.response = .status word e.ctl.cause e.ctl.info ∧
    word.toNat = e.ctl.configured.toNat + 2 * e.ctl.fault.toNat) ∧
  (∀ (s : State) (d : Decoder), s.inst? = some (.dec d) → ∃ t word, exec .status s = .next t ∧
    t.insts = s.insts ∧ t.response = .status word d.ctl.cause d.ctl.info ∧
    word.toNat = d.ctl.configured.toNat + 2 * d.ctl.fault.toNat +
      4 * (match d.dstate with | .awaitTag => 0 | .literal => 1 | .backRef => 2) + 16 * d.starved.toNat)

/-! ### The encoder -/

/-- R121, R131, R133: on a configured, unfaulted encoder `COMPRESS` answers the flushed buffer for every input; the
input is loaded, `pos` has reached its end, `W`, `L` and the status registers are as before. The empty input gives the
empty sequence. -/
def Obligations.CompressAnswersTheFlushedBuffer : Prop :=
  ∀ (s : State) (e : Encoder) (input : Buffer), s.inst? = some (.enc e) → e.ctl.Ready →
    ∃ e', exec (.compress input) s = .next (s.answer (.enc e') (.bytes e'.bw.wbuf)) ∧
      e'.ctl = e.ctl ∧ e'.input = input ∧ e'.pos = input.length ∧ e'.bw.acc = 0 ∧ e'.bw.nacc = 0 ∧
      (input = [] → e'.bw.wbuf = [])

/-- R79: the bytes of `COMPRESS` are the padded concatenation of the bit sequences of the tokens its passes emit, in
order, with nothing after the padding; the stream of zero tokens is the empty byte sequence. -/
def Obligations.CompressedBytesAreTheTokens : Prop :=
  ∀ (s t : State) (e : Encoder) (input : Buffer), s.inst? = some (.enc e) → exec (.compress input) s = .next t →
    t.response = .bytes (bitsToBytes (padTo8
      ((e.tokens input).flatMap (tokenBits e.ctl.w.toNat e.ctl.l.toNat)))) ∧
    (e.tokens input = [] → t.response = .bytes []) ∧ (input = [] → e.tokens input = [])

/-- R80: a stream of `nl` literals and `nb` back-references has `ceil((9 nl + (1 + W + L) nb) / 8)` bytes, and its
padding is the rest of the last one. -/
def Obligations.StreamSizeCountsItsTokens : Prop :=
  ∀ (e : Encoder) (input : Buffer),
    let bits := 9 * (e.tokens input).countP isLiteralToken +
      (1 + e.ctl.w.toNat + e.ctl.l.toNat) * (e.tokens input).countP (fun i => !isLiteralToken i)
    (e.compressed input).bw.wbuf.length = (bits + 7) / 8 ∧
      8 * (e.compressed input).bw.wbuf.length = bits + (8 - bits % 8) % 8

/-- R125: `SEARCH` is the comparator array. `best_len` is the greatest lane length over the window's distances, 0 when
there is none; `best_off` is the greatest distance with that length, 0 when the length is 0. -/
def Obligations.SearchIsTheComparatorArray : Prop :=
  ∀ e : Encoder, e.pos < e.input.length →
    let far := min e.pos (2 ^ e.ctl.w.toNat)
    let lane := fun d => candLen e.input e.pos d (maxMatchAt e.ctl.l.toNat e.pos e.input.length)
    (∀ d, 1 ≤ d → d ≤ far → lane d ≤ e.search.bestLen) ∧
    (e.search.bestLen = 0 → e.search.bestOff = 0) ∧
    (1 ≤ e.search.bestLen →
      1 ≤ e.search.bestOff ∧ e.search.bestOff ≤ far ∧ lane e.search.bestOff = e.search.bestLen ∧
      ∀ d, e.search.bestOff < d → d ≤ far → lane d < e.search.bestLen)

/-- R135, R122: the bounds of every pass. -/
def Obligations.SearchResultsAreInBounds : Prop :=
  ∀ e : Encoder, e.pos < e.input.length →
    e.search.bestOff ≤ min e.pos (2 ^ e.ctl.w.toNat) ∧
    e.search.bestLen ≤ min (2 ^ e.ctl.l.toNat) (e.input.length - e.pos) ∧
    e.search.bestLen ≤ e.search.maxMatch ∧ (e.pos = 0 → e.search.bestLen = 0) ∧
    (e.pos + 1 = e.input.length → e.search.bestLen ≤ 1)

/-- R121, R127, R139: every token `COMPRESS` emits is the one its `SEARCH` decides. The `k`-th token begins at `pos`,
the sum of the lengths of those before it (so `pos` advances by `best_len` or by 1); with `best_len` and `best_off` as
`SEARCH` leaves them there, it is `BACKREF(best_off - 1, best_len - 1)` when `best_len >= 2` and `LITERAL(IN[pos])`
otherwise. R128, R135: it fits its fields, a back-reference is 2 or longer, the first token is a literal of the first
byte, and the lengths add up to the input. -/
def Obligations.EmittedTokensAreWellFormed : Prop :=
  ∀ (e : Encoder) (input : Buffer), legalParams e.ctl.w.toNat e.ctl.l.toNat = true →
    (∀ k < (e.tokens input).length,
      let pos := tokenStart (e.tokens input) k
      let found := { e.load input with pos := pos }.search
      ∃ b, memRead input pos = some b ∧
        (e.tokens input)[k]? =
          some (if 2 ≤ found.bestLen then .backref (found.bestOff - 1) (found.bestLen - 1) else .literal b)) ∧
    (∀ i ∈ e.tokens input, i.wellFormed e.ctl.w.toNat e.ctl.l.toNat = true ∧
      ((∃ b, i = .literal b) ∨ ∃ o n, i = .backref o n ∧ 1 ≤ n)) ∧
    (∀ b rest, input = b :: rest → (e.tokens input).head? = some (.literal b)) ∧
    tokenStart (e.tokens input) (e.tokens input).length = input.length

/-- R132: `COMPRESS` reads only its input, `W` and `L`: two encoders with the same parameters answer the same
bytes, whatever they did before. Two with the same control registers are left the same too: nothing of an earlier call
stays, scratch registers included (10_state.md R31). -/
def Obligations.CompressDependsOnInputAndParametersOnly : Prop :=
  ∀ (s s' t t' : State) (e e' : Encoder) (input : Buffer), s.inst? = some (.enc e) → s'.inst? = some (.enc e') →
    e.ctl.w = e'.ctl.w → e.ctl.l = e'.ctl.l →
    exec (.compress input) s = .next t → exec (.compress input) s' = .next t' →
    t.response = t'.response ∧ (e.ctl = e'.ctl → t.inst? = t'.inst?)

/-- R138: when no position has an earlier one in its window with the same two bytes, every `SEARCH` ends with
`best_len <= 1` and the stream is one literal a byte, `ceil(9 n / 8)` bytes. -/
def Obligations.NoRepeatedPairGivesLiteralsOnly : Prop :=
  ∀ (e : Encoder) (input : Buffer),
    (∀ pos i, 1 ≤ pos → pos < input.length → i < pos → pos ≤ i + 2 ^ e.ctl.w.toNat →
      ¬(memRead input i = memRead input pos ∧ memRead input (i + 1) = memRead input (pos + 1))) →
    (∀ pos < input.length, { e.load input with pos := pos }.search.bestLen ≤ 1) ∧
    e.tokens input = input.map .literal ∧ (e.compressed input).bw.wbuf.length = (9 * input.length + 7) / 8

/-! ### The decoder -/

/-- R148, R149, R153: a `LITERAL` token on a ready decoder. With its bits there the byte is appended, `rpos` is past it
(9 bits with its tag, 8 without) and the FSM awaits a tag; with too few, the tag alone is consumed if it is there, and
otherwise nothing. -/
def Obligations.LiteralTokenAppendsItsByte : Prop :=
  ∀ (s : State) (d : Decoder) (b : Byte), s.inst? = some (.dec d) → d.ctl.Ready →
    (d.dstate = .awaitTag → 9 ≤ d.br.avail →
      exec (.literal b) s = .next (s.put (.dec { d with
        br := { stream := d.br.stream, rpos := d.br.rpos + 9 }
        out := d.out ++ [b] }))) ∧
    (d.dstate = .literal → 8 ≤ d.br.avail →
      exec (.literal b) s = .next (s.put (.dec { d with
        br := { stream := d.br.stream, rpos := d.br.rpos + 8 }
        out := d.out ++ [b]
        dstate := .awaitTag }))) ∧
    (d.dstate = .awaitTag → 1 ≤ d.br.avail → d.br.avail < 9 →
      exec (.literal b) s = .next (s.put (.dec { d with
        br := { stream := d.br.stream, rpos := d.br.rpos + 1 }
        dstate := .literal }))) ∧
    (d.dstate = .awaitTag → d.br.avail = 0 → exec (.literal b) s = .next (s.put (.dec d))) ∧
    (d.dstate = .literal → d.br.avail < 8 → exec (.literal b) s = .next (s.put (.dec d)))

/-- R150, R151, R64: a `BACKREF` token whose offset is within the output appends `length` bytes, byte `k` of them the
one at `base + k mod offset` of the output before: the last `offset` bytes repeated to that length. From a tag boundary
and from past the tag. That `tok_off` and `tok_len` keep the token's values is the model's choice (log entry 20). -/
def Obligations.BackrefTokenRepeatsTheOutput : Prop :=
  ∀ (s : State) (d : Decoder) (o n : Nat), s.inst? = some (.dec d) → d.ctl.Ready → o + 1 ≤ d.out.length →
    let copied := (List.range (n + 1)).map fun k => d.out.getD (d.out.length - (o + 1) + k % (o + 1)) 0
    let width := d.ctl.w.toNat + d.ctl.l.toNat
    (d.dstate = .awaitTag → 1 + width ≤ d.br.avail →
      exec (.backref o n) s = .next (s.put (.dec { d with
        br := { stream := d.br.stream, rpos := d.br.rpos + (1 + width) }
        out := d.out ++ copied
        tokOff := o + 1
        tokLen := n + 1 }))) ∧
    (d.dstate = .backRef → width ≤ d.br.avail →
      exec (.backref o n) s = .next (s.put (.dec { d with
        br := { stream := d.br.stream, rpos := d.br.rpos + width }
        out := d.out ++ copied
        dstate := .awaitTag
        tokOff := o + 1
        tokLen := n + 1 })))

/-- R152, R177, R182: a `BACKREF` token whose offset exceeds the output length raises `Corrupt`: the fault is recorded
and is the response, `OUT` is as before, `rpos` is past the token, `dstate` stays `BackRef`, `starved` is 0. That
`tok_off` and `tok_len` keep the token's values is the model's choice (log entry 20). -/
def Obligations.BackrefBeyondTheOutputIsCorrupt : Prop :=
  ∀ (s : State) (d : Decoder) (o n : Nat), s.inst? = some (.dec d) → d.ctl.Ready → d.out.length < o + 1 →
    let width := d.ctl.w.toNat + d.ctl.l.toNat
    let corrupt := fun rpos : Nat => { d with
      ctl := { d.ctl with fault := true, cause := .corrupt, info := .corrupt (o + 1) d.out.length }
      br := { stream := d.br.stream, rpos := rpos }
      dstate := .backRef
      starved := false
      tokOff := o + 1
      tokLen := n + 1 }
    (d.dstate = .awaitTag → 1 + width ≤ d.br.avail →
      exec (.backref o n) s =
        .next (s.answer (.dec (corrupt (d.br.rpos + (1 + width)))) (.corrupt (o + 1) d.out.length))) ∧
    (d.dstate = .backRef → width ≤ d.br.avail →
      exec (.backref o n) s =
        .next (s.answer (.dec (corrupt (d.br.rpos + width))) (.corrupt (o + 1) d.out.length)))

/-- R153, R154: a `BACKREF` token whose fields have not all arrived consumes neither, whatever its offset; the tag alone
is consumed if it is there. -/
def Obligations.IncompleteBackrefConsumesNoField : Prop :=
  ∀ (s : State) (d : Decoder) (o n : Nat), s.inst? = some (.dec d) → d.ctl.Ready →
    let width := d.ctl.w.toNat + d.ctl.l.toNat
    (d.dstate = .awaitTag → 1 ≤ d.br.avail → d.br.avail < 1 + width →
      exec (.backref o n) s = .next (s.put (.dec { d with
        br := { stream := d.br.stream, rpos := d.br.rpos + 1 }
        dstate := .backRef }))) ∧
    (d.dstate = .awaitTag → d.br.avail = 0 → exec (.backref o n) s = .next (s.put (.dec d))) ∧
    (d.dstate = .backRef → d.br.avail < width → exec (.backref o n) s = .next (s.put (.dec d)))

/-- The token that stands at a decoder's program counter is what its FSM executes there (43_decoder.md R147 to R150;
30_encoding.md R77): the meaning of the decoded token is the steps `STEP.TAG`, `STEP.LIT`, `STEP.BREF`. -/
def Obligations.FsmExecutesTheDecodedToken : Prop :=
  ∀ (s : State) (d : Decoder) (i : Instr) (rest : BitSeq), s.inst? = some (.dec d) → d.ctl.Ready →
    decodeToken d.ctl.w.toNat d.ctl.l.toNat d.tokenBitsAt = .ok (i, rest) →
    exec i s = s.endToken Config.caps d.fsmToken ∧
    ∃ d', (d.fsmToken = .ran d' ∨ d.fsmToken = .corrupt d') ∧ d'.br.unread = rest

/-- R146: `PROCESS` is `FEED`, then steps of the FSM until one suspends or raises. Said without the model's bound on
the number of steps: a step that runs may be taken first, one that suspends ends it with `starved` written, one that
raises ends it. -/
def Obligations.ProcessRunsStepsUntilOneEnds : Prop :=
  ∀ (d : Decoder) (chunk : Buffer),
    d.processed chunk = { d with br := d.br.feed chunk }.processed [] ∧
    (legalParams d.ctl.w.toNat d.ctl.l.toNat = true →
      ∀ d', d.fsmStep = .ran d' → d.processed [] = d'.processed []) ∧
    (∀ d', d.fsmStep = .suspended d' → d' = d ∧ d.processed [] = { d with starved := d.starvedNow }) ∧
    (∀ d', d.fsmStep = .corrupt d' → d.processed [] = d')

/-- R146, R152, R153, R162: on a ready decoder with a legal pair `PROCESS` answers for every chunk, with the decoder
`d.processed chunk` that the statements about the FSM speak of: ok with the FSM suspended, or the fault `Corrupt` with
its record. The chunk is at the end of `STREAM`, the output only grows, the
cursor does not go back and stays inside the stream, the parameters and `cap_hint` are as before. That after a
`Corrupt` the register `tok_off` still holds the offset recorded in `INFO` is the model's choice (log entry 20), not
R152's: 10_state.md R34 has it hold nothing between steps. -/
def Obligations.ProcessAnswersOkOrCorrupt : Prop :=
  ∀ (s : State) (d : Decoder) (chunk : Buffer), s.inst? = some (.dec d) → d.ctl.Ready →
    legalParams d.ctl.w.toNat d.ctl.l.toNat = true → d.br.Inv →
    let d' := d.processed chunk
    let r := d'.processResponse
    exec (.process chunk) s = .next (s.answer (.dec d') r) ∧
      d'.br.stream = d.br.stream ++ chunk ∧ d.out <+: d'.out ∧ d.br.rpos ≤ d'.br.rpos ∧ d'.br.Inv ∧
      d'.ctl.w = d.ctl.w ∧ d'.ctl.l = d.ctl.l ∧ d'.ctl.configured = true ∧ d'.capHint = d.capHint ∧
      ((r = .ok ∧ d'.ctl = d.ctl ∧ d'.fsmStep = .suspended d' ∧ d'.starved = decide (d'.dstate ≠ .awaitTag)) ∨
       (r = .corrupt d'.tokOff d'.out.length ∧ d'.out.length < d'.tokOff ∧ d'.dstate = .backRef ∧ d'.starved = false ∧
        d'.ctl = { d.ctl with fault := true, cause := .corrupt, info := .corrupt d'.tokOff d'.out.length }))

/-- R158: chunking does not matter. Two `PROCESS` end as one of the concatenation; when the first alone raises
`Corrupt`, the second is refused and only `STREAM` differs. -/
def Obligations.ChunkingDoesNotMatter : Prop :=
  ∀ (s t u : State) (d : Decoder) (c1 c2 : Buffer), s.inst? = some (.dec d) → d.ctl.Ready →
    legalParams d.ctl.w.toNat d.ctl.l.toNat = true →
    exec (.process c1) s = .next t → exec (.process (c1 ++ c2)) s = .next u →
    (t.response = .ok → exec (.process c2) t = .next u) ∧
    (t.response ≠ .ok → (∃ r, exec (.process c2) t = .refused r) ∧ t.response = u.response ∧
      ∃ d', t.inst? = some (.dec d') ∧
        u.inst? = some (.dec { d' with br := { d'.br with stream := d'.br.stream ++ c2 } }))

/-- R155: `GETOUTPUT` answers all bytes decoded so far, in every state of the instance, and changes no state. -/
def Obligations.GetOutputReadsTheOutput : Prop :=
  ∀ (s : State) (d : Decoder), s.inst? = some (.dec d) →
    exec .getOutput s = .next (s.answer (.dec d) (.bytes d.out)) ∧ (s.answer (.dec d) (.bytes d.out)).insts = s.insts

/-! ### Encoder and decoder together -/

/-- R159: the round trip. An encoder and a decoder are constructed at a legal pair, the encoder compresses `b`, the
decoder is fed the bytes answered, whole or in any chunks: no operation stops, no fault arises, the output begins with
`b`, and it is `b` unless the padding forms a spurious token, that is unless its `p` bits hold a whole back-reference,
`1 + W + L <= p`; then it is `b` with its last byte once more. -/
def Obligations.DecoderRecoversWhatWasCompressed : Prop :=
  ∀ (s : State) (ke kd : Nat) (e : Encoder) (d : Decoder) (w l hint : Nat) (b : Buffer),
    s.insts[ke]? = some (.enc e) → s.insts[kd]? = some (.dec d) → legalParams w l = true →
    let bits := ((((e.configure w l).1).tokens b).flatMap (tokenBits w l)).length
    let p := (8 - bits % 8) % 8
    ∃ s1 s2 s3 bs, exec (.encConfig w l) { s with cur := ke } = .next s1 ∧ exec (.compress b) s1 = .next s2 ∧
      s2.response = .bytes bs ∧ exec (.decConfig w l hint) { s2 with cur := kd } = .next s3 ∧
      ∀ chunks : List Buffer, chunks.flatten = bs →
        ∃ s4 d4, processAll chunks s3 = .next s4 ∧ s4.inst? = some (.dec d4) ∧ d4.ctl.fault = false ∧
          exec .getOutput s4 = .next (s4.answer (.dec d4) (.bytes d4.out)) ∧
          (p < 1 + w + l → d4.out = b) ∧
          (1 + w + l ≤ p → ∃ x, b.getLast? = some x ∧ d4.out = b ++ [x])

/-- R160: what the padding does. With `p` padding bits and `T = 1 + W + L`: `p = 0` leaves the decoder awaiting a tag
with nothing unread; `1 <= p < T` leaves it in `BackRef`, starved, with `p - 1` bits unread; `p >= T` executes one
spurious back-reference, which repeats the last byte, and leaves it awaiting a tag, or in `BackRef` when one more bit
was there. It never ends in state `Literal`. -/
def Obligations.PaddingOutcome : Prop :=
  ∀ (e : Encoder) (d : Decoder) (w l hint free : Nat) (b : Buffer), legalParams w l = true →
    let enc := (e.configure w l).1
    let dec := ((d.configure w l hint free).1).processed (enc.compressed b).bw.wbuf
    let bits := ((enc.tokens b).flatMap (tokenBits w l)).length
    let p := (8 - bits % 8) % 8
    dec.dstate ≠ .literal ∧ dec.ctl.fault = false ∧
    (p = 0 → dec.dstate = .awaitTag ∧ dec.br.avail = 0 ∧ dec.out = b) ∧
    (1 ≤ p → p < 1 + w + l → dec.dstate = .backRef ∧ dec.br.avail = p - 1 ∧ dec.starved = true ∧ dec.out = b) ∧
    (1 + w + l ≤ p → (∃ x, b.getLast? = some x ∧ dec.out = b ++ [x]) ∧ dec.br.avail = 0 ∧
      (p = 1 + w + l → dec.dstate = .awaitTag) ∧ (1 + w + l < p → dec.dstate = .backRef))
end

