-- ==== Sys2Proof/Laws/Bits.lean ====
section
/-! SUPPORT. Bit sequences and numbers are two views of one thing: lengths, values, and the inverses. -/

namespace Sys2Proof

@[simp] theorem bitsMSB_zero (v : Nat) : bitsMSB v 0 = [] := rfl

theorem bitsMSB_succ (v n : Nat) : bitsMSB v (n + 1) = v.testBit n :: bitsMSB v n := rfl

@[simp] theorem bitsMSB_length (v n : Nat) : (bitsMSB v n).length = n := by
  induction n with
  | zero => rfl
  | succ n ih => simp [bitsMSB_succ, ih]

/-- A sequence of bits with one more at the end, as a number. -/
theorem valMSB_concat (bs : BitSeq) (b : Bool) : valMSB (bs ++ [b]) = 2 * valMSB bs + b.toNat := by
  simp [valMSB, List.foldl_append]

theorem valMSB_foldl (bs : BitSeq) (v : Nat) :
    bs.foldl (fun v b => 2 * v + b.toNat) v = v * 2 ^ bs.length + valMSB bs := by
  induction bs generalizing v with
  | nil => simp [valMSB]
  | cons b bs ih =>
    have h0 : valMSB (b :: bs) = b.toNat * 2 ^ bs.length + valMSB bs := by
      have h := ih b.toNat
      rw [← h]; simp [valMSB]
    rw [List.foldl_cons, ih, List.length_cons, h0]
    ring

/-- The first bit of a sequence weighs the most. -/
theorem valMSB_cons (b : Bool) (bs : BitSeq) :
    valMSB (b :: bs) = b.toNat * 2 ^ bs.length + valMSB bs := by
  have h := valMSB_foldl bs b.toNat
  simpa [valMSB] using h

theorem valMSB_append (as bs : BitSeq) : valMSB (as ++ bs) = valMSB as * 2 ^ bs.length + valMSB bs := by
  have h := valMSB_foldl bs (valMSB as)
  simpa [valMSB, List.foldl_append] using h

theorem valMSB_lt (bs : BitSeq) : valMSB bs < 2 ^ bs.length := by
  induction bs with
  | nil => simp [valMSB]
  | cons b bs ih =>
    rw [valMSB_cons, List.length_cons, Nat.pow_succ]
    have hb : b.toNat ≤ 1 := Bool.toNat_le b
    have : b.toNat * 2 ^ bs.length ≤ 1 * 2 ^ bs.length := Nat.mul_le_mul_right _ hb
    omega

/-- The bits of a number give its low bits back. -/
theorem valMSB_bitsMSB (v n : Nat) : valMSB (bitsMSB v n) = v % 2 ^ n := by
  induction n with
  | zero => simp [valMSB, Nat.mod_one]
  | succ n ih =>
    rw [bitsMSB_succ, valMSB_cons, bitsMSB_length, ih, Nat.pow_succ, Nat.mod_mul]
    have h : (v.testBit n).toNat = v / 2 ^ n % 2 := Nat.toNat_testBit v n
    rw [h]; ring

/-- Only the low bits count. -/
theorem bitsMSB_mod (v n : Nat) : bitsMSB (v % 2 ^ n) n = bitsMSB v n := by
  suffices h : ∀ k, k ≤ n → bitsMSB (v % 2 ^ n) k = bitsMSB v k from h n le_rfl
  intro k
  induction k with
  | zero => intro; rfl
  | succ k ih =>
    intro hk
    rw [bitsMSB_succ, bitsMSB_succ, ih (by omega), Nat.testBit_mod_two_pow]
    simp [show k < n from hk]

/-- The digits of the number a sequence stands for are the sequence. -/
theorem bitsMSB_valMSB (bs : BitSeq) : bitsMSB (valMSB bs) bs.length = bs := by
  induction bs with
  | nil => rfl
  | cons b bs ih =>
    have hlt := valMSB_lt bs
    rw [List.length_cons, bitsMSB_succ, valMSB_cons]
    congr 1
    · rw [Nat.testBit_eq_decide_div_mod_eq]
      have h1 : (b.toNat * 2 ^ bs.length + valMSB bs) / 2 ^ bs.length = b.toNat := by
        rw [Nat.add_comm, Nat.add_mul_div_right _ _ (Nat.two_pow_pos _), Nat.div_eq_of_lt hlt]; simp
      rw [h1]; cases b <;> rfl
    · rw [← bitsMSB_mod, Nat.add_comm, Nat.add_mul_mod_self_right, Nat.mod_eq_of_lt hlt, ih]

/-- The bits of a number, split after the first `n`. -/
theorem bitsMSB_add (v n m : Nat) : bitsMSB v (n + m) = bitsMSB (v >>> m) n ++ bitsMSB v m := by
  induction n with
  | zero => simp
  | succ n ih =>
    rw [Nat.succ_add, bitsMSB_succ, bitsMSB_succ, ih, Nat.testBit_shiftRight]
    simp [Nat.add_comm]

@[simp] theorem bytesToBits_nil : bytesToBits [] = [] := rfl

theorem bytesToBits_cons (b : Byte) (buf : Buffer) :
    bytesToBits (b :: buf) = bitsMSB b.toNat 8 ++ bytesToBits buf := rfl

theorem bytesToBits_append (as bs : Buffer) : bytesToBits (as ++ bs) = bytesToBits as ++ bytesToBits bs := by
  simp [bytesToBits]

@[simp] theorem bytesToBits_length (buf : Buffer) : (bytesToBits buf).length = 8 * buf.length := by
  induction buf with
  | nil => rfl
  | cons b buf ih => rw [bytesToBits_cons, List.length_append, ih]; simp; omega

/-- Eight bits are one byte. -/
theorem bitsToBytes_byte (b : Byte) (rest : BitSeq) :
    bitsToBytes (bitsMSB b.toNat 8 ++ rest) = b :: bitsToBytes rest := by
  have h : BitVec.ofNat 8 (valMSB (bitsMSB b.toNat 8)) = b := by
    rw [valMSB_bitsMSB]
    apply BitVec.eq_of_toNat_eq
    simpa using b.isLt
  conv_rhs => rw [← h]
  rfl

/-- A buffer is given back by its bits. -/
theorem bitsToBytes_bytesToBits (buf : Buffer) : bitsToBytes (bytesToBits buf) = buf := by
  induction buf with
  | nil => rfl
  | cons b buf ih => rw [bytesToBits_cons, bitsToBytes_byte, ih]

/-- A sequence of whole bytes is given back by its bytes. -/
theorem bytesToBits_bitsToBytes : ∀ (bs : BitSeq), bs.length % 8 = 0 → bytesToBits (bitsToBytes bs) = bs
  | a :: b :: c :: d :: e :: f :: g :: h :: rest, hl => by
    have ih := bytesToBits_bitsToBytes rest (by simp at hl; omega)
    have hlt := valMSB_lt [a, b, c, d, e, f, g, h]
    have hb := bitsMSB_valMSB [a, b, c, d, e, f, g, h]
    simp only [bitsToBytes, bytesToBits_cons, ih, BitVec.toNat_ofNat]
    rw [Nat.mod_eq_of_lt (by simpa using hlt)]
    simpa using congrArg (· ++ rest) hb
  | [], _ => rfl
  | [_], hl => by simp at hl
  | [_, _], hl => by simp at hl
  | [_, _, _], hl => by simp at hl
  | [_, _, _, _], hl => by simp at hl
  | [_, _, _, _, _], hl => by simp at hl
  | [_, _, _, _, _, _], hl => by simp at hl
  | [_, _, _, _, _, _, _], hl => by simp at hl

/-- Padding ends on a byte. -/
theorem padTo8_length (bs : BitSeq) : (padTo8 bs).length = 8 * ((bs.length + 7) / 8) := by
  simp only [padTo8, List.length_append, List.length_replicate]; omega

/-- Padding what ends on a byte adds nothing. -/
theorem padTo8_of_whole (bs : BitSeq) (h : bs.length % 8 = 0) : padTo8 bs = bs := by
  simp [padTo8, h]

/-- What `takeField` answers. -/
theorem takeField_eq_some {n : Nat} {bs rest : BitSeq} {v : Nat} :
    takeField n bs = some (v, rest) ↔ n ≤ bs.length ∧ v = valMSB (bs.take n) ∧ rest = bs.drop n := by
  unfold takeField
  split <;> simp_all [eq_comm]

/-- A field at the front of a sequence is read back. -/
theorem takeField_bitsMSB (v n : Nat) (rest : BitSeq) :
    takeField n (bitsMSB v n ++ rest) = some (v % 2 ^ n, rest) := by
  rw [takeField_eq_some]
  refine ⟨by simp, ?_, ?_⟩
  · rw [List.take_left' (bitsMSB_length v n), valMSB_bitsMSB]
  · rw [List.drop_left' (bitsMSB_length v n)]

end Sys2Proof
end

