-- ==== Sys2Proof/Laws/State.lean ====
section
/-! SUPPORT. One lemma per field per update of a state or an instance, true by `rfl`: no proof needs to unfold
an update. -/

namespace Sys2Proof.Machine

/-! ### State.put -/

@[simp] theorem State.put_insts (s : State) (x : Inst) : (s.put x).insts = s.insts.set s.cur x := rfl
@[simp] theorem State.put_cur (s : State) (x : Inst) : (s.put x).cur = s.cur := rfl
@[simp] theorem State.put_port (s : State) (x : Inst) : (s.put x).port = s.port := rfl
@[simp] theorem State.put_response (s : State) (x : Inst) : (s.put x).response = s.response := rfl

/-! ### State.answer -/

@[simp] theorem State.answer_insts (s : State) (x : Inst) (r : Response) : (s.answer x r).insts = s.insts.set s.cur x := rfl
@[simp] theorem State.answer_cur (s : State) (x : Inst) (r : Response) : (s.answer x r).cur = s.cur := rfl
@[simp] theorem State.answer_port (s : State) (x : Inst) (r : Response) : (s.answer x r).port = s.port := rfl
@[simp] theorem State.answer_response (s : State) (x : Inst) (r : Response) : (s.answer x r).response = r := rfl

/-! ### State.accept -/

@[simp] theorem State.accept_insts (s : State) (q : Request) (rest : List Request) : (s.accept q rest).insts = s.insts := rfl
@[simp] theorem State.accept_cur (s : State) (q : Request) (rest : List Request) : (s.accept q rest).cur = q.target := rfl
@[simp] theorem State.accept_port (s : State) (q : Request) (rest : List Request) : (s.accept q rest).port = rest := rfl
@[simp] theorem State.accept_response (s : State) (q : Request) (rest : List Request) : (s.accept q rest).response = s.response := rfl

/-! ### Control.raise -/

@[simp] theorem Control.raise_w (c : Control) (k : Cause) (i : Info) : (c.raise k i).w = c.w := rfl
@[simp] theorem Control.raise_l (c : Control) (k : Cause) (i : Info) : (c.raise k i).l = c.l := rfl
@[simp] theorem Control.raise_configured (c : Control) (k : Cause) (i : Info) : (c.raise k i).configured = c.configured := rfl
@[simp] theorem Control.raise_fault (c : Control) (k : Cause) (i : Info) : (c.raise k i).fault = true := rfl
@[simp] theorem Control.raise_cause (c : Control) (k : Cause) (i : Info) : (c.raise k i).cause = k := rfl
@[simp] theorem Control.raise_info (c : Control) (k : Cause) (i : Info) : (c.raise k i).info = i := rfl

/-! ### Control.construct -/

@[simp] theorem Control.construct_w (w l : Nat) : (Control.construct w l).w = BitVec.ofNat 4 w := rfl
@[simp] theorem Control.construct_l (w l : Nat) : (Control.construct w l).l = BitVec.ofNat 4 l := rfl
@[simp] theorem Control.construct_configured (w l : Nat) : (Control.construct w l).configured = true := rfl
@[simp] theorem Control.construct_fault (w l : Nat) : (Control.construct w l).fault = false := rfl
@[simp] theorem Control.construct_cause (w l : Nat) : (Control.construct w l).cause = .none := rfl
@[simp] theorem Control.construct_info (w l : Nat) : (Control.construct w l).info = .zero := rfl

/-! ### Control.constructFailed -/

@[simp] theorem Control.constructFailed_w (c : Control) (m : BitVec 3) : (c.constructFailed m).w = c.w := rfl
@[simp] theorem Control.constructFailed_l (c : Control) (m : BitVec 3) : (c.constructFailed m).l = c.l := rfl
@[simp] theorem Control.constructFailed_configured (c : Control) (m : BitVec 3) : (c.constructFailed m).configured = false := rfl
@[simp] theorem Control.constructFailed_fault (c : Control) (m : BitVec 3) : (c.constructFailed m).fault = true := rfl
@[simp] theorem Control.constructFailed_cause (c : Control) (m : BitVec 3) : (c.constructFailed m).cause = .configError := rfl
@[simp] theorem Control.constructFailed_info (c : Control) (m : BitVec 3) : (c.constructFailed m).info = .mask m := rfl

/-! ### Reader.feed -/

@[simp] theorem Reader.feed_stream (r : Reader) (chunk : Buffer) : (r.feed chunk).stream = r.stream ++ chunk := rfl
@[simp] theorem Reader.feed_rpos (r : Reader) (chunk : Buffer) : (r.feed chunk).rpos = r.rpos := rfl

/-! ### Reader.advance -/

@[simp] theorem Reader.advance_stream (r : Reader) (n : Nat) : (r.advance n).stream = r.stream := rfl
@[simp] theorem Reader.advance_rpos (r : Reader) (n : Nat) : (r.advance n).rpos = r.rpos + n := rfl

/-! ### Writer.fresh -/

@[simp] theorem Writer.fresh_wbuf  : (Writer.fresh).wbuf = [] := rfl
@[simp] theorem Writer.fresh_acc  : (Writer.fresh).acc = 0 := rfl
@[simp] theorem Writer.fresh_nacc  : (Writer.fresh).nacc = 0 := rfl

/-! ### Reader.fresh -/

@[simp] theorem Reader.fresh_stream  : (Reader.fresh).stream = [] := rfl
@[simp] theorem Reader.fresh_rpos  : (Reader.fresh).rpos = 0 := rfl

/-! ### Decoder.tagged -/

@[simp] theorem Decoder.tagged_ctl (d : Decoder) (br : Reader) (t : Bool) : (d.tagged br t).ctl = d.ctl := rfl
@[simp] theorem Decoder.tagged_capHint (d : Decoder) (br : Reader) (t : Bool) : (d.tagged br t).capHint = d.capHint := rfl
@[simp] theorem Decoder.tagged_starved (d : Decoder) (br : Reader) (t : Bool) : (d.tagged br t).starved = d.starved := rfl
@[simp] theorem Decoder.tagged_br (d : Decoder) (br : Reader) (t : Bool) : (d.tagged br t).br = br := rfl
@[simp] theorem Decoder.tagged_out (d : Decoder) (br : Reader) (t : Bool) : (d.tagged br t).out = d.out := rfl
@[simp] theorem Decoder.tagged_dstate (d : Decoder) (br : Reader) (t : Bool) : (d.tagged br t).dstate = (if t then .literal else .backRef) := rfl
@[simp] theorem Decoder.tagged_tokOff (d : Decoder) (br : Reader) (t : Bool) : (d.tagged br t).tokOff = d.tokOff := rfl
@[simp] theorem Decoder.tagged_tokLen (d : Decoder) (br : Reader) (t : Bool) : (d.tagged br t).tokLen = d.tokLen := rfl
@[simp] theorem Decoder.tagged_freeDraws (d : Decoder) (br : Reader) (t : Bool) : (d.tagged br t).freeDraws = d.freeDraws := rfl

/-! ### Decoder.appendLiteral -/

@[simp] theorem Decoder.appendLiteral_ctl (d : Decoder) (br : Reader) (b : Byte) : (d.appendLiteral br b).ctl = d.ctl := rfl
@[simp] theorem Decoder.appendLiteral_capHint (d : Decoder) (br : Reader) (b : Byte) : (d.appendLiteral br b).capHint = d.capHint := rfl
@[simp] theorem Decoder.appendLiteral_starved (d : Decoder) (br : Reader) (b : Byte) : (d.appendLiteral br b).starved = d.starved := rfl
@[simp] theorem Decoder.appendLiteral_br (d : Decoder) (br : Reader) (b : Byte) : (d.appendLiteral br b).br = br := rfl
@[simp] theorem Decoder.appendLiteral_out (d : Decoder) (br : Reader) (b : Byte) : (d.appendLiteral br b).out = memAppend d.out b := rfl
@[simp] theorem Decoder.appendLiteral_dstate (d : Decoder) (br : Reader) (b : Byte) : (d.appendLiteral br b).dstate = .awaitTag := rfl
@[simp] theorem Decoder.appendLiteral_tokOff (d : Decoder) (br : Reader) (b : Byte) : (d.appendLiteral br b).tokOff = d.tokOff := rfl
@[simp] theorem Decoder.appendLiteral_tokLen (d : Decoder) (br : Reader) (b : Byte) : (d.appendLiteral br b).tokLen = d.tokLen := rfl
@[simp] theorem Decoder.appendLiteral_freeDraws (d : Decoder) (br : Reader) (b : Byte) : (d.appendLiteral br b).freeDraws = d.freeDraws := rfl

/-! ### Decoder.raiseCorrupt -/

@[simp] theorem Decoder.raiseCorrupt_ctl (d : Decoder) : (d.raiseCorrupt).ctl = d.ctl.raise .corrupt (.corrupt d.tokOff d.out.length) := rfl
@[simp] theorem Decoder.raiseCorrupt_capHint (d : Decoder) : (d.raiseCorrupt).capHint = d.capHint := rfl
@[simp] theorem Decoder.raiseCorrupt_starved (d : Decoder) : (d.raiseCorrupt).starved = false := rfl
@[simp] theorem Decoder.raiseCorrupt_br (d : Decoder) : (d.raiseCorrupt).br = d.br := rfl
@[simp] theorem Decoder.raiseCorrupt_out (d : Decoder) : (d.raiseCorrupt).out = d.out := rfl
@[simp] theorem Decoder.raiseCorrupt_dstate (d : Decoder) : (d.raiseCorrupt).dstate = d.dstate := rfl
@[simp] theorem Decoder.raiseCorrupt_tokOff (d : Decoder) : (d.raiseCorrupt).tokOff = d.tokOff := rfl
@[simp] theorem Decoder.raiseCorrupt_tokLen (d : Decoder) : (d.raiseCorrupt).tokLen = d.tokLen := rfl
@[simp] theorem Decoder.raiseCorrupt_freeDraws (d : Decoder) : (d.raiseCorrupt).freeDraws = d.freeDraws := rfl

/-! ### Decoder.loaded -/

@[simp] theorem Decoder.loaded_ctl (d : Decoder) (p : Nat × Nat) (bits : BitSeq) : (d.loaded p bits).ctl = Control.construct p.1 p.2 := rfl
@[simp] theorem Decoder.loaded_capHint (d : Decoder) (p : Nat × Nat) (bits : BitSeq) : (d.loaded p bits).capHint = d.capHint := rfl
@[simp] theorem Decoder.loaded_starved (d : Decoder) (p : Nat × Nat) (bits : BitSeq) : (d.loaded p bits).starved = d.starved := rfl
@[simp] theorem Decoder.loaded_br (d : Decoder) (p : Nat × Nat) (bits : BitSeq) : (d.loaded p bits).br = { stream := bitsToBytes bits, rpos := 0 } := rfl
@[simp] theorem Decoder.loaded_out (d : Decoder) (p : Nat × Nat) (bits : BitSeq) : (d.loaded p bits).out = d.out := rfl
@[simp] theorem Decoder.loaded_dstate (d : Decoder) (p : Nat × Nat) (bits : BitSeq) : (d.loaded p bits).dstate = .awaitTag := rfl
@[simp] theorem Decoder.loaded_tokOff (d : Decoder) (p : Nat × Nat) (bits : BitSeq) : (d.loaded p bits).tokOff = d.tokOff := rfl
@[simp] theorem Decoder.loaded_tokLen (d : Decoder) (p : Nat × Nat) (bits : BitSeq) : (d.loaded p bits).tokLen = d.tokLen := rfl
@[simp] theorem Decoder.loaded_freeDraws (d : Decoder) (p : Nat × Nat) (bits : BitSeq) : (d.loaded p bits).freeDraws = d.freeDraws := rfl

/-! ### Encoder.load -/

@[simp] theorem Encoder.load_ctl (e : Encoder) (input : Buffer) : (e.load input).ctl = e.ctl := rfl
@[simp] theorem Encoder.load_bw (e : Encoder) (input : Buffer) : (e.load input).bw = .fresh := rfl
@[simp] theorem Encoder.load_input (e : Encoder) (input : Buffer) : (e.load input).input = input := rfl
@[simp] theorem Encoder.load_pos (e : Encoder) (input : Buffer) : (e.load input).pos = 0 := rfl
@[simp] theorem Encoder.load_maxMatch (e : Encoder) (input : Buffer) : (e.load input).maxMatch = 0 := rfl
@[simp] theorem Encoder.load_bestLen (e : Encoder) (input : Buffer) : (e.load input).bestLen = 0 := rfl
@[simp] theorem Encoder.load_bestOff (e : Encoder) (input : Buffer) : (e.load input).bestOff = 0 := rfl

/-- A `COMPRESS` starts from its input and the control registers alone (10_state.md R31). -/
theorem Encoder.load_eq (e : Encoder) (input : Buffer) :
    e.load input = { Encoder.powerOn with ctl := e.ctl, input := input } := rfl

/-! ### Encoder.search -/

@[simp] theorem Encoder.search_ctl (e : Encoder) : (e.search).ctl = e.ctl := rfl
@[simp] theorem Encoder.search_bw (e : Encoder) : (e.search).bw = e.bw := rfl
@[simp] theorem Encoder.search_input (e : Encoder) : (e.search).input = e.input := rfl
@[simp] theorem Encoder.search_pos (e : Encoder) : (e.search).pos = e.pos := rfl
@[simp] theorem Encoder.search_maxMatch (e : Encoder) : (e.search).maxMatch = maxMatchAt e.ctl.l.toNat e.pos e.input.length := rfl

/-! ### Encoder.emit

The two branches of the decision rule change `bw` and `pos` only. -/

@[simp] theorem Encoder.emit_ctl (e : Encoder) (b : Byte) : (e.emit b).ctl = e.ctl := by
  unfold Encoder.emit; split <;> rfl
@[simp] theorem Encoder.emit_input (e : Encoder) (b : Byte) : (e.emit b).input = e.input := by
  unfold Encoder.emit; split <;> rfl
@[simp] theorem Encoder.emit_maxMatch (e : Encoder) (b : Byte) : (e.emit b).maxMatch = e.maxMatch := by
  unfold Encoder.emit; split <;> rfl
@[simp] theorem Encoder.emit_bestLen (e : Encoder) (b : Byte) : (e.emit b).bestLen = e.bestLen := by
  unfold Encoder.emit; split <;> rfl
@[simp] theorem Encoder.emit_bestOff (e : Encoder) (b : Byte) : (e.emit b).bestOff = e.bestOff := by
  unfold Encoder.emit; split <;> rfl

/-! ### The power-on instances -/

@[simp] theorem Encoder.powerOn_ctl : Encoder.powerOn.ctl = .powerOn := rfl
@[simp] theorem Encoder.powerOn_bw : Encoder.powerOn.bw = .fresh := rfl
@[simp] theorem Encoder.powerOn_input : Encoder.powerOn.input = [] := rfl
@[simp] theorem Encoder.powerOn_pos : Encoder.powerOn.pos = 0 := rfl
@[simp] theorem Encoder.powerOn_maxMatch : Encoder.powerOn.maxMatch = 0 := rfl
@[simp] theorem Encoder.powerOn_bestLen : Encoder.powerOn.bestLen = 0 := rfl
@[simp] theorem Encoder.powerOn_bestOff : Encoder.powerOn.bestOff = 0 := rfl
@[simp] theorem Decoder.powerOn_ctl : Decoder.powerOn.ctl = .powerOn := rfl
@[simp] theorem Decoder.powerOn_capHint : Decoder.powerOn.capHint = 0 := rfl
@[simp] theorem Decoder.powerOn_starved : Decoder.powerOn.starved = false := rfl
@[simp] theorem Decoder.powerOn_br : Decoder.powerOn.br = .fresh := rfl
@[simp] theorem Decoder.powerOn_out : Decoder.powerOn.out = [] := rfl
@[simp] theorem Decoder.powerOn_dstate : Decoder.powerOn.dstate = .awaitTag := rfl
@[simp] theorem Decoder.powerOn_tokOff : Decoder.powerOn.tokOff = 0 := rfl
@[simp] theorem Decoder.powerOn_tokLen : Decoder.powerOn.tokLen = 0 := rfl

end Sys2Proof.Machine
end

