-- ==== Sys2Proof/Laws/Ops.lean ====
section
/-! SUPPORT. What each shared operation can do, said once: buffers, instance access, the tests before an
operation, how a step serves a request. -/

namespace Sys2Proof.Machine

/-! ### Buffers -/

theorem memRead_eq_some_iff {buf : Buffer} {a : Nat} {b : Byte} :
    memRead buf a = some b ↔ ∃ h : a < buf.length, buf[a] = b := by
  simp [memRead, List.getElem?_eq_some_iff]

theorem memRead_eq_none_iff {buf : Buffer} {a : Nat} : memRead buf a = none ↔ buf.length ≤ a := by
  simp [memRead]

/-- Appending leaves every byte in place. -/
theorem memRead_append_of_lt {buf more : Buffer} {a : Nat} (h : a < buf.length) :
    memRead (buf ++ more) a = memRead buf a := by
  simp [memRead, List.getElem?_append_left h]

/-- The byte appended is the last one. -/
theorem memRead_memAppend_end (buf : Buffer) (b : Byte) : memRead (memAppend buf b) buf.length = some b := by
  simp [memRead, memAppend]

@[simp] theorem memAppend_length (buf : Buffer) (b : Byte) : (memAppend buf b).length = buf.length + 1 := by
  simp [memAppend]

theorem cellsFrom_addresses (a : Nat) (buf : Buffer) :
    (cellsFrom a buf).map Prod.fst = List.range' a buf.length := by
  induction buf generalizing a with
  | nil => rfl
  | cons b buf ih => simp [cellsFrom, ih, List.range'_succ]

theorem cellsFrom_length (a : Nat) (buf : Buffer) : (cellsFrom a buf).length = buf.length := by
  have h := congrArg List.length (cellsFrom_addresses a buf)
  simpa using h

/-- Every buffer is a memory in canonical form. -/
theorem bufferCells_wf (buf : Buffer) : Memory.wf (bufferCells buf) = true := by
  simp [Memory.wf, bufferCells, cellsFrom_addresses, cellsFrom_length, List.range_eq_range']

theorem cellsFrom_append (a : Nat) (as bs : Buffer) :
    cellsFrom a (as ++ bs) = cellsFrom a as ++ cellsFrom (a + as.length) bs := by
  induction as generalizing a with
  | nil => rfl
  | cons b as ih => simp [cellsFrom, ih, Nat.add_assoc, Nat.add_comm 1]

/-- The one write of a buffer adds one cell, at its end, and keeps the canonical form. -/
theorem memAppend_cells (buf : Buffer) (b : Byte) :
    bufferCells (memAppend buf b) = bufferCells buf ++ [(buf.length, b)] ∧
      Memory.wf (bufferCells (memAppend buf b)) = true := by
  refine ⟨?_, bufferCells_wf _⟩
  simp [bufferCells, memAppend, cellsFrom_append, cellsFrom]

/-- Buffers that hold the same cells are the same data. -/
theorem bufferCells_injective {as bs : Buffer} (h : bufferCells as = bufferCells bs) : as = bs := by
  have key : ∀ (a : Nat) (buf : Buffer), (cellsFrom a buf).map Prod.snd = buf := by
    intro a buf
    induction buf generalizing a with
    | nil => rfl
    | cons b buf ih => simp [cellsFrom, ih]
  rw [← key 0 as, ← key 0 bs]
  exact congrArg _ h

/-- The buffers of an instance. -/
def instBuffers : Inst → List Buffer
  | .enc e => [e.input, e.bw.wbuf]
  | .dec d => [d.br.stream, d.out]
  | .bw w => [w.wbuf]
  | .br r => [r.stream]

/-- The memories of every state, the one after reset among them, are in canonical form. -/
theorem memories_wf (s : State) :
    ∀ x ∈ s.insts, ∀ buf ∈ instBuffers x, Memory.wf (bufferCells buf) = true :=
  fun _ _ buf _ => bufferCells_wf buf

/-- At reset no memory lists a byte. -/
theorem reset_memories_empty : ∀ x ∈ State.reset.insts, ∀ buf ∈ instBuffers x, bufferCells buf = [] := by
  decide

/-! ### Instances -/

theorem inst?_eq_some_iff {s : State} {x : Inst} :
    s.inst? = some x ↔ ∃ h : s.cur < s.insts.length, s.insts[s.cur] = x := by
  simp [State.inst?, List.getElem?_eq_some_iff]

theorem put_inst? {s : State} {x y : Inst} (h : s.inst? = some x) : (s.put y).inst? = some y := by
  obtain ⟨hlt, -⟩ := inst?_eq_some_iff.1 h
  simp [State.inst?, hlt]

theorem answer_inst? {s : State} {x y : Inst} (r : Response) (h : s.inst? = some x) :
    (s.answer y r).inst? = some y := by
  obtain ⟨hlt, -⟩ := inst?_eq_some_iff.1 h
  simp [State.inst?, hlt]

theorem put_other (s : State) (x : Inst) {k : Nat} (h : k ≠ s.cur) : (s.put x).insts[k]? = s.insts[k]? := by
  simp [h.symm]

theorem answer_other (s : State) (x : Inst) (r : Response) {k : Nat} (h : k ≠ s.cur) :
    (s.answer x r).insts[k]? = s.insts[k]? := by
  simp [h.symm]

/-- Replacing the instance by itself changes no instance. -/
theorem answer_same {s : State} {x : Inst} (r : Response) (h : s.inst? = some x) :
    (s.answer x r).insts = s.insts := by
  obtain ⟨hlt, rfl⟩ := inst?_eq_some_iff.1 h
  simp

theorem onEnc_of {s : State} {e : Encoder} (f : Encoder → Result) (h : s.inst? = some (.enc e)) :
    s.onEnc f = f e := by simp [State.onEnc, h]

theorem onDec_of {s : State} {d : Decoder} (f : Decoder → Result) (h : s.inst? = some (.dec d)) :
    s.onDec f = f d := by simp [State.onDec, h]

theorem onBw_of {s : State} {w : Writer} (f : Writer → Result) (h : s.inst? = some (.bw w)) :
    s.onBw f = f w := by simp [State.onBw, h]

theorem onBr_of {s : State} {r : Reader} (f : Reader → Result) (h : s.inst? = some (.br r)) :
    s.onBr f = f r := by simp [State.onBr, h]

/-- An `ENC` operation that answers has run on an `ENC`. -/
theorem onEnc_next {s t : State} {f : Encoder → Result} (h : s.onEnc f = .next t) :
    ∃ e, s.inst? = some (.enc e) ∧ f e = .next t := by
  unfold State.onEnc at h
  split at h <;> first | exact ⟨_, by assumption, h⟩ | cases h

/-- A `DEC` operation that answers has run on a `DEC`. -/
theorem onDec_next {s t : State} {f : Decoder → Result} (h : s.onDec f = .next t) :
    ∃ d, s.inst? = some (.dec d) ∧ f d = .next t := by
  unfold State.onDec at h
  split at h <;> first | exact ⟨_, by assumption, h⟩ | cases h

/-- A `BW` operation that answers has run on a `BW`. -/
theorem onBw_next {s t : State} {f : Writer → Result} (h : s.onBw f = .next t) :
    ∃ w, s.inst? = some (.bw w) ∧ f w = .next t := by
  unfold State.onBw at h
  split at h <;> first | exact ⟨_, by assumption, h⟩ | cases h

/-- A `BR` operation that answers has run on a `BR`. -/
theorem onBr_next {s t : State} {f : Reader → Result} (h : s.onBr f = .next t) :
    ∃ r, s.inst? = some (.br r) ∧ f r = .next t := by
  unfold State.onBr at h
  split at h <;> first | exact ⟨_, by assumption, h⟩ | cases h

/-! ### Tests before an operation -/

theorem refusal?_eq_none_iff {c : Control} : c.refusal? = none ↔ c.Ready := by
  unfold Control.refusal? Control.Ready
  split
  · simp_all
  · split <;> simp_all

@[simp] theorem fits_none (n : Nat) : fits none n = true := rfl

@[simp] theorem fits_some (c n : Nat) : fits (some c) n = decide (n ≤ c) := rfl

/-- At the machine's own capacities every buffer fits. -/
@[simp] theorem caps_unbounded :
    Config.caps.inCap = none ∧ Config.caps.wbufCap = none ∧ Config.caps.streamCap = none ∧
      Config.caps.outCap = none := ⟨rfl, rfl, rfl, rfl⟩

@[simp] theorem within_true (r : Result) : within true r = r := rfl

@[simp] theorem within_false (r : Result) : within false r = .refused .capacityExceeded := rfl

theorem within_next {ok : Bool} {r : Result} {t : State} (h : within ok r = .next t) :
    ok = true ∧ r = .next t := by
  unfold within at h
  split at h
  · exact ⟨by assumption, h⟩
  · cases h

@[simp] theorem endWrite_caps (s : State) (w : Writer) (r : Response) :
    s.endWrite Config.caps w r = .next (s.answer (.bw w) r) := rfl

/-! ### Serving a request -/

/-- The two ways a served request ends in a next state. -/
theorem returnRefusal_next {s t : State} {o : Result} (h : s.returnRefusal o = .next t) :
    o = .next t ∨ ∃ r, o = .refused r ∧ r.isReturned = true ∧ t = { s with response := .refused r } := by
  cases o with
  | next u => exact .inl h
  | fault f => cases h
  | refused r =>
    refine .inr ⟨r, rfl, ?_⟩
    simp only [State.returnRefusal] at h
    by_cases hr : r.isReturned = true
    · rw [if_pos hr] at h
      exact ⟨hr, by cases h; rfl⟩
    · rw [if_neg hr] at h
      cases h

/-- The three ways a step ends in a next state: a request served, a token executed, nothing to do. -/
theorem step_next {s t : State} (h : step s = .next t) :
    (∃ q rest, s.port = q :: rest ∧
      (s.accept q rest).returnRefusal (exec (decodeHost q.word) (s.accept q rest)) = .next t) ∨
    (s.port = [] ∧ ∃ i, s.fetchToken = some i ∧ exec i s = .next t) ∨
    (s.port = [] ∧ s.fetchToken = none ∧ t = s) := by
  unfold step at h
  split at h
  · exact .inl ⟨_, _, by assumption, h⟩
  · rename_i hp
    split at h
    · exact .inr (.inl ⟨hp, _, by assumption, h⟩)
    · exact .inr (.inr ⟨hp, by assumption, by cases h; rfl⟩)

/-- What a token fetch has found. -/
theorem fetchToken_eq_some_iff {s : State} {i : Instr} :
    s.fetchToken = some i ↔ ∃ d rest, s.inst? = some (.dec d) ∧ d.ctl.Ready ∧
      decodeToken d.ctl.w.toNat d.ctl.l.toNat d.tokenBitsAt = .ok (i, rest) := by
  constructor
  · intro h
    unfold State.fetchToken at h
    split at h
    · rename_i d hd
      split at h
      · cases h
      · rename_i hr
        split at h
        · rename_i j rest hj
          cases h
          exact ⟨d, rest, hd, refusal?_eq_none_iff.1 hr, hj⟩
        · cases h
    · cases h
  · rintro ⟨d, rest, hd, hr, hj⟩
    simp [State.fetchToken, hd, refusal?_eq_none_iff.2 hr, hj]

end Sys2Proof.Machine
end

