-- ==== Sys2Proof/Laws/Operands.lean ====
section
/-! SUPPORT. What bit access and the decoder's steps can do: one bit written, bits read, a step of the FSM, the
back-copy. -/

namespace Sys2Proof.Machine

/-! ### Writing bits -/

/-- A writer whose partial byte is zero keeps the unwritten bits zero. -/
theorem inv_of_acc_zero {w : Writer} (h : w.acc = 0) : w.Inv := by simp [Writer.Inv, h]

theorem fresh_inv : Writer.fresh.Inv := inv_of_acc_zero rfl

/-- The byte a bit write makes: with the unwritten bits zero, the bit lands just below the valid ones. -/
theorem accWithBit_toNat : ∀ (acc : BitVec 8) (n : Fin 8) (bit : Bool), acc.toNat % 2 ^ (8 - n.val) = 0 →
    (acc ||| ((BitVec.ofBool bit).zeroExtend 8 <<< (7 - n.val))).toNat =
      (2 * (acc.toNat >>> (8 - n.val)) + bit.toNat) * 2 ^ (7 - n.val) := by
  decide

/-- One more bit at the end of a number's digits. -/
theorem bitsMSB_concat (x n : Nat) (bit : Bool) : bitsMSB (2 * x + bit.toNat) (n + 1) = bitsMSB x n ++ [bit] := by
  have h1 : (2 * x + bit.toNat) >>> 1 = x := by
    cases bit <;> (simp [Nat.shiftRight_eq_div_pow]; try omega)
  have h2 : bitsMSB (2 * x + bit.toNat) 1 = [bit] := by
    cases bit <;> simp [bitsMSB_succ, Nat.testBit_zero]
  rw [bitsMSB_add, h1, h2]

/-- A bit write appends one bit to the abstract content and keeps the unwritten bits zero (10_state.md R24). -/
theorem writeBit_spec {w : Writer} (hw : w.Inv) (bit : Bool) :
    (w.writeBit bit).wbits = w.wbits ++ [bit] ∧ (w.writeBit bit).Inv := by
  obtain ⟨wbuf, acc, n⟩ := w
  have hacc := accWithBit_toNat acc n bit hw
  have hn := n.isLt
  unfold Writer.writeBit
  dsimp only
  generalize acc ||| ((BitVec.ofBool bit).zeroExtend 8 <<< (7 - n.val)) = acc' at hacc ⊢
  split
  · rename_i h8
    refine ⟨?_, inv_of_acc_zero rfl⟩
    have h7 : n.val = 7 := by omega
    rw [h7] at hacc
    simp only [Writer.wbits, memAppend, bytesToBits_append, bytesToBits_cons, bytesToBits_nil, hacc, h7]
    simpa using bitsMSB_concat (acc.toNat >>> 1) 7 bit
  · rename_i h8
    have hv : (Fin.ofNat 8 (n.val + 1)).val = n.val + 1 := by
      simp [Fin.ofNat]; omega
    have hsub : 8 - (n.val + 1) = 7 - n.val := by omega
    constructor
    · simp only [Writer.wbits, hv, hsub, hacc, Nat.shiftRight_eq_div_pow,
        Nat.mul_div_cancel _ (Nat.two_pow_pos (7 - n.val)), List.append_assoc]
      rw [bitsMSB_concat]
    · simp only [Writer.Inv, hv, hsub, hacc, Nat.mul_mod_left]

@[simp] theorem writeBits_zero (w : Writer) (v : Nat) : w.writeBits v 0 = w := rfl

theorem writeBits_succ (w : Writer) (v n : Nat) :
    w.writeBits v (n + 1) = (w.writeBit (v.testBit n)).writeBits v n := rfl

/-- A writer is determined by its abstract content (10_state.md R24). -/
theorem writer_ext {w v : Writer} (hw : w.Inv) (hv : v.Inv) (h : w.wbits = v.wbits) : w = v := by
  obtain ⟨wbuf, acc, n⟩ := w
  obtain ⟨vbuf, vacc, m⟩ := v
  have hlen := congrArg List.length h
  simp only [Writer.wbits, List.length_append, bytesToBits_length, bitsMSB_length] at hlen
  have hn := n.isLt
  have hm := m.isLt
  have hnm : n = m := Fin.ext (by omega)
  subst hnm
  have hb : wbuf.length = vbuf.length := by omega
  obtain ⟨h1, h2⟩ := List.append_inj h (by simp [hb])
  have hbuf : wbuf = vbuf := by
    rw [← bitsToBytes_bytesToBits wbuf, ← bitsToBytes_bytesToBits vbuf]; exact congrArg _ h1
  have hacc : acc.toNat >>> (8 - n.val) = vacc.toNat >>> (8 - n.val) := by
    have hlt : ∀ a : BitVec 8, a.toNat >>> (8 - n.val) < 2 ^ n.val := by
      intro a
      rw [Nat.shiftRight_eq_div_pow, Nat.div_lt_iff_lt_mul (Nat.two_pow_pos _), ← Nat.pow_add]
      have : n.val + (8 - n.val) = 8 := by omega
      rw [this]; exact a.isLt
    have h3 := congrArg valMSB h2
    rw [valMSB_bitsMSB, valMSB_bitsMSB, Nat.mod_eq_of_lt (hlt _), Nat.mod_eq_of_lt (hlt _)] at h3
    exact h3
  have heq : acc = vacc := by
    apply BitVec.eq_of_toNat_eq
    rw [Nat.shiftRight_eq_div_pow, Nat.shiftRight_eq_div_pow] at hacc
    have e1 := Nat.div_add_mod acc.toNat (2 ^ (8 - n.val))
    have e2 := Nat.div_add_mod vacc.toNat (2 ^ (8 - n.val))
    have h0 : acc.toNat % 2 ^ (8 - n.val) = 0 := hw
    have h0' : vacc.toNat % 2 ^ (8 - n.val) = 0 := hv
    rw [← e1, ← e2, hacc, h0, h0']
  rw [hbuf, heq]

/-! ### Reading bits -/

/-- A stream's bits are those of its bit sequence (20_memory.md R52). -/
theorem streamBit_eq (buf : Buffer) (k : Nat) (h : k < 8 * buf.length) :
    (bytesToBits buf)[k]? = some (streamBit buf k) := by
  induction buf generalizing k with
  | nil => simp at h
  | cons b buf ih =>
    rw [bytesToBits_cons]
    by_cases hk : k < 8
    · rw [List.getElem?_append_left (by simpa using hk)]
      have hb : streamBit (b :: buf) k = b.getLsbD (7 - k) := by
        simp [streamBit, memRead, Nat.div_eq_of_lt hk, Nat.mod_eq_of_lt hk]
      rw [hb, BitVec.getLsbD]
      obtain rfl | rfl | rfl | rfl | rfl | rfl | rfl | rfl :
        k = 0 ∨ k = 1 ∨ k = 2 ∨ k = 3 ∨ k = 4 ∨ k = 5 ∨ k = 6 ∨ k = 7 := by omega
      all_goals rfl
    · obtain ⟨j, rfl⟩ : ∃ j, k = 8 + j := ⟨k - 8, by omega⟩
      rw [List.getElem?_append_right (by simp)]
      have hs : streamBit (b :: buf) (8 + j) = streamBit buf j := by
        have hd : (8 + j) / 8 = j / 8 + 1 := by omega
        have hm : (8 + j) % 8 = j % 8 := by omega
        simp [streamBit, memRead, hd, hm]
      rw [hs, ← ih j (by simp at h; omega)]
      simp

/-- What is read is the number the bits there stand for (41_bit_reader.md R107). -/
theorem streamValue_eq (buf : Buffer) (start n : Nat) (h : start + n ≤ 8 * buf.length) :
    streamValue buf start n = valMSB (((bytesToBits buf).drop start).take n) := by
  induction n with
  | zero => simp [streamValue, valMSB]
  | succ n ih =>
    have hbit : ((bytesToBits buf).drop start)[n]? = some (streamBit buf (start + n)) := by
      rw [List.getElem?_drop]; exact streamBit_eq buf _ (by omega)
    have hlow : ∀ (x : Nat) (b : Bool), x <<< 1 ||| b.toNat = 2 * x + b.toNat := by
      intro x b
      have := Nat.shiftLeft_add_eq_or_of_lt (b := b.toNat) (i := 1) (by cases b <;> decide) x
      rw [← this, Nat.shiftLeft_eq]; omega
    rw [List.take_add_one, hbit, Option.toList_some, valMSB_concat, streamValue, ih (by omega), hlow]

/-- When a read succeeds, and what it gives. -/
theorem readBits_eq_some_iff {r r' : Reader} {count v : Nat} :
    r.readBits count = some (v, r') ↔
      count ≤ r.avail ∧ v = streamValue r.stream r.rpos count ∧ r' = r.advance count := by
  unfold Reader.readBits
  split <;> simp_all [eq_comm]

theorem readBits_eq_none_iff {r : Reader} {count : Nat} : r.readBits count = none ↔ r.avail < count := by
  unfold Reader.readBits
  split <;> simp_all

@[simp] theorem advance_avail (r : Reader) (n : Nat) : (r.advance n).avail = r.avail - n := by
  simp [Reader.avail]; omega

theorem feed_avail {r : Reader} (h : r.Inv) (chunk : Buffer) :
    (r.feed chunk).avail = r.avail + 8 * chunk.length := by
  unfold Reader.Inv at h
  simp [Reader.avail]; omega

@[simp] theorem unread_length (r : Reader) : r.unread.length = r.avail := by
  simp [Reader.unread, Reader.avail]

/-- A field read advances the cursor by the field's width and reads nothing else. -/
theorem readField_some {r r' : Reader} {n v : Nat} (h : r.readField n = some (v, r')) :
    n ≤ r.avail ∧ r' = r.advance n := by
  unfold Reader.readField at h
  split at h
  · rename_i h8
    split at h
    · rename_i hi r1 h1
      obtain ⟨a1, -, rfl⟩ := readBits_eq_some_iff.1 h1
      split at h
      · rename_i lo r2 h2
        obtain ⟨a2, -, rfl⟩ := readBits_eq_some_iff.1 h2
        simp only [Option.some.injEq, Prod.mk.injEq] at h
        obtain ⟨-, rfl⟩ := h
        rw [advance_avail] at a2
        refine ⟨by omega, ?_⟩
        simp [Reader.advance]; omega
      · cases h
    · cases h
  · obtain ⟨a, -, e⟩ := readBits_eq_some_iff.1 h
    exact ⟨a, e⟩

/-- A field read succeeds when its bits are there (41_bit_reader.md R110). -/
theorem readField_isSome {r : Reader} {n : Nat} (h : n ≤ r.avail) : ∃ v, r.readField n = some (v, r.advance n) := by
  cases hf : r.readField n with
  | some p =>
    obtain ⟨v, r'⟩ := p
    exact ⟨v, by rw [(readField_some hf).2]⟩
  | none =>
    exfalso
    unfold Reader.readField at hf
    split at hf
    · rename_i h8
      have h1 : r.readBits (n - 8) = some (streamValue r.stream r.rpos (n - 8), r.advance (n - 8)) :=
        readBits_eq_some_iff.2 ⟨by omega, rfl, rfl⟩
      rw [h1] at hf
      dsimp only at hf
      split at hf
      · cases hf
      · rename_i h2
        rw [readBits_eq_none_iff, advance_avail] at h2
        omega
    · rw [readBits_eq_none_iff] at hf
      omega

/-! ### The back-copy -/

/-- The back-copy only appends. -/
theorem backCopy_extends (offset : Nat) (n : Nat) (out : Buffer) : out <+: backCopy offset n out := by
  induction n generalizing out with
  | zero => exact List.prefix_rfl
  | succ n ih =>
    unfold backCopy
    split
    · exact (List.prefix_append out _).trans (ih _)
    · exact List.prefix_rfl

/-- With the offset inside the output, the back-copy appends as many bytes as asked (43_decoder.md R150). -/
theorem backCopy_length {offset : Nat} (n : Nat) {out : Buffer} (h1 : 1 ≤ offset) (h2 : offset ≤ out.length) :
    (backCopy offset n out).length = out.length + n := by
  induction n generalizing out with
  | zero => rfl
  | succ n ih =>
    unfold backCopy
    split
    · rw [ih (by simp; omega), memAppend_length]; omega
    · rename_i hnone
      rw [memRead_eq_none_iff] at hnone
      omega

/-! ### A step of the FSM -/

/-- The replay of a back-reference: the copy, or the fault (43_decoder.md R150, R152). -/
theorem replay_cases (d : Decoder) (br : Reader) (o n : Nat) :
    (o + 1 ≤ d.out.length ∧
      d.replay br o n =
        .ran { d with
          br := br
          tokOff := o + 1
          tokLen := n + 1
          out := backCopy (o + 1) (n + 1) d.out
          dstate := .awaitTag }) ∨
    (d.out.length < o + 1 ∧
      d.replay br o n =
        .corrupt (Decoder.raiseCorrupt { d with br := br, tokOff := o + 1, tokLen := n + 1 })) := by
  unfold Decoder.replay
  dsimp only
  split
  · exact .inr ⟨by assumption, rfl⟩
  · exact .inl ⟨by omega, rfl⟩

/-- All that a step of the FSM can do: the table of 43_decoder.md R147. -/
theorem fsmStep_cases (d : Decoder) :
    (d.dstate = .awaitTag ∧ d.br.avail < 1 ∧ d.fsmStep = .suspended d) ∨
    (d.dstate = .awaitTag ∧ 1 ≤ d.br.avail ∧
      d.fsmStep = .ran (d.tagged (d.br.advance 1) (decide (streamValue d.br.stream d.br.rpos 1 = 1)))) ∨
    (d.dstate = .literal ∧ d.br.avail < 8 ∧ d.fsmStep = .suspended d) ∨
    (d.dstate = .literal ∧ 8 ≤ d.br.avail ∧
      d.fsmStep = .ran (d.appendLiteral (d.br.advance 8)
        (BitVec.ofNat 8 (streamValue d.br.stream d.br.rpos 8)))) ∨
    (d.dstate = .backRef ∧ d.br.avail < d.ctl.w.toNat + d.ctl.l.toNat ∧ d.fsmStep = .suspended d) ∨
    (d.dstate = .backRef ∧ d.ctl.w.toNat + d.ctl.l.toNat ≤ d.br.avail ∧
      ∃ o n, d.br.readField d.ctl.w.toNat = some (o, d.br.advance d.ctl.w.toNat) ∧
        (d.br.advance d.ctl.w.toNat).readField d.ctl.l.toNat =
          some (n, d.br.advance (d.ctl.w.toNat + d.ctl.l.toNat)) ∧
        d.fsmStep = d.replay (d.br.advance (d.ctl.w.toNat + d.ctl.l.toNat)) o n) := by
  unfold Decoder.fsmStep
  cases hd : d.dstate with
  | awaitTag =>
    by_cases h : 1 ≤ d.br.avail
    · refine .inr (.inl ⟨rfl, h, ?_⟩)
      simp [Decoder.stepTag, readBits_eq_some_iff.2 ⟨h, rfl, rfl⟩]
    · refine .inl ⟨rfl, by omega, ?_⟩
      simp [Decoder.stepTag, readBits_eq_none_iff.2 (show d.br.avail < 1 by omega)]
  | literal =>
    by_cases h : 8 ≤ d.br.avail
    · refine .inr (.inr (.inr (.inl ⟨rfl, h, ?_⟩)))
      simp [Decoder.stepLit, readBits_eq_some_iff.2 ⟨h, rfl, rfl⟩]
    · refine .inr (.inr (.inl ⟨rfl, by omega, ?_⟩))
      simp [Decoder.stepLit, readBits_eq_none_iff.2 (show d.br.avail < 8 by omega)]
  | backRef =>
    by_cases h : d.ctl.w.toNat + d.ctl.l.toNat ≤ d.br.avail
    · refine .inr (.inr (.inr (.inr (.inr ⟨rfl, h, ?_⟩))))
      obtain ⟨o, ho⟩ := readField_isSome (show d.ctl.w.toNat ≤ d.br.avail by omega)
      obtain ⟨n, hn⟩ := readField_isSome (r := d.br.advance d.ctl.w.toNat) (n := d.ctl.l.toNat)
        (by rw [advance_avail]; omega)
      have hadv : (d.br.advance d.ctl.w.toNat).advance d.ctl.l.toNat =
          d.br.advance (d.ctl.w.toNat + d.ctl.l.toNat) := by
        simp [Reader.advance, Nat.add_assoc]
      rw [hadv] at hn
      refine ⟨o, n, ho, hn, ?_⟩
      simp [Decoder.stepBref, Nat.not_lt.2 h, ho, hn]
    · refine .inr (.inr (.inr (.inr (.inl ⟨rfl, by omega, ?_⟩))))
      simp [Decoder.stepBref, Nat.lt_of_not_le h]

/-! ### The match search -/

/-- A match is extended by what fits, and no more (42_encoder.md R123). -/
theorem extendMatch_bounds (inp : Buffer) (i pos fuel m : Nat) :
    m ≤ extendMatch inp i pos fuel m ∧ extendMatch inp i pos fuel m ≤ m + fuel := by
  induction fuel generalizing m with
  | zero => simp [extendMatch]
  | succ fuel ih =>
    unfold extendMatch
    split
    · have := ih (m + 1); omega
    · omega

/-- A match length is at least 1 and at most `max_match` (42_encoder.md R123). -/
theorem matchLength_bounds (inp : Buffer) (i pos : Nat) {maxMatch : Nat} (h : 1 ≤ maxMatch) :
    1 ≤ matchLength inp i pos maxMatch ∧ matchLength inp i pos maxMatch ≤ maxMatch := by
  have := extendMatch_bounds inp i pos (maxMatch - 1) 1
  unfold matchLength; omega

/-- The lanes of the comparator array count at most `max_match` bytes (42_encoder.md R125). -/
theorem candLen_le (inp : Buffer) (pos d k : Nat) : candLen inp pos d k ≤ k := by
  induction k with
  | zero => simp [candLen]
  | succ k ih => unfold candLen; split <;> omega

end Sys2Proof.Machine
end

