-- ==== Sys2Proof/Laws/PerInstr.lean ====
section
/-! SUPPORT. The statements made per instruction: the code of each instruction, its kind and its size. -/

namespace Sys2Proof.Laws.EncodedLength

/-- At every parameter pair: a `LITERAL` is 9 bits and begins with 1, a `BACKREF` is `1 + W + L` bits and begins with
0 (30_encoding.md R71, R72, R77), and a host operation is the one code its row of 30_encoding.md R86 gives, no bits on
the wire. -/
def Statement : Instr → Prop
  | .literal b => ∀ w l, ∃ bs, encode w l (.literal b) = .token (true :: bs) ∧ bs.length = 8
  | .backref o n => ∀ w l, ∃ bs, encode w l (.backref o n) = .token (false :: bs) ∧ bs.length = w + l
  | .status => ∀ w l, ∃ p, encode w l .status = .host { op := 0x0, ports := p }
  | .encConfig a b => ∀ w l, ∃ p, encode w l (.encConfig a b) = .host { op := 0x1, ports := p }
  | .compress bs => ∀ w l, ∃ p, encode w l (.compress bs) = .host { op := 0x2, ports := p }
  | .decConfig a b h => ∀ w l, ∃ p, encode w l (.decConfig a b h) = .host { op := 0x3, ports := p }
  | .process bs => ∀ w l, ∃ p, encode w l (.process bs) = .host { op := 0x4, ports := p }
  | .getOutput => ∀ w l, ∃ p, encode w l .getOutput = .host { op := 0x5, ports := p }
  | .bwReset => ∀ w l, ∃ p, encode w l .bwReset = .host { op := 0x8, ports := p }
  | .writeBits v c => ∀ w l, ∃ p, encode w l (.writeBits v c) = .host { op := 0x9, ports := p }
  | .writeByte b => ∀ w l, ∃ p, encode w l (.writeByte b) = .host { op := 0xA, ports := p }
  | .flush => ∀ w l, ∃ p, encode w l .flush = .host { op := 0xB, ports := p }
  | .brReset => ∀ w l, ∃ p, encode w l .brReset = .host { op := 0xC, ports := p }
  | .feed bs => ∀ w l, ∃ p, encode w l (.feed bs) = .host { op := 0xD, ports := p }
  | .readBits c => ∀ w l, ∃ p, encode w l (.readBits c) = .host { op := 0xE, ports := p }
  | .reserved c => ∀ w l, ∃ op, op ∈ [(0x6 : BitVec 4), 0x7, 0xF] ∧ encode w l (.reserved c) = .host { op := op }

theorem literal (b : Byte) : Statement (.literal b) := fun _ _ => ⟨_, rfl, by simp⟩
theorem backref (o n : Nat) : Statement (.backref o n) := fun _ _ => ⟨_, rfl, by simp⟩
theorem status : Statement .status := fun _ _ => ⟨_, rfl⟩
theorem encConfig (a b : Nat) : Statement (.encConfig a b) := fun _ _ => ⟨_, rfl⟩
theorem compress (bs : Buffer) : Statement (.compress bs) := fun _ _ => ⟨_, rfl⟩
theorem decConfig (a b h : Nat) : Statement (.decConfig a b h) := fun _ _ => ⟨_, rfl⟩
theorem process (bs : Buffer) : Statement (.process bs) := fun _ _ => ⟨_, rfl⟩
theorem getOutput : Statement .getOutput := fun _ _ => ⟨_, rfl⟩
theorem bwReset : Statement .bwReset := fun _ _ => ⟨_, rfl⟩
theorem writeBits (v : PortValue) (c : Nat) : Statement (.writeBits v c) := fun _ _ => ⟨_, rfl⟩
theorem writeByte (b : Byte) : Statement (.writeByte b) := fun _ _ => ⟨_, rfl⟩
theorem flush : Statement .flush := fun _ _ => ⟨_, rfl⟩
theorem brReset : Statement .brReset := fun _ _ => ⟨_, rfl⟩
theorem feed (bs : Buffer) : Statement (.feed bs) := fun _ _ => ⟨_, rfl⟩
theorem readBits (c : Nat) : Statement (.readBits c) := fun _ _ => ⟨_, rfl⟩
theorem reserved (c : ReservedCode) : Statement (.reserved c) := by
  intro w l
  cases c
  · exact ⟨0x6, by decide, rfl⟩
  · exact ⟨0x7, by decide, rfl⟩
  · exact ⟨0xF, by decide, rfl⟩

end Sys2Proof.Laws.EncodedLength
end

