-- ==== Sys2Proof/Tests/Slice0.lean ====
section
/-! SUPPORT. The author's own tests. Expected values come from 95_test_vectors.md, cited by their ids there, or
are worked out by hand from the rule cited; then the witnesses that the hypotheses of the statements can be met. -/

namespace Sys2Proof.Tests

open Sys2Proof.Machine

/-! ### Helpers -/

/-- A machine of one instance. -/
def only (x : Inst) : State := { insts := [x], cur := 0, port := [], response := .none }

/-- An encoder just constructed. -/
def encAt (w l : Nat) : Encoder := (Encoder.powerOn.configure w l).1

/-- A decoder just constructed. -/
def decAt (w l : Nat) : Decoder := (Decoder.powerOn.configure w l 0 0).1

/-- A decoder at `(4, 2)` in the middle of a session. -/
def decMid (stream : Buffer) (rpos : Nat) (out : Buffer) (st : DState) : Decoder :=
  { decAt 4 2 with br := { stream := stream, rpos := rpos }, out := out, dstate := st }

/-- A writer with given registers. -/
def writerOf (wbuf : Buffer) (acc : BitVec 8) (nacc : Fin 8) : Writer := { wbuf := wbuf, acc := acc, nacc := nacc }

/-- An operation answers a next state of which `p` holds. -/
def answers (o : Result) (p : State → Bool) : Bool :=
  match o with
  | .next t => p t
  | .fault _ => false
  | .refused _ => false

/-- An operation is refused as `r`. -/
def refusedAs (o : Result) (r : Refusal) : Bool :=
  match o with
  | .next _ => false
  | .fault _ => false
  | .refused r' => decide (r' = r)

/-- A machine of one instance that holds `x` and gave the response `r`. -/
def holds (x : Inst) (r : Response) (t : State) : Bool := decide (t.insts = [x] ∧ t.response = r)

/-! ### WellFormed refuses ill-formed instructions, one for each check -/

theorem test_wellFormed_offset_too_wide : (Instr.backref 16 0).wellFormed 4 2 = false := by decide
theorem test_wellFormed_length_too_wide : (Instr.backref 0 4).wellFormed 4 2 = false := by decide
theorem test_wellFormed_pair_not_legal : (Instr.backref 0 0).wellFormed 4 4 = false := by decide
theorem test_wellFormed_write_count : (Instr.writeBits 0 17).wellFormed 4 2 = false := by decide
theorem test_wellFormed_read_count : (Instr.readBits 17).wellFormed 4 2 = false := by decide
theorem test_wellFormed_accepts : (Instr.backref 15 3).wellFormed 4 2 = true ∧ (Instr.readBits 16).wellFormed 4 2 = true := by
  decide
theorem test_legal_pairs : legalParams 4 1 = true ∧ legalParams 15 14 = true ∧ legalParams 3 2 = false ∧
    legalParams 16 4 = false ∧ legalParams 8 0 = false ∧ legalParams 4 4 = false := by decide

/-! ### Decoding, words written out from the spec's encodings -/

/-- 95 A5: `101100001` is `Literal('a')`. -/
theorem test_decode_literal :
    decodeToken 4 2 [true, false, true, true, false, false, false, false, true] = .ok (.literal 0x61, []) := by decide
/-- 95 A5: `0000010` at (4, 2) is `BackRef(1, 3)`; the fields are stored less one. -/
theorem test_decode_backref :
    decodeToken 4 2 [false, false, false, false, false, true, false] = .ok (.backref 0 2, []) := by decide
/-- 95 B-DE13: `0 0001|00101011 0010` at (12, 4) is `BackRef(300, 3)`, both parts of the split offset not zero. -/
theorem test_decode_backref_split :
    decodeToken 12 4 [false, false, false, false, true, false, false, true, false, true, false, true, true, false, false,
      true, false] = .ok (.backref 299 2, []) := by decide
theorem test_decode_short_token :
    decodeToken 4 2 [true, false] = .error .exhausted ∧ decodeToken 4 2 [false, true] = .error .exhausted ∧
      decodeToken 4 2 [] = .error .exhausted := by decide
theorem test_decode_one_token_exactly :
    decode 4 2 (.token [false, false, false, false, false, true, false, true]) = .error .trailingBits := by decide
/-- 30_encoding.md R86, the codes of the host operations. -/
theorem test_decode_codec_codes :
    decodeHost { op := 0x0 } = .status ∧ decodeHost { op := 0x1, ports := { w := 8, l := 4 } } = .encConfig 8 4 ∧
      decodeHost { op := 0x2, ports := { bytes := [1] } } = .compress [1] ∧
      decodeHost { op := 0x3, ports := { w := 8, l := 4, hint := 7 } } = .decConfig 8 4 7 ∧
      decodeHost { op := 0x4, ports := { bytes := [1] } } = .process [1] ∧ decodeHost { op := 0x5 } = .getOutput := by
  decide
theorem test_decode_bit_io_codes :
    decodeHost { op := 0x8 } = .bwReset ∧
      decodeHost { op := 0x9, ports := { value := 5, count := 3 } } = .writeBits 5 3 ∧
      decodeHost { op := 0xA, ports := { byte := 9 } } = .writeByte 9 ∧ decodeHost { op := 0xB } = .flush ∧
      decodeHost { op := 0xC } = .brReset ∧ decodeHost { op := 0xD, ports := { bytes := [1] } } = .feed [1] ∧
      decodeHost { op := 0xE, ports := { count := 3 } } = .readBits 3 := by decide
theorem test_decode_reserved_codes :
    decodeHost { op := 0x6 } = .reserved .op6 ∧ decodeHost { op := 0x7 } = .reserved .op7 ∧
      decodeHost { op := 0xF } = .reserved .opF := by decide
/-- Rows of opcode_table.json: code 0x9; `0ooooooooooooolll` at (12, 3) read at the pair (8, 7) of the same length. -/
theorem test_decodeTableWord :
    decodeTableWord 8 0x9 = some (.writeBits 0 0) ∧ decodeTableWord 8 0x28 = some (.backref 5 0) ∧
      decodeTableWord 16 0x0123 = some (.backref 2 0x23) := by decide

/-! ### The bit writer -/

/-- 95 B-BW1, second write. -/
theorem test_writeBits_across_a_byte :
    answers (exec (.writeBits 0x61 8) (only (.bw (writerOf [] 0x80 1)))) (holds (.bw (writerOf [0xB0] 0x80 1)) .none) = true := by
  decide
/-- 95 B-BW2: sixteen bits at bit 3. -/
theorem test_writeBits_sixteen :
    answers (exec (.writeBits 0xFFFF 16) (only (.bw (writerOf [] 0xA0 3)))) (holds (.bw (writerOf [0xBF, 0xFF] 0xE0 3)) .none) = true := by
  decide
/-- 95 B-BW2's first write and B-BW4: bits of the value above the count are ignored. -/
theorem test_barrel_writer :
    (Writer.fresh.writeBitsBarrel 0x1FF 4) = writerOf [] 0xF0 4 ∧
      ((writerOf [] 0xA0 3).writeBitsBarrel 0xFFFF 16) = writerOf [0xBF, 0xFF] 0xE0 3 := by decide
/-- 40_bit_writer.md R93 with `nacc = 1`: the byte is `0x80 | (0x61 >> 1)`. -/
theorem test_writeByte :
    answers (exec (.writeByte 0x61) (only (.bw (writerOf [] 0x80 1)))) (holds (.bw (writerOf [0xB0] 0x80 1)) .none) = true := by
  decide
/-- 95 B-BW1, flush. -/
theorem test_flush_pads :
    answers (exec .flush (only (.bw (writerOf [0xB0] 0x80 1))))
      (holds (.bw (writerOf [0xB0, 0x80] 0 0)) (.bytes [0xB0, 0x80])) = true := by decide
/-- 95 B-BW3: no padding byte on a byte-aligned writer. -/
theorem test_flush_aligned :
    answers (exec .flush (only (.bw (writerOf [0xAB, 0xCD] 0 0))))
      (holds (.bw (writerOf [0xAB, 0xCD] 0 0)) (.bytes [0xAB, 0xCD])) = true := by decide
theorem test_bwReset :
    answers (exec .bwReset (only (.bw (writerOf [1] 0x80 1)))) (holds (.bw (writerOf [] 0 0)) .none) = true := by decide

/-! ### The bit reader -/

/-- 95 B-BR1, the second read. -/
theorem test_readBits_across_a_byte :
    answers (exec (.readBits 8) (only (.br { stream := [0xB0, 0x80], rpos := 1 })))
      (holds (.br { stream := [0xB0, 0x80], rpos := 9 }) (.value 0x61)) = true := by decide
/-- 95 B-BR1, the third read: 7 bits left. -/
theorem test_readBits_exhausted :
    answers (exec (.readBits 8) (only (.br { stream := [0xB0, 0x80], rpos := 9 })))
      (holds (.br { stream := [0xB0, 0x80], rpos := 9 }) .exhausted) = true := by decide
/-- 95 B-BR2: sixteen bits over three bytes, in the barrel form. -/
theorem test_barrel_reader :
    (Reader.barrelValue { stream := [0xBF, 0xFF, 0xE8], rpos := 3 } 16 == 0xFFFF) = true := by decide +kernel
/-- 95 B-BR3: a split field. -/
theorem test_field_split_read :
    ((Reader.readField { stream := [0x12, 0xB1], rpos := 0 } 12).map Prod.fst == some 0x12B) = true := by rfl
theorem test_feed :
    answers (exec (.feed [0x80]) (only (.br { stream := [0xB0], rpos := 1 })))
      (holds (.br { stream := [0xB0, 0x80], rpos := 1 }) .none) = true := by decide
theorem test_brReset :
    answers (exec .brReset (only (.br { stream := [0xB0], rpos := 1 }))) (holds (.br .fresh) .none) = true := by decide

/-! ### Construction and status -/

/-- 95 B-CF9: (16, 0) violates two checks. -/
theorem test_encConfig_error :
    answers (exec (.encConfig 16 0) (only (.enc (encAt 8 4))))
      (fun t => decide (t.response = .configError 3) && match t.inst? with
        | some (.enc e) => decide (e.statusReg = 0x02 ∧ e.ctl.cause = .configError ∧ e.ctl.info = .mask 3)
        | _ => false) = true := by decide
/-- 95 B-CF14: a good construction after a failed one clears the fault. -/
theorem test_encConfig_clears :
    answers (exec (.encConfig 8 4) (only (.enc (Encoder.powerOn.configure 4 4).1)))
      (fun t => decide (t.response = .ok) && match t.inst? with
        | some (.enc e) => decide (e.statusReg = 0x01 ∧ e.ctl.w = 8 ∧ e.ctl.l = 4)
        | _ => false) = true := by decide
/-- 95 B-CF11 on a decoder. -/
theorem test_decConfig_error :
    answers (exec (.decConfig 16 16 3) (only (.dec (decMid [1] 3 [2] .literal))))
      (fun t => decide (t.response = .configError 5) && match t.inst? with
        | some (.dec d) => decide (d.statusReg = 0x02 ∧ d.br = .fresh ∧ d.out = [])
        | _ => false) = true := by decide
/-- 43_decoder.md R145, example, with a hint. -/
theorem test_decConfig :
    answers (exec (.decConfig 8 4 9) (only (.dec (decMid [1] 3 [2] .literal))))
      (holds (.dec { decAt 8 4 with capHint := 9 }) .ok) = true := by decide
/-- 43_decoder.md R156, example: `0b0001_1001`. -/
theorem test_status_starved :
    answers (exec .status (only (.dec { decMid [0xB0] 8 [] .backRef with starved := true })))
      (fun t => decide (t.response = .status 0x19 .none .zero)) = true := by decide
/-- 95 P5: `STATUS = 0x0B` after a corruption. -/
theorem test_status_corrupt :
    answers (exec .status (only (.dec ((decAt 4 2).processed [0xB0, 0x88]))))
      (fun t => decide (t.response = .status 0x0B .corrupt (.corrupt 3 1))) = true := by decide
theorem test_reserved_refused : refusedAs (exec (.reserved .op6) (only (.enc (encAt 4 2)))) .badOp = true := by decide

/-! ### The encoder -/

/-- 95 A5. -/
theorem test_compress_overlap :
    answers (exec (.compress [0x61, 0x61, 0x61, 0x61]) (only (.enc (encAt 4 2))))
      (fun t => decide (t.response = .bytes [0xB0, 0x82])) = true := by decide
/-- 10_state.md R31: the scratch registers of an earlier call do not outlive the start of the next, even on empty input. -/
theorem witness_CompressDependsOnInputAndParametersOnly_fresh :
    answers (exec (.compress []) (only (.enc ((encAt 4 2).compressed [0x61, 0x61, 0x61]))))
      (holds (.enc (encAt 4 2)) (.bytes [])) = true := by decide
/-- 95 B-EN6 and P4: a tie keeps the farther candidate. -/
theorem test_compress_tie :
    answers (exec (.compress [0x61, 0x62, 0x63, 0x61, 0x62, 0x64, 0x61, 0x62, 0x65]) (only (.enc (encAt 4 2))))
      (fun t => decide (t.response = .bytes [0xB0, 0xD8, 0xAC, 0x62, 0x6C, 0x85, 0x6C, 0xA0])) = true := by decide +kernel

/-! ### The decoder -/

/-- 95 A5: the overlapping copy. -/
theorem test_process_overlap :
    answers (exec (.process [0xB0, 0x82]) (only (.dec (decAt 4 2))))
      (fun t => decide (t.response = .ok) && match t.inst? with
        | some (.dec d) => decide (d.out = [0x61, 0x61, 0x61, 0x61] ∧ d.dstate = .awaitTag ∧ d.br.rpos = 16 ∧ d.starved = false)
        | _ => false) = true := by decide
/-- 95 B-DE3: offset 3 with one byte decoded. -/
theorem test_process_corrupt :
    answers (exec (.process [0xB0, 0x88]) (only (.dec (decAt 4 2))))
      (fun t => decide (t.response = .corrupt 3 1) && match t.inst? with
        | some (.dec d) => decide (d.out = [0x61] ∧ d.dstate = .backRef ∧ d.br.rpos = 16 ∧ d.starved = false)
        | _ => false) = true := by decide
/-- 95 P5: the output survives a corruption. -/
theorem test_getOutput_after_corrupt :
    answers (exec .getOutput (only (.dec ((decAt 4 2).processed [0xB0, 0x88]))))
      (fun t => decide (t.response = .bytes [0x61])) = true := by decide
/-- 95 P1, steps 1 and 2. -/
theorem test_literal_token :
    answers (exec (.literal 0x61) (only (.dec (decMid [0xB0, 0x82] 0 [] .awaitTag))))
      (holds (.dec (decMid [0xB0, 0x82] 9 [0x61] .awaitTag)) .none) = true := by decide
/-- 95 P1, steps 3 and 4. -/
theorem test_backref_token :
    answers (exec (.backref 0 2) (only (.dec (decMid [0xB0, 0x82] 9 [0x61] .awaitTag))))
      (holds (.dec { decMid [0xB0, 0x82] 16 [0x61, 0x61, 0x61, 0x61] .awaitTag with tokOff := 1, tokLen := 3 }) .none) = true := by
  decide
/-- 95 B-DE2: nothing to refer to. -/
theorem test_backref_token_corrupt :
    answers (exec (.backref 0 0) (only (.dec (decMid [0] 0 [] .awaitTag))))
      (fun t => decide (t.response = .corrupt 1 0) && match t.inst? with
        | some (.dec d) => decide (d.statusReg = 0x0B ∧ d.br.rpos = 7 ∧ d.out = [])
        | _ => false) = true := by decide

/-! ### The step -/

/-- 95 B-CF13: `PROCESS` at power-on, through a step. -/
theorem test_step_returns_a_refusal :
    answers (step { State.reset with port := [{ target := 1, word := { op := 0x4 } }] })
      (fun t => decide (t = { State.reset with cur := 1, response := .refused .notConfigured })) = true := by decide
theorem test_step_idle : answers (step State.reset) (fun t => decide (t = State.reset)) = true := by decide
theorem test_withFetchWord_host :
    answers (step (State.reset.withFetchWord 8 0x9)) (fun t => decide (t.cur = 2 ∧ t.port = [] ∧ t.response = .none)) = true := by
  decide
theorem test_withFetchWord_token :
    answers (step (State.reset.withFetchWord 16 0x0123)) (fun t => decide (t.cur = 1 ∧ t.response = .corrupt 3 0)) = true := by
  decide
theorem test_step_missing_target :
    (match step { State.reset with port := [{ target := 9, word := { op := 0x0 } }] } with
      | .fault .noInstance => true
      | _ => false) = true := by decide

/-! ### Witnesses: the hypotheses of the statements can be met, each clause at a boundary of its range -/

theorem witness_DecodeOfEncodeIsTheInstruction :
    (Instr.backref 32767 16383).wellFormed 15 14 = true ∧ (Instr.writeBits 0xFFFF 16).wellFormed 4 1 = true := by decide
theorem witness_EncodeOfDecodedTokenIsTheBits :
    decodeToken 4 1 [false, true, true, true, true, true, false] = .ok (.backref 15 1, [false]) ∧ legalParams 4 1 = true := by
  decide
theorem witness_TagBitAloneSelectsTheToken :
    8 ≤ (List.replicate 8 false).length ∧ 4 + 1 ≤ (List.replicate 5 true).length ∧ (List.replicate 7 true).length < 8 ∧
      (List.replicate 4 true).length < 4 + 1 := by decide
theorem witness_FieldSplitKeepsTheBits : 8 < 9 ∧ 511 < 2 ^ 9 := by decide
theorem witness_StepRunsTheDecodedInstruction_next :
    answers (exec .getOutput (({ State.reset with port := [] }).accept { target := 1, word := { op := 0x5 } } []))
      (fun _ => true) = true ∧ decodeHost { op := 0x5 } = .getOutput := by decide
theorem witness_StepRunsTheDecodedInstruction_refused :
    refusedAs (exec (.reserved .opF) (State.reset.accept { target := 0, word := { op := 0xF } } [])) .badOp = true ∧
      Refusal.badOp.isReturned = true := by decide
theorem witness_StepRunsTheDecodedInstruction_fault :
    (match exec .status (State.reset.accept { target := 9, word := { op := 0x0 } } []) with
      | .fault .noInstance => true
      | _ => false) = true := by decide
theorem witness_StepRunsTheDecodedInstruction_token :
    (only (.dec (decMid [0xB0, 0x80] 0 [] .awaitTag))).port = [] ∧
      (decMid [0xB0, 0x80] 0 [] .awaitTag).ctl.configured = true ∧ (decMid [0xB0, 0x80] 0 [] .awaitTag).ctl.fault = false ∧
      decodeToken 4 2 (decMid [0xB0, 0x80] 0 [] .awaitTag).tokenBitsAt =
        .ok (.literal 0x61, [false, false, false, false, false, false, false]) := by decide

/-- The state after reset is between operations: a witness for every statement whose premise is `State.Inv`. -/
theorem witness_State_Inv : State.reset.Inv := by
  intro x hx
  simp only [State.reset, List.mem_cons, List.not_mem_nil, or_false] at hx
  rcases hx with rfl | rfl | rfl | rfl
  · refine ⟨⟨fun h => ?_, .inl ⟨rfl, rfl, rfl⟩⟩, ?_, rfl, rfl, rfl, ?_, ?_, ?_⟩
    · cases h
    all_goals decide
  · refine ⟨⟨fun h => ?_, .inl ⟨rfl, rfl, rfl⟩⟩, Nat.zero_le _, rfl, fun h => ?_, ?_, ?_, fun _ => ⟨rfl, rfl, rfl⟩, fun h => ?_⟩
    · cases h
    · cases h.1
    · decide
    · decide
    · cases h
  · exact (by decide : (0 : Nat) % 256 = 0)
  · exact Nat.zero_le _

theorem witness_NothingHappensBetweenOperations : State.reset.Inv ∧ State.reset.port = [] := ⟨witness_State_Inv, rfl⟩

/-- Reset with one operation issued: its instances are those of reset, so the invariant holds of it. -/
def issued (target : Nat) (word : HostWord) : State := { State.reset with port := [{ target := target, word := word }] }

theorem witness_StepKeepsTheInvariant :
    (issued 1 { op := 0x3, ports := { w := 4, l := 1 } }).Inv ∧
      answers (step (issued 1 { op := 0x3, ports := { w := 4, l := 1 } })) (fun _ => true) = true :=
  ⟨witness_State_Inv, by decide⟩

/-! Frames over all instructions. -/

theorem witness_OnlyTheAddressedInstanceChanges :
    answers (exec (.writeByte 1) { State.reset with cur := 2 }) (fun t => decide (t.insts[2]? ≠ State.reset.insts[2]?)) = true ∧
      3 ≠ ({ State.reset with cur := 2 } : State).cur := by decide
theorem witness_OperationsOnDifferentInstancesCommute :
    (2 : Nat) ≠ 3 ∧ answers (exec (.writeByte 1) { State.reset with cur := 2 })
      (fun t => answers (exec (.feed [1]) { t with cur := 3 }) (fun _ => true)) = true := by decide

/-- An operation answers a next state in which the addressed instance is one of which `p` holds. -/
def answersInst (o : Result) (p : Inst → Bool) : Bool :=
  answers o fun t => match t.inst? with
    | some x => p x
    | none => false

/-- The control registers of an instance satisfy `p`. -/
def ctlHas (p : Control → Bool) (x : Inst) : Bool :=
  match x.control? with
  | some c => p c
  | none => false

theorem witness_BuffersAreAppendOnly_dec :
    answersInst (exec (.process [0x82]) (only (.dec (decMid [0xB0] 9 [0x61] .awaitTag)))) Inst.isDec = true ∧
      (∀ w l h, Instr.process [0x82] ≠ .decConfig w l h) ∧ 0 < (decMid [0xB0] 9 [0x61] .awaitTag).out.length ∧
      0 < (decMid [0xB0] 9 [0x61] .awaitTag).br.stream.length :=
  ⟨by decide, by simp, by decide, by decide⟩
theorem witness_BuffersAreAppendOnly_bw :
    answersInst (exec (.writeByte 7) (only (.bw (writerOf [1] 0 0)))) (fun x => decide (x = .bw (writerOf [1, 7] 0 0))) = true ∧
      Instr.writeByte 7 ≠ .bwReset ∧ 0 < (writerOf [1] 0 0).wbuf.length := by decide
theorem witness_BuffersAreAppendOnly_br :
    answersInst (exec (.feed [7]) (only (.br { stream := [1], rpos := 8 })))
        (fun x => decide (x = .br { stream := [1, 7], rpos := 8 })) = true ∧
      Instr.feed [7] ≠ .brReset ∧ 0 < (Reader.mk [1] 8).stream.length := by decide
theorem witness_BuffersAreAppendOnly_enc :
    answersInst (exec .status (only (.enc (encAt 4 2)))) (fun x => decide (x = .enc (encAt 4 2))) = true ∧
      (∀ w l, Instr.status ≠ .encConfig w l) ∧ ∀ input, Instr.status ≠ .compress input :=
  ⟨by decide, by simp, by simp⟩

/-- A decoder at `(4, 2)` with a corruption recorded, as `PROCESS([0x00])` leaves it. -/
def decFaulted : Decoder := (decAt 4 2).processed [0x00]

/-- An encoder whose construction failed. -/
def encFaulted : Encoder := (Encoder.powerOn.configure 16 0).1

theorem witness_FaultRecordIsSticky :
    decFaulted.ctl.fault = true ∧
      answersInst (exec .getOutput (only (.dec decFaulted))) (ctlHas fun c => decide (c = decFaulted.ctl)) = true ∧
      (∀ w l, Instr.getOutput ≠ .encConfig w l ∧ ∀ h, Instr.getOutput ≠ .decConfig w l h) ∧
      answersInst (exec (.decConfig 4 4 0) (only (.dec decFaulted))) (ctlHas fun c => c.fault) = true ∧
      answersInst (exec (.decConfig 4 1 0) (only (.dec decFaulted))) (ctlHas fun c => !c.fault) = true ∧
      answersInst (exec (.encConfig 15 14) (only (.enc encFaulted))) (ctlHas fun c => !c.fault) = true :=
  ⟨by decide, by decide, by simp, by decide, by decide, by decide⟩
theorem witness_FaultIsSetOnlyByItsTwoCauses :
    (encAt 4 2).ctl.fault = false ∧ (decAt 4 2).ctl.fault = false ∧
      answersInst (exec (.encConfig 16 0) (only (.enc (encAt 4 2)))) (ctlHas fun c => c.fault) = true ∧
      answersInst (exec (.process [0x00]) (only (.dec (decAt 4 2)))) (ctlHas fun c => c.fault) = true ∧
      answersInst (exec (.backref 0 0) (only (.dec (decMid [0x00] 0 [] .awaitTag)))) (ctlHas fun c => c.fault) = true := by
  decide
theorem witness_ParametersAreWrittenOnlyByAPassedConstruction :
    answersInst (exec (.encConfig 15 14) (only (.enc (encAt 4 1)))) (ctlHas fun c => decide (c.w = 15 ∧ c.l = 14)) = true ∧
      answersInst (exec (.decConfig 16 14 0) (only (.dec (decAt 4 1)))) (ctlHas fun c => decide (c.w = 4 ∧ c.l = 1)) = true := by
  decide

/-! Refusals. -/

theorem witness_WrongKindIsRefusedAsBadOp :
    (only (.br .fresh)).inst? = some (.br .fresh) ∧ runsOn .flush (.br .fresh) = false ∧
      runsOn (.literal 0) (.br .fresh) = false ∧ runsOn (.reserved .op6) (.br .fresh) = false := by decide
theorem witness_UnreadyInstanceRefusesWork :
    Encoder.powerOn.ctl.configured = false ∧ Encoder.powerOn.ctl.fault = false ∧ encFaulted.ctl.fault = true ∧
      Decoder.powerOn.ctl.configured = false ∧ Decoder.powerOn.ctl.fault = false ∧ decFaulted.ctl.fault = true := by decide
theorem witness_RefusedRequestReturnsItsName :
    (issued 0 { op := 0xE }).port = [{ target := 0, word := { op := 0xE } }] ∧
      (issued 0 { op := 0xE }).insts[0]? = some (.enc .powerOn) ∧
      runsOn (decodeHost { op := 0xE }) (.enc .powerOn) = false := by decide

/-- A machine of one instance with one operation issued to it. -/
def onlyIssued (x : Inst) (word : HostWord) : State := { only x with port := [{ target := 0, word := word }] }

/-- The other clauses: `NotConfigured`, `Faulted` and `BadCount`, the last at the first count that is too large. -/
theorem witness_RefusedRequestReturnsItsName_others :
    decodeHost { op := 0x4, ports := { bytes := [1] } } = .process [1] ∧ runsOn (.process [1]) (.dec .powerOn) = true ∧
      Decoder.powerOn.ctl.configured = false ∧ Decoder.powerOn.ctl.fault = false ∧
      decodeHost { op := 0x2 } = .compress [] ∧ runsOn (.compress []) (.enc encFaulted) = true ∧
      encFaulted.ctl.fault = true ∧ decodeHost { op := 0x9, ports := { count := 17 } } = .writeBits 0 17 ∧
      runsOn (.writeBits 0 17) (.bw .fresh) = true ∧ decodeHost { op := 0xE, ports := { count := 17 } } = .readBits 17 ∧
      runsOn (.readBits 17) (.br .fresh) = true ∧ (16 : Nat) < 17 := by decide
theorem witness_RefusedRequestReturnsItsName_badCount :
    answers (step (onlyIssued (.br .fresh) { op := 0xE, ports := { count := 17 } }))
      (fun t => decide (t = { only (.br .fresh) with response := .refused .badCount })) = true := by decide
theorem witness_RefusedRequestReturnsItsName_faulted :
    answers (step (onlyIssued (.enc encFaulted) { op := 0x2 }))
      (fun t => decide (t = { only (.enc encFaulted) with response := .refused (.faulted .configError (.mask 3)) })) = true := by
  decide

/-- One byte fits, two do not: the two outcomes of the statement, for each operation. -/
def oneByte : Caps := { inCap := some 1, wbufCap := some 1, streamCap := some 1, outCap := some 1 }

theorem witness_FiniteCapacityRefusesWhole_writer :
    answersInst (exec (.writeBits 0 15) (only (.bw .fresh))) (Inst.fitsCaps oneByte) = true ∧
      answersInst (exec (.writeBits 0 16) (only (.bw .fresh))) (fun x => !x.fitsCaps oneByte) = true ∧
      answersInst (exec (.writeByte 0) (only (.bw .fresh))) (Inst.fitsCaps oneByte) = true ∧
      answersInst (exec (.writeByte 0) (only (.bw (writerOf [1] 0 0)))) (fun x => !x.fitsCaps oneByte) = true ∧
      answersInst (exec .flush (only (.bw (writerOf [] 0x80 1)))) (Inst.fitsCaps oneByte) = true ∧
      answersInst (exec .flush (only (.bw (writerOf [1] 0x80 1)))) (fun x => !x.fitsCaps oneByte) = true := by decide
theorem witness_FiniteCapacityRefusesWhole_others :
    answersInst (exec (.feed [1]) (only (.br .fresh))) (Inst.fitsCaps oneByte) = true ∧
      answersInst (exec (.feed [1, 2]) (only (.br .fresh))) (fun x => !x.fitsCaps oneByte) = true ∧
      answersInst (exec (.compress []) (only (.enc (encAt 4 2)))) (Inst.fitsCaps oneByte) = true ∧
      answersInst (exec (.compress [1]) (only (.enc (encAt 4 2)))) (fun x => !x.fitsCaps oneByte) = true ∧
      answersInst (exec (.process [0xB0]) (only (.dec (decAt 4 2)))) (Inst.fitsCaps oneByte) = true ∧
      answersInst (exec (.process [0xB0, 0x80]) (only (.dec (decAt 4 2)))) (fun x => !x.fitsCaps oneByte) = true := by decide

/-! The writer and the reader. -/

theorem witness_BwResetMakesAFreshWriter : (only (.bw (writerOf [1] 0x80 1))).inst? = some (.bw (writerOf [1] 0x80 1)) := rfl
theorem witness_WriteBitsAppendsTheLowBits :
    (only (.bw (writerOf [1] 0xFE 7))).inst? = some (.bw (writerOf [1] 0xFE 7)) ∧ (writerOf [1] 0xFE 7).Inv ∧ (0 : Nat) ≤ 16 ∧
      (16 : Nat) ≤ 16 ∧ (16 : Nat) < 17 := by simp only [Writer.Inv]; decide
theorem witness_BarrelWriterEqualsTheLoop : (writerOf [] 0xFE 7).Inv := by simp only [Writer.Inv]; decide
theorem witness_WriteByteCompletesOneByte : (only (.bw (writerOf [1] 0xFE 7))).inst? = some (.bw (writerOf [1] 0xFE 7)) := rfl
theorem witness_FlushPadsAndReturnsTheBuffer :
    (only (.bw (writerOf [1] 0xFE 7))).inst? = some (.bw (writerOf [1] 0xFE 7)) ∧ (writerOf [1] 0xFE 7).Inv ∧
      Writer.fresh.Inv := by simp only [Writer.Inv]; decide
theorem witness_BrResetMakesAFreshReader : (only (.br (Reader.mk [1] 8))).inst? = some (.br (Reader.mk [1] 8)) := rfl
theorem witness_FeedAppendsTheChunk :
    (only (.br (Reader.mk [1] 8))).inst? = some (.br (Reader.mk [1] 8)) ∧ (Reader.mk [1] 8).Inv ∧
      oneByte.streamCap = some 1 ∧ 1 < (Reader.mk [1] 8).stream.length + [(7 : Byte)].length := by
  simp only [Reader.Inv]; decide
theorem witness_ReadBitsAnswersTheNextBits :
    (only (.br (Reader.mk [1, 2] 8))).inst? = some (.br (Reader.mk [1, 2] 8)) ∧ (8 : Nat) ≤ 16 ∧
      8 ≤ (Reader.mk [1, 2] 8).avail ∧ (9 : Nat) ≤ 16 ∧ (Reader.mk [1, 2] 8).avail < 9 ∧ 16 < 17 ∧
      16 ≤ (Reader.mk [1, 2] 0).avail ∧ 0 ≤ Reader.fresh.avail := by decide
theorem witness_ExhaustedReadSucceedsOnceFed :
    (only (.br (Reader.mk [1] 1))).inst? = some (.br (Reader.mk [1] 1)) ∧ (Reader.mk [1] 1).Inv ∧ 15 ≤ 16 ∧
      (Reader.mk [1] 1).avail < 15 ∧ 15 ≤ (Reader.mk [1] 1).avail + 8 * [(2 : Byte)].length := by
  simp only [Reader.Inv]; decide
theorem witness_BarrelReaderEqualsTheLoop :
    1 ≤ 9 ∧ 9 ≤ (Reader.mk [1, 2] 7).avail ∧ 1 ≤ 1 ∧ 1 ≤ (Reader.mk [1] 7).avail := by decide
theorem witness_FieldReadIsOneRead :
    15 ≤ (Reader.mk [1, 2] 1).avail ∧ 9 ≤ (Reader.mk [1, 2] 7).avail ∧ 8 ≤ (Reader.mk [1, 2] 8).avail := by decide

/-! Construction and status. -/

theorem witness_EncConfigConstructsOrFaults :
    (only (.enc encFaulted)).inst? = some (.enc encFaulted) ∧ legalParams 4 1 = true ∧ legalParams 15 14 = true ∧
      legalParams 3 2 = false ∧ legalParams 4 0 = false ∧ legalParams 4 4 = false ∧ legalParams 16 15 = false := by decide
theorem witness_DecConfigConstructsOrFaults : (only (.dec decFaulted)).inst? = some (.dec decFaulted) := rfl
theorem witness_StatusAnswersTheRegisters :
    (only (.enc encFaulted)).inst? = some (.enc encFaulted) ∧
      (only (.dec (decMid [0xB0] 8 [] .literal))).inst? = some (.dec (decMid [0xB0] 8 [] .literal)) := ⟨rfl, rfl⟩

/-! The encoder. -/

theorem witness_CompressAnswersTheFlushedBuffer :
    (only (.enc (encAt 4 1))).inst? = some (.enc (encAt 4 1)) ∧ (encAt 4 1).ctl.Ready ∧ (encAt 15 14).ctl.Ready := by
  simp only [Control.Ready]; decide
theorem witness_CompressedBytesAreTheTokens :
    (only (.enc (encAt 4 2))).inst? = some (.enc (encAt 4 2)) ∧
      answers (exec (.compress [0x61, 0x61]) (only (.enc (encAt 4 2)))) (fun _ => true) = true := by decide
theorem witness_SearchIsTheComparatorArray :
    ((encAt 4 2).load [0x61, 0x61]).pos < ((encAt 4 2).load [0x61, 0x61]).input.length ∧
      { (encAt 4 2).load [0x61, 0x61, 0x62] with pos := 1 }.pos < { (encAt 4 2).load [0x61, 0x61, 0x62] with pos := 1 }.input.length ∧
      1 ≤ { (encAt 4 2).load [0x61, 0x61, 0x62] with pos := 1 }.search.bestLen ∧
      ((encAt 4 2).load [0x61, 0x61]).search.bestLen = 0 := by decide
theorem witness_SearchResultsAreInBounds :
    ((encAt 4 2).load [0x61, 0x61]).pos = 0 ∧ ((encAt 4 2).load [0x61, 0x61]).pos < 2 ∧
      { (encAt 4 2).load [0x61, 0x61] with pos := 1 }.pos + 1 = { (encAt 4 2).load [0x61, 0x61] with pos := 1 }.input.length := by
  decide
theorem witness_EmittedTokensAreWellFormed :
    legalParams (encAt 4 1).ctl.w.toNat (encAt 4 1).ctl.l.toNat = true ∧
      legalParams (encAt 15 14).ctl.w.toNat (encAt 15 14).ctl.l.toNat = true ∧
      .backref 0 1 ∈ (encAt 4 1).tokens [0x61, 0x61, 0x61] ∧ 0 < ((encAt 4 1).tokens [0x61, 0x61, 0x61]).length ∧
      1 < ((encAt 4 1).tokens [0x61, 0x61, 0x61]).length := by decide
/-- The token that begins at `pos = 1` of "aaa" is a back-reference, since the search there finds length 2 at offset 1. -/
theorem witness_EmittedTokensAreWellFormed_search :
    tokenStart ((encAt 4 1).tokens [0x61, 0x61, 0x61]) 1 = 1 ∧
      { (encAt 4 1).load [0x61, 0x61, 0x61] with pos := 1 }.search.bestLen = 2 ∧
      { (encAt 4 1).load [0x61, 0x61, 0x61] with pos := 1 }.search.bestOff = 1 ∧
      ((encAt 4 1).tokens [0x61, 0x61, 0x61])[1]? = some (.backref 0 1) := by decide
theorem witness_CompressDependsOnInputAndParametersOnly :
    (encAt 4 2).ctl = ((encAt 4 2).compressed [1]).ctl ∧ (encAt 4 2).ctl.w = ((encAt 4 2).compressed [1]).ctl.w ∧ (encAt 4 2).ctl.l = ((encAt 4 2).compressed [1]).ctl.l ∧
      answers (exec (.compress [2]) (only (.enc (encAt 4 2)))) (fun _ => true) = true ∧
      answers (exec (.compress [2]) (only (.enc ((encAt 4 2).compressed [1])))) (fun _ => true) = true := by decide

/-- "aab" has the pair "aa" at 0 and none at 1: bytes repeat, pairs do not. -/
theorem witness_NoRepeatedPairGivesLiteralsOnly :
    ∀ pos i, 1 ≤ pos → pos < [(0x61 : Byte), 0x61, 0x62].length → i < pos → pos ≤ i + 2 ^ (encAt 4 2).ctl.w.toNat →
      ¬(memRead [(0x61 : Byte), 0x61, 0x62] i = memRead [(0x61 : Byte), 0x61, 0x62] pos ∧
        memRead [(0x61 : Byte), 0x61, 0x62] (i + 1) = memRead [(0x61 : Byte), 0x61, 0x62] (pos + 1)) := by
  intro pos i h1 h2 h3 _
  have h2' : pos < 3 := h2
  interval_cases pos <;> interval_cases i <;> decide

/-! The decoder. -/

theorem witness_LiteralTokenAppendsItsByte :
    let d := decMid [0xB0, 0x82] 7 [] .awaitTag
    let at' := fun st rpos => decMid [0xB0, 0x82] rpos [] st
    (only (.dec d)).inst? = some (.dec d) ∧ (d.ctl.configured = true ∧ d.ctl.fault = false) ∧
      9 ≤ (at' .awaitTag 7).br.avail ∧ 8 ≤ (at' .literal 8).br.avail ∧
      (1 ≤ (at' .awaitTag 8).br.avail ∧ (at' .awaitTag 8).br.avail < 9) ∧
      (1 ≤ (at' .awaitTag 15).br.avail ∧ (at' .awaitTag 15).br.avail < 9) ∧ (at' .awaitTag 16).br.avail = 0 ∧
      (at' .literal 9).br.avail < 8 := by decide
theorem witness_BackrefTokenRepeatsTheOutput :
    let d := decMid [0xB0, 0x82] 9 [0x61] .awaitTag
    let d' := decMid [0xB0, 0x82] 10 [0x61] .backRef
    (only (.dec d)).inst? = some (.dec d) ∧ (d.ctl.configured = true ∧ d.ctl.fault = false) ∧ 0 + 1 ≤ d.out.length ∧
      1 + (d.ctl.w.toNat + d.ctl.l.toNat) ≤ d.br.avail ∧ (only (.dec d')).inst? = some (.dec d') ∧
      (d'.ctl.configured = true ∧ d'.ctl.fault = false) ∧ 0 + 1 ≤ d'.out.length ∧
      d'.ctl.w.toNat + d'.ctl.l.toNat ≤ d'.br.avail := by decide
theorem witness_BackrefBeyondTheOutputIsCorrupt :
    let d := decMid [0xB0, 0x88] 9 [0x61] .awaitTag
    let d' := decMid [0xB0, 0x88] 10 [0x61] .backRef
    (only (.dec d)).inst? = some (.dec d) ∧ (d.ctl.configured = true ∧ d.ctl.fault = false) ∧ d.out.length < 1 + 1 ∧
      1 + (d.ctl.w.toNat + d.ctl.l.toNat) ≤ d.br.avail ∧ (only (.dec d')).inst? = some (.dec d') ∧
      (d'.ctl.configured = true ∧ d'.ctl.fault = false) ∧ d'.out.length < 1 + 1 ∧
      d'.ctl.w.toNat + d'.ctl.l.toNat ≤ d'.br.avail := by decide
theorem witness_IncompleteBackrefConsumesNoField :
    let d := decMid [0xB0, 0x88] 10 [0x61] .awaitTag
    let width := d.ctl.w.toNat + d.ctl.l.toNat
    (only (.dec d)).inst? = some (.dec d) ∧ (d.ctl.configured = true ∧ d.ctl.fault = false) ∧
      (1 ≤ d.br.avail ∧ d.br.avail < 1 + width) ∧
      (1 ≤ (decMid [0xB0, 0x88] 15 [] .awaitTag).br.avail ∧ (decMid [0xB0, 0x88] 15 [] .awaitTag).br.avail < 1 + width) ∧
      (decMid [0xB0, 0x88] 16 [] .awaitTag).br.avail = 0 ∧ (decMid [0xB0, 0x88] 11 [] .backRef).br.avail < width := by decide
theorem witness_FsmExecutesTheDecodedToken :
    let d := decMid [0xB0, 0x88] 10 [0x61] .backRef
    (only (.dec d)).inst? = some (.dec d) ∧ (d.ctl.configured = true ∧ d.ctl.fault = false) ∧
      decodeToken d.ctl.w.toNat d.ctl.l.toNat d.tokenBitsAt = .ok (.backref 2 0, []) := by decide
theorem witness_ProcessRunsStepsUntilOneEnds :
    legalParams (decAt 4 2).ctl.w.toNat (decAt 4 2).ctl.l.toNat = true ∧
      (decMid [0xB0] 0 [] .awaitTag).fsmStep = .ran (decMid [0xB0] 1 [] .literal) ∧
      (decMid [0xB0] 1 [] .literal).fsmStep = .suspended (decMid [0xB0] 1 [] .literal) ∧
      (match (decMid [0x00] 1 [] .backRef).fsmStep with
        | .corrupt _ => true
        | _ => false) = true := by decide
theorem witness_ProcessAnswersOkOrCorrupt :
    let d := decMid [0xB0] 8 [] .literal
    (only (.dec d)).inst? = some (.dec d) ∧ (d.ctl.configured = true ∧ d.ctl.fault = false) ∧
      legalParams d.ctl.w.toNat d.ctl.l.toNat = true ∧ d.br.Inv := by simp only [Reader.Inv]; decide
theorem witness_ChunkingDoesNotMatter :
    let s := only (.dec (decAt 4 2))
    s.inst? = some (.dec (decAt 4 2)) ∧ ((decAt 4 2).ctl.configured = true ∧ (decAt 4 2).ctl.fault = false) ∧
      legalParams (decAt 4 2).ctl.w.toNat (decAt 4 2).ctl.l.toNat = true ∧
      answers (exec (.process [0xB0]) s) (fun t => decide (t.response = .ok)) = true ∧
      answers (exec (.process ([0xB0] ++ [0x82])) s) (fun _ => true) = true ∧
      answers (exec (.process [0x00]) s) (fun t => decide (t.response ≠ .ok)) = true ∧
      answers (exec (.process ([0x00] ++ [0x82])) s) (fun _ => true) = true := by decide
theorem witness_GetOutputReadsTheOutput : (only (.dec decFaulted)).inst? = some (.dec decFaulted) := rfl
/-- The number of padding bits of `COMPRESS(b)` at `(w, l)`, as the statement computes it. -/
def paddingOf (w l : Nat) (b : Buffer) : Nat :=
  (8 - (((encAt w l).tokens b).flatMap (tokenBits w l)).length % 8) % 8

/-- Both clauses at their boundary: one bit too few for a spurious token, and just enough. -/
theorem witness_DecoderRecoversWhatWasCompressed :
    State.reset.insts[0]? = some (.enc .powerOn) ∧ State.reset.insts[1]? = some (.dec .powerOn) ∧
      legalParams 4 1 = true ∧ ([[0xB0], [], [0xD8, 0x40]] : List Buffer).flatten = [0xB0, 0xD8, 0x40] ∧
      paddingOf 4 1 [0x61, 0x62, 0x63] < 1 + 4 + 1 ∧ 1 + 4 + 1 ≤ paddingOf 4 1 [0x61, 0x62] := by decide

/-- The clauses of `PaddingOutcome`: none; one bit; all but one of a token; a token exactly; one bit more. -/
theorem witness_PaddingOutcome :
    legalParams 4 1 = true ∧ legalParams 15 14 = true ∧ paddingOf 4 1 [] = 0 ∧
      paddingOf 4 2 [0x61, 0x61, 0x61, 0x61] = 0 ∧ paddingOf 8 4 [0x61] = 7 ∧ 1 + 8 + 4 > 7 ∧
      paddingOf 4 1 [0x61, 0x62] = 6 ∧ 1 + 4 + 1 = 6 ∧ paddingOf 4 1 [0x61] = 7 ∧
      paddingOf 4 1 [0x61, 0x62, 0x63] = 5 ∧ paddingOf 5 1 [0x61] = 7 ∧
      paddingOf 4 1 [0x61, 0x62, 0x63, 0x64, 0x65, 0x66, 0x67] = 1 := by decide

end Sys2Proof.Tests
end

/-! SUPPORT. The scope of an operation (00_scope.md R6 to R8, R14): how a step serves its instruction, that an
operation reads and replaces the addressed instance only, and what a finite capacity changes. -/

namespace Sys2Proof.Machine

/-! ### The step -/

/-- A step with a request at the port serves the oldest one. -/
theorem step_of_port_cons {s : State} {q : Request} {rest : List Request} (hport : s.port = q :: rest) :
    step s = (s.accept q rest).returnRefusal (exec (decodeHost q.word) (s.accept q rest)) := by
  simp only [step, hport]

/-- A step with nothing at the port executes the token it fetches. -/
theorem step_of_fetchToken {s : State} {i : Instr} (hport : s.port = []) (hfetch : s.fetchToken = some i) :
    step s = exec i s := by
  simp only [step, hport, hfetch]

theorem returnRefusal_of_isReturned (s : State) {r : Refusal} (hr : r.isReturned = true) :
    s.returnRefusal (.refused r) = .next { s with response := .refused r } :=
  if_pos hr

/-- Settles O6: a request by how `returnRefusal` passes each outcome of `exec` on, a token by what the fetch finds. -/
theorem stepRunsTheDecodedInstruction : Obligations.StepRunsTheDecodedInstruction := by
  refine ⟨fun s q rest i hport hdecode => ?_, fun s d i rest hport hinst hready hdecode => ?_⟩
  · subst hdecode
    rw [step_of_port_cons hport]
    refine ⟨fun t h => ?_, fun r h hr => ?_, fun f h => ?_⟩ <;> rw [h]
    · rfl
    · exact returnRefusal_of_isReturned _ hr
    · rfl
  · exact step_of_fetchToken hport (fetchToken_eq_some_iff.2 ⟨d, rest, hinst, hready, hdecode⟩)

/-! ### How an operation ends: the addressed instance replaced, and a response if it has one -/

/-- The state `s` with the addressed instance replaced by `x`, and with the response if one is given: the two
ways an instruction ends in a next state. -/
def State.endIn (s : State) (x : Inst) : Option Response → State
  | none => s.put x
  | some r => s.answer x r

@[simp] theorem State.endIn_insts (s : State) (x : Inst) (o : Option Response) :
    (s.endIn x o).insts = s.insts.set s.cur x := by cases o <;> rfl
@[simp] theorem State.endIn_cur (s : State) (x : Inst) (o : Option Response) : (s.endIn x o).cur = s.cur := by
  cases o <;> rfl
@[simp] theorem State.endIn_port (s : State) (x : Inst) (o : Option Response) : (s.endIn x o).port = s.port := by
  cases o <;> rfl

/-- `f` ends in an instance and a response that depend on the address only: started from another state with the
same address, it ends in the same ones. The part of an operation after it has read its instance. -/
def EndsLocally (f : State → Result) : Prop :=
  ∀ s t, f s = .next t →
    ∃ x o, t = s.endIn x o ∧ ∀ s' : State, s'.cur = s.cur → f s' = .next (s'.endIn x o)

/-- `f` reads and replaces the addressed instance only: started from another state that agrees on the address and
on that instance, it ends in the same instance and response. -/
def ActsLocally (f : State → Result) : Prop :=
  ∀ s t, f s = .next t →
    ∃ x o, t = s.endIn x o ∧
      ∀ s' : State, s'.cur = s.cur → s'.inst? = s.inst? → f s' = .next (s'.endIn x o)

theorem EndsLocally.put (x : Inst) : EndsLocally fun s => .next (s.put x) := by
  rintro s t ⟨⟩
  exact ⟨x, none, rfl, fun _ _ => rfl⟩

theorem EndsLocally.answer (x : Inst) (r : Response) : EndsLocally fun s => .next (s.answer x r) := by
  rintro s t ⟨⟩
  exact ⟨x, some r, rfl, fun _ _ => rfl⟩

/-- An answer may depend on the address, as the free value of a failed `DEC.CONFIG` does (log entry 2). -/
theorem EndsLocally.answer_cur (p : Nat → Inst × Response) :
    EndsLocally fun s => .next (s.answer (p s.cur).1 (p s.cur).2) := by
  rintro s t ⟨⟩
  exact ⟨(p s.cur).1, some (p s.cur).2, rfl, fun s' hcur => by simp only [hcur, State.endIn]⟩

theorem EndsLocally.refused (r : Refusal) : EndsLocally fun _ => .refused r := fun _ _ h => nomatch h

theorem EndsLocally.fault (r : Fault) : EndsLocally fun _ => .fault r := fun _ _ h => nomatch h

theorem EndsLocally.within (ok : Bool) {f : State → Result} (hf : EndsLocally f) :
    EndsLocally fun s => within ok (f s) := by
  cases ok
  · exact .refused _
  · exact hf

theorem EndsLocally.endWrite (c : Caps) (w : Writer) (r : Response) : EndsLocally fun s => s.endWrite c w r :=
  .within _ (.answer _ _)

theorem EndsLocally.endToken (c : Caps) (o : FsmResult) : EndsLocally fun s => s.endToken c o :=
  match o with
  | .ran _ => .within _ (.put _)
  | .suspended _ => .put _
  | .corrupt _ => .answer _ _

/-! ### Every instruction acts on the addressed instance only -/

/-- An operation that answers only on an instance `x` at which it goes on as some `g` that ends by the address. -/
theorem ActsLocally.of_inst? {f : State → Result}
    (hf : ∀ s t, f s = .next t →
      ∃ x g, s.inst? = some x ∧ EndsLocally g ∧ ∀ s' : State, s'.inst? = some x → f s' = g s') :
    ActsLocally f := by
  intro s t h
  obtain ⟨x, g, hs, hg, hfg⟩ := hf s t h
  obtain ⟨y, o, ht, hy⟩ := hg s t (hfg s hs ▸ h)
  exact ⟨y, o, ht, fun s' hcur hinst => (hfg s' (hinst.trans hs)).trans (hy s' hcur)⟩

theorem ActsLocally.onEnc {f : Encoder → State → Result} (hf : ∀ e, EndsLocally (f e)) :
    ActsLocally fun s => s.onEnc fun e => f e s :=
  .of_inst? fun _ _ h =>
    let ⟨e, hs, _⟩ := onEnc_next h
    ⟨.enc e, f e, hs, hf e, fun _ => onEnc_of _⟩

theorem ActsLocally.onDec {f : Decoder → State → Result} (hf : ∀ d, EndsLocally (f d)) :
    ActsLocally fun s => s.onDec fun d => f d s :=
  .of_inst? fun _ _ h =>
    let ⟨d, hs, _⟩ := onDec_next h
    ⟨.dec d, f d, hs, hf d, fun _ => onDec_of _⟩

theorem ActsLocally.onBw {f : Writer → State → Result} (hf : ∀ w, EndsLocally (f w)) :
    ActsLocally fun s => s.onBw fun w => f w s :=
  .of_inst? fun _ _ h =>
    let ⟨w, hs, _⟩ := onBw_next h
    ⟨.bw w, f w, hs, hf w, fun _ => onBw_of _⟩

theorem ActsLocally.onBr {f : Reader → State → Result} (hf : ∀ r, EndsLocally (f r)) :
    ActsLocally fun s => s.onBr fun r => f r s :=
  .of_inst? fun _ _ h =>
    let ⟨r, hs, _⟩ := onBr_next h
    ⟨.br r, f r, hs, hf r, fun _ => onBr_of _⟩

theorem execStatus_of_enc {s : State} {e : Encoder} (hs : s.inst? = some (.enc e)) :
    execStatus s = .next (s.answer (.enc e) (.status e.statusReg e.ctl.cause e.ctl.info)) := by
  simp only [execStatus, hs]

theorem execStatus_of_dec {s : State} {d : Decoder} (hs : s.inst? = some (.dec d)) :
    execStatus s = .next (s.answer (.dec d) (.status d.statusReg d.ctl.cause d.ctl.info)) := by
  simp only [execStatus, hs]

theorem execStatus_actsLocally : ActsLocally execStatus := by
  refine .of_inst? fun s t h => ?_
  unfold execStatus at h
  split at h
  case h_1 e hs => exact ⟨.enc e, _, hs, .answer _ _, fun _ => execStatus_of_enc⟩
  case h_2 d hs => exact ⟨.dec d, _, hs, .answer _ _, fun _ => execStatus_of_dec⟩
  all_goals cases h

theorem execReadBits_actsLocally (count : Nat) : ActsLocally (execReadBits count) := by
  refine .onBr fun r => ?_
  split
  · exact .refused _
  · split
    · exact .answer _ _
    · exact .answer _ _

theorem feedWithin_actsLocally (c : Caps) (chunk : Buffer) : ActsLocally (feedWithin c chunk) :=
  .onBr fun _ => .within _ (.answer _ _)

theorem writeBitsWithin_actsLocally (c : Caps) (value : PortValue) (count : Nat) :
    ActsLocally (writeBitsWithin c value count) := by
  refine .onBw fun w => ?_
  split
  · exact .refused _
  · exact .endWrite _ _ _

theorem flushWithin_actsLocally (c : Caps) : ActsLocally (flushWithin c) :=
  .onBw fun _ => .endWrite _ _ _

theorem compressWithin_actsLocally (c : Caps) (input : Buffer) : ActsLocally (compressWithin c input) := by
  refine .onEnc fun e => ?_
  split
  · exact .refused _
  · exact .within _ (.answer _ _)

theorem processWithin_actsLocally (c : Caps) (chunk : Buffer) : ActsLocally (processWithin c chunk) := by
  refine .onDec fun d => ?_
  split
  · exact .refused _
  · exact .within _ (.answer _ _)

theorem execDecConfig_actsLocally (w l hint : Nat) : ActsLocally (execDecConfig w l hint) :=
  .onDec fun d => .answer_cur fun cur =>
    (.dec (d.configure w l hint (Config.freeCapHint cur d.freeDraws)).1,
      (d.configure w l hint (Config.freeCapHint cur d.freeDraws)).2)

theorem tokenWithin_actsLocally (c : Caps) (tag : Bool) (body : Decoder → FsmResult) :
    ActsLocally (tokenWithin c tag body) := by
  refine .onDec fun d => ?_
  split
  · exact .refused _
  · split
    · exact .endToken _ _
    · exact .put _
    · exact .put _
    · exact .fault _

/-- Every instruction is a transition of the addressed instance (00_scope.md R7). -/
theorem exec_actsLocally (i : Instr) : ActsLocally (exec i) := by
  cases i with
  | literal byte => exact tokenWithin_actsLocally _ _ _
  | backref offM1 lenM1 => exact tokenWithin_actsLocally _ _ _
  | status => exact execStatus_actsLocally
  | encConfig w l => exact .onEnc fun _ => .answer _ _
  | compress input => exact compressWithin_actsLocally _ input
  | decConfig w l hint => exact execDecConfig_actsLocally w l hint
  | process chunk => exact processWithin_actsLocally _ chunk
  | getOutput => exact .onDec fun _ => .answer _ _
  | bwReset => exact .onBw fun _ => .answer _ _
  | writeBits value count => exact writeBitsWithin_actsLocally _ value count
  | writeByte byte => exact writeBitsWithin_actsLocally _ _ 8
  | flush => exact flushWithin_actsLocally _
  | brReset => exact .onBr fun _ => .answer _ _
  | feed chunk => exact feedWithin_actsLocally _ chunk
  | readBits count => exact execReadBits_actsLocally count
  | reserved code => exact fun _ _ h => nomatch h

/-- Settles O11: an answer replaces the addressed instance. -/
theorem onlyTheAddressedInstanceChanges : Obligations.OnlyTheAddressedInstanceChanges := by
  intro i s t h
  obtain ⟨x, o, rfl, -⟩ := exec_actsLocally i s t h
  refine ⟨by simp, by simp, by simp, fun k hk => ?_⟩
  rw [State.endIn_insts, List.getElem?_set_ne hk.symm]

/-- Replacing the instance at `a` leaves what an operation addressed to another index `b` reads. -/
theorem endIn_inst?_of_ne {a b : Nat} (hab : a ≠ b) (s : State) (x : Inst) (o : Option Response) :
    State.inst? { ({ s with cur := a } : State).endIn x o with cur := b } = ({ s with cur := b } : State).inst? := by
  simp [State.inst?, List.getElem?_set_ne hab]

/-- Settles O12: each operation finds its own instance the same in either order, so it ends in the same one, and
two replacements at different indexes commute. -/
theorem operationsOnDifferentInstancesCommute : Obligations.OperationsOnDifferentInstancesCommute := by
  intro i j a b s t u hab hi hj
  obtain ⟨x, o, rfl, hx⟩ := exec_actsLocally i _ t hi
  obtain ⟨y, p, rfl, hy⟩ := exec_actsLocally j _ u hj
  refine ⟨_, _, hy { s with cur := b } rfl (endIn_inst?_of_ne hab s x o).symm,
    hx { ({ s with cur := b } : State).endIn y p with cur := a } rfl (endIn_inst?_of_ne hab.symm s y p), ?_⟩
  simp only [State.endIn_insts]
  exact List.set_comm _ _ hab.symm

/-! ### Finite capacities -/

/-- An operation that would answer with instance `x`, held to capacities `c`: the answer if the buffers of
the instance left fit, else the refusal. -/
theorem within_answer_eq {c : Caps} {s : State} {x₀ x y : Inst} {r : Response} (hs : s.inst? = some x₀)
    (hy : (s.answer x r).inst? = some y) :
    within (x.fitsCaps c) (.next (s.answer x r)) =
      if y.fitsCaps c then .next (s.answer x r) else .refused .capacityExceeded := by
  obtain rfl : x = y := Option.some.inj ((answer_inst? r hs).symm.trans hy)
  rfl

/-- `WRITEBITS`, and so `WRITEBYTE`, at finite capacities. -/
theorem writeBitsWithin_of_unbounded {c : Caps} {v : PortValue} {n : Nat} {s t : State} {y : Inst}
    (hy : t.inst? = some y) (h : writeBitsWithin Config.caps v n s = .next t) :
    writeBitsWithin c v n s = if y.fitsCaps c then .next t else .refused .capacityExceeded := by
  obtain ⟨w, hs, hw⟩ := onBw_next h
  split at hw
  · cases hw
  next hn =>
    cases hw
    rw [writeBitsWithin, onBw_of _ hs, if_neg hn]
    exact within_answer_eq hs hy

theorem flushWithin_of_unbounded {c : Caps} {s t : State} {y : Inst}
    (hy : t.inst? = some y) (h : flushWithin Config.caps s = .next t) :
    flushWithin c s = if y.fitsCaps c then .next t else .refused .capacityExceeded := by
  obtain ⟨w, hs, hw⟩ := onBw_next h
  cases hw
  rw [flushWithin, onBw_of _ hs]
  exact within_answer_eq hs hy

theorem feedWithin_of_unbounded {c : Caps} {chunk : Buffer} {s t : State} {y : Inst}
    (hy : t.inst? = some y) (h : feedWithin Config.caps chunk s = .next t) :
    feedWithin c chunk s = if y.fitsCaps c then .next t else .refused .capacityExceeded := by
  obtain ⟨r, hs, hr⟩ := onBr_next h
  cases hr
  rw [feedWithin, onBr_of _ hs]
  exact within_answer_eq hs hy

/-- A `COMPRESS` keeps the input it has loaded, so `IN_CAP` is tested on the `IN` it leaves. -/
theorem Encoder.passes_input (fuel : Nat) (e : Encoder) : (e.passes fuel).input = e.input := by
  induction fuel generalizing e with
  | zero => rfl
  | succ fuel ih =>
    unfold Encoder.passes
    split
    · simp [ih]
    · rfl

@[simp] theorem Encoder.compressed_input (e : Encoder) (input : Buffer) : (e.compressed input).input = input :=
  Encoder.passes_input _ _

theorem compressWithin_of_unbounded {c : Caps} {input : Buffer} {s t : State} {y : Inst}
    (hy : t.inst? = some y) (h : compressWithin Config.caps input s = .next t) :
    compressWithin c input s = if y.fitsCaps c then .next t else .refused .capacityExceeded := by
  obtain ⟨e, hs, he⟩ := onEnc_next h
  rw [compressWithin, onEnc_of _ hs]
  split at he
  · cases he
  next hr =>
    obtain ⟨-, he⟩ := within_next he
    cases he
    rw [← within_answer_eq hs hy, Inst.fitsCaps, Encoder.compressed_input]

theorem processWithin_of_unbounded {c : Caps} {chunk : Buffer} {s t : State} {y : Inst}
    (hy : t.inst? = some y) (h : processWithin Config.caps chunk s = .next t) :
    processWithin c chunk s = if y.fitsCaps c then .next t else .refused .capacityExceeded := by
  obtain ⟨d, hs, hd⟩ := onDec_next h
  rw [processWithin, onDec_of _ hs]
  split at hd
  · cases hd
  next hr =>
    obtain ⟨-, hd⟩ := within_next hd
    cases hd
    exact within_answer_eq hs hy

/-- Settles O21: `exec` is each operation at unbounded capacity, and the capacities tested are those of the buffers
of the instance left. -/
theorem finiteCapacityRefusesWhole : Obligations.FiniteCapacityRefusesWhole :=
  fun _ _ _ _ hy =>
    ⟨fun _ _ h => writeBitsWithin_of_unbounded hy h, fun _ h => writeBitsWithin_of_unbounded hy h,
      fun h => flushWithin_of_unbounded hy h, fun _ h => feedWithin_of_unbounded hy h,
      fun _ h => compressWithin_of_unbounded hy h, fun _ h => processWithin_of_unbounded hy h⟩

end Sys2Proof.Machine

/-! SUPPORT. The state between operations (10_state.md): what each instruction does to the addressed instance, said
once as a relation; what that means for the control registers and the fault record; the invariant of every step. -/

namespace Sys2Proof.Machine

/-! ### The outcome of a token -/

/-- The decoder that a step of the FSM leaves. -/
def FsmResult.decoder : FsmResult → Decoder
  | .ran d => d
  | .suspended d => d
  | .corrupt d => d

/-- The response of a single token: the fault, if it raised one (60_exceptions.md R182). -/
def FsmResult.tokenResponse : FsmResult → Option Response
  | .ran _ => none
  | .suspended _ => none
  | .corrupt d => some (.corrupt d.tokOff d.out.length)

theorem endToken_caps (s : State) (r : FsmResult) :
    s.endToken Config.caps r = .next (s.endIn (.dec r.decoder) r.tokenResponse) := by
  cases r <;> rfl

/-- A token with tag `tag` and body `body`, executed by `d`, ends in a result: suspended before its tag, or as its
body ends, past a tag read now or read before (43_decoder.md R147, R148). -/
inductive Decoder.TokenRuns (d : Decoder) (tag : Bool) (body : Decoder → FsmResult) : FsmResult → Prop
  | noTag : d.dstate = .awaitTag → d.br.avail < 1 → TokenRuns d tag body (.suspended d)
  | tagNow : d.dstate = .awaitTag → 1 ≤ d.br.avail → TokenRuns d tag body (body (d.tagged (d.br.advance 1) tag))
  | tagBefore : d.dstate = (if tag then .literal else .backRef) → TokenRuns d tag body (body d)

/-- A token that answers has run on a ready decoder. -/
theorem tokenWithin_next {s t : State} {tag : Bool} {body : Decoder → FsmResult}
    (h : tokenWithin Config.caps tag body s = .next t) :
    ∃ d r, s.inst? = some (.dec d) ∧ d.ctl.Ready ∧ d.TokenRuns tag body r ∧
      t = s.endIn (.dec r.decoder) r.tokenResponse := by
  obtain ⟨d, hs, hd⟩ := onDec_next h
  split at hd
  · cases hd
  next hready =>
    refine ⟨d, ?_⟩
    simp only [hs, refusal?_eq_none_iff.1 hready, true_and]
    unfold Decoder.atToken at hd
    cases hst : d.dstate with
    | awaitTag =>
      rw [hst] at hd
      dsimp only at hd
      by_cases havail : d.br.avail < 1
      · rw [if_pos havail] at hd
        exact ⟨_, .noTag hst havail, by cases hd; rfl⟩
      · rw [if_neg havail] at hd
        exact ⟨_, .tagNow hst (by omega), by simpa [endToken_caps] using hd.symm⟩
    | literal =>
      cases tag <;> rw [hst] at hd
      · cases hd
      · exact ⟨_, .tagBefore hst, by simpa [endToken_caps] using hd.symm⟩
    | backRef =>
      cases tag <;> rw [hst] at hd
      · exact ⟨_, .tagBefore hst, by simpa [endToken_caps] using hd.symm⟩
      · cases hd

/-! ### What every instruction does to the addressed instance -/

/-- `x.Becomes i y o`: instruction `i` replaces the addressed instance `x` by `y` and gives the response `o`, if any.
One line for each instruction and kind of instance that serves it (30_encoding.md R86). -/
inductive Inst.Becomes : Inst → Instr → Inst → Option Response → Prop
  | literal {d b r} : d.ctl.Ready → d.TokenRuns true (fun d => d.literalBody b) r →
      Becomes (.dec d) (.literal b) (.dec r.decoder) r.tokenResponse
  | backref {d o n r} : d.ctl.Ready → d.TokenRuns false (fun d => d.backrefBody o n) r →
      Becomes (.dec d) (.backref o n) (.dec r.decoder) r.tokenResponse
  | statusEnc (e) : Becomes (.enc e) .status (.enc e) (some (.status e.statusReg e.ctl.cause e.ctl.info))
  | statusDec (d) : Becomes (.dec d) .status (.dec d) (some (.status d.statusReg d.ctl.cause d.ctl.info))
  | encConfig (e w l) : Becomes (.enc e) (.encConfig w l) (.enc (e.configure w l).1) (some (e.configure w l).2)
  | compress {e} (input) : e.ctl.Ready → Becomes (.enc e) (.compress input) (.enc (e.compressed input))
      (some (.bytes (e.compressed input).bw.wbuf))
  | decConfig (d w l hint free) : Becomes (.dec d) (.decConfig w l hint) (.dec (d.configure w l hint free).1)
      (some (d.configure w l hint free).2)
  | process {d} (chunk) : d.ctl.Ready → Becomes (.dec d) (.process chunk) (.dec (d.processed chunk))
      (some (d.processed chunk).processResponse)
  | getOutput (d) : Becomes (.dec d) .getOutput (.dec d) (some (.bytes d.out))
  | bwReset (w) : Becomes (.bw w) .bwReset (.bw .fresh) (some .none)
  | writeBits (w v c) : c ≤ Config.cntMax →
      Becomes (.bw w) (.writeBits v c) (.bw (w.writeBits v.toNat c)) (some .none)
  | writeByte (w b) : Becomes (.bw w) (.writeByte b) (.bw (w.writeBits (b.zeroExtend 16).toNat 8)) (some .none)
  | flush (w) : Becomes (.bw w) .flush (.bw w.flushed) (some (.bytes w.flushed.wbuf))
  | brReset (r) : Becomes (.br r) .brReset (.br .fresh) (some .none)
  | feed (r chunk) : Becomes (.br r) (.feed chunk) (.br (r.feed chunk)) (some .none)
  | readBits {r r' c v} : c ≤ Config.cntMax → r.readBits c = some (v, r') →
      Becomes (.br r) (.readBits c) (.br r') (some (.value v))
  | exhausted {r c} : c ≤ Config.cntMax → r.readBits c = none →
      Becomes (.br r) (.readBits c) (.br r) (some .exhausted)

theorem writeBitsWithin_next {s t : State} {v : PortValue} {c : Nat}
    (h : writeBitsWithin Config.caps v c s = .next t) :
    ∃ w, s.inst? = some (.bw w) ∧ c ≤ Config.cntMax ∧ t = s.answer (.bw (w.writeBits v.toNat c)) .none := by
  obtain ⟨w, hs, hw⟩ := onBw_next h
  split at hw
  · cases hw
  next hc => exact ⟨w, hs, Nat.le_of_not_lt hc, by cases hw; rfl⟩

theorem execReadBits_next {s t : State} {c : Nat} (h : execReadBits c s = .next t) :
    ∃ r r' o, s.inst? = some (.br r) ∧ Inst.Becomes (.br r) (.readBits c) (.br r') o ∧ t = s.endIn (.br r') o := by
  obtain ⟨r, hs, hr⟩ := onBr_next h
  split at hr
  · cases hr
  next hc =>
    have hc := Nat.le_of_not_lt hc
    split at hr
    next v r' hread => exact ⟨r, r', _, hs, .readBits hc hread, by cases hr; rfl⟩
    next hread => exact ⟨r, r, _, hs, .exhausted hc hread, by cases hr; rfl⟩

theorem execStatus_next {s t : State} (h : execStatus s = .next t) :
    ∃ x o, s.inst? = some x ∧ x.Becomes .status x o ∧ t = s.endIn x o := by
  unfold execStatus at h
  split at h
  case h_1 e hs => exact ⟨_, _, hs, .statusEnc e, by cases h; rfl⟩
  case h_2 d hs => exact ⟨_, _, hs, .statusDec d, by cases h; rfl⟩
  all_goals cases h

/-- Every answer of `exec` is one of the lines of `Inst.Becomes`. -/
theorem exec_becomes {i : Instr} {s t : State} (h : exec i s = .next t) :
    ∃ x y o, s.inst? = some x ∧ x.Becomes i y o ∧ t = s.endIn y o := by
  cases i with
  | literal b =>
    obtain ⟨d, r, hs, hready, hrun, rfl⟩ := tokenWithin_next h
    exact ⟨_, _, _, hs, .literal hready hrun, rfl⟩
  | backref o n =>
    obtain ⟨d, r, hs, hready, hrun, rfl⟩ := tokenWithin_next h
    exact ⟨_, _, _, hs, .backref hready hrun, rfl⟩
  | status =>
    obtain ⟨x, o, hs, hx, rfl⟩ := execStatus_next h
    exact ⟨x, x, o, hs, hx, rfl⟩
  | encConfig w l =>
    obtain ⟨e, hs, he⟩ := onEnc_next h
    exact ⟨_, _, _, hs, .encConfig e w l, by cases he; rfl⟩
  | compress input =>
    obtain ⟨e, hs, he⟩ := onEnc_next h
    split at he
    · cases he
    next hready => exact ⟨_, _, _, hs, .compress input (refusal?_eq_none_iff.1 hready), by cases he; rfl⟩
  | decConfig w l hint =>
    obtain ⟨d, hs, hd⟩ := onDec_next h
    exact ⟨_, _, _, hs, .decConfig d w l hint (Config.freeCapHint s.cur d.freeDraws), by cases hd; rfl⟩
  | process chunk =>
    obtain ⟨d, hs, hd⟩ := onDec_next h
    split at hd
    · cases hd
    next hready => exact ⟨_, _, _, hs, .process chunk (refusal?_eq_none_iff.1 hready), by cases hd; rfl⟩
  | getOutput =>
    obtain ⟨d, hs, hd⟩ := onDec_next h
    exact ⟨_, _, _, hs, .getOutput d, by cases hd; rfl⟩
  | bwReset =>
    obtain ⟨w, hs, hw⟩ := onBw_next h
    exact ⟨_, _, _, hs, .bwReset w, by cases hw; rfl⟩
  | writeBits v c =>
    obtain ⟨w, hs, hc, rfl⟩ := writeBitsWithin_next h
    exact ⟨_, _, _, hs, .writeBits w v c hc, rfl⟩
  | writeByte b =>
    obtain ⟨w, hs, -, rfl⟩ := writeBitsWithin_next h
    exact ⟨_, _, _, hs, .writeByte w b, rfl⟩
  | flush =>
    obtain ⟨w, hs, hw⟩ := onBw_next h
    exact ⟨_, _, _, hs, .flush w, by cases hw; rfl⟩
  | brReset =>
    obtain ⟨r, hs, hr⟩ := onBr_next h
    exact ⟨_, _, _, hs, .brReset r, by cases hr; rfl⟩
  | feed chunk =>
    obtain ⟨r, hs, hr⟩ := onBr_next h
    exact ⟨_, _, _, hs, .feed r chunk, by cases hr; rfl⟩
  | readBits c =>
    obtain ⟨r, r', o, hs, hr, rfl⟩ := execReadBits_next h
    exact ⟨_, _, _, hs, hr, rfl⟩
  | reserved code => cases h

/-! ### Legal pairs -/

theorem legalParams_iff {w l : Nat} : legalParams w l = true ↔ 4 ≤ w ∧ w ≤ 15 ∧ 1 ≤ l ∧ l < w := by
  unfold legalParams Config.wMin Config.wMax
  simp only [Bool.and_eq_true, decide_eq_true_eq, and_assoc]

/-- The violation mask is 0 exactly for a legal pair (60_exceptions.md R176). -/
theorem configMask_eq_zero_iff {w l : Nat} : configMask w l = 0 ↔ legalParams w l = true := by
  rw [legalParams_iff]
  unfold configMask Config.wMin Config.wMax
  split <;> split <;> split <;> simp <;> omega

/-- The operands of a legal construction fit the registers `W` and `L`. -/
theorem construct_toNat {w l : Nat} (h : legalParams w l = true) :
    (Control.construct w l).w.toNat = w ∧ (Control.construct w l).l.toNat = l := by
  obtain ⟨-, hw, -, hl⟩ := legalParams_iff.1 h
  simp only [Control.construct_w, Control.construct_l, BitVec.toNat_ofNat]
  omega

theorem Encoder.configure_of_legal (e : Encoder) {w l : Nat} (h : legalParams w l = true) :
    e.configure w l = ({ Encoder.powerOn with ctl := Control.construct w l }, .ok) :=
  if_pos (configMask_eq_zero_iff.2 h)

theorem Encoder.configure_of_not_legal (e : Encoder) {w l : Nat} (h : ¬ legalParams w l = true) :
    e.configure w l =
      ({ Encoder.powerOn with ctl := e.ctl.constructFailed (configMask w l) }, .configError (configMask w l)) :=
  if_neg (mt configMask_eq_zero_iff.1 h)

theorem Decoder.configure_of_legal (d : Decoder) {w l : Nat} (hint free : Nat) (h : legalParams w l = true) :
    d.configure w l hint free =
      ({ Decoder.powerOn with ctl := Control.construct w l, capHint := hint, freeDraws := d.freeDraws }, .ok) :=
  if_pos (configMask_eq_zero_iff.2 h)

theorem Decoder.configure_of_not_legal (d : Decoder) {w l : Nat} (hint free : Nat) (h : ¬ legalParams w l = true) :
    d.configure w l hint free =
      ({ Decoder.powerOn with
          ctl := d.ctl.constructFailed (configMask w l), capHint := free, freeDraws := d.freeDraws + 1 },
        .configError (configMask w l)) :=
  if_neg (mt configMask_eq_zero_iff.1 h)

/-! ### Steps of the FSM and the control registers -/

/-- `d` is what taking `Corrupt` leaves of a decoder with control registers `c`: the pair recorded is that of its
token and its output (43_decoder.md R152). -/
def Decoder.CorruptedFrom (c : Control) (d : Decoder) : Prop :=
  d.dstate = .backRef ∧ d.out.length < d.tokOff ∧ d.ctl = c.raise .corrupt (.corrupt d.tokOff d.out.length)

/-- What a result does to the control registers `c`: a step that runs or suspends leaves them, and one that is
corrupt has raised the fault (43_decoder.md R146, R152). -/
def FsmResult.RaisesOnly (c : Control) : FsmResult → Prop
  | .ran d => d.ctl = c
  | .suspended d => d.ctl = c
  | .corrupt d => d.CorruptedFrom c

theorem replay_raisesOnly {d : Decoder} (hst : d.dstate = .backRef) (br : Reader) (o n : Nat) :
    (d.replay br o n).RaisesOnly d.ctl := by
  obtain ⟨-, hran⟩ | ⟨hlt, hcorrupt⟩ := replay_cases d br o n
  · rw [hran]
    rfl
  · rw [hcorrupt]
    exact ⟨hst, hlt, rfl⟩

theorem fsmStep_raisesOnly (d : Decoder) : d.fsmStep.RaisesOnly d.ctl := by
  obtain ⟨-, -, h⟩ | ⟨-, -, h⟩ | ⟨-, -, h⟩ | ⟨-, -, h⟩ | ⟨-, -, h⟩ | ⟨hst, -, o, n, -, -, h⟩ := fsmStep_cases d
  case inr.inr.inr.inr.inr => exact h ▸ replay_raisesOnly hst _ o n
  all_goals rw [h]; rfl

theorem literalBody_ctl (d : Decoder) (b : Byte) : (d.literalBody b).decoder.ctl = d.ctl := by
  unfold Decoder.literalBody
  split <;> rfl

theorem backrefBody_raisesOnly {d : Decoder} (hst : d.dstate = .backRef) (o n : Nat) :
    (d.backrefBody o n).RaisesOnly d.ctl := by
  unfold Decoder.backrefBody
  split
  · rfl
  · exact replay_raisesOnly hst _ o n

/-- A `LITERAL` raises nothing. -/
theorem literal_tokenRuns_ctl {d : Decoder} {b : Byte} {r : FsmResult}
    (h : d.TokenRuns true (fun d => d.literalBody b) r) : r.decoder.ctl = d.ctl := by
  cases h with
  | noTag => rfl
  | tagNow => exact literalBody_ctl _ b
  | tagBefore => exact literalBody_ctl d b

theorem backref_tokenRuns_raisesOnly {d : Decoder} {o n : Nat} {r : FsmResult}
    (h : d.TokenRuns false (fun d => d.backrefBody o n) r) : r.RaisesOnly d.ctl := by
  cases h with
  | noTag => rfl
  | tagNow => exact backrefBody_raisesOnly (d := d.tagged (d.br.advance 1) false) rfl o n
  | tagBefore hst => exact backrefBody_raisesOnly hst o n

/-- The number of bits that the next step of the FSM waits for (43_decoder.md R148 to R150). -/
def Decoder.stepBits (d : Decoder) : Nat :=
  match d.dstate with
  | .awaitTag => 1
  | .literal => 8
  | .backRef => d.ctl.w.toNat + d.ctl.l.toNat

theorem Decoder.stepBits_of_awaitTag {d : Decoder} (h : d.dstate = .awaitTag) : d.stepBits = 1 := by
  simp only [Decoder.stepBits, h]

theorem Decoder.stepBits_of_literal {d : Decoder} (h : d.dstate = .literal) : d.stepBits = 8 := by
  simp only [Decoder.stepBits, h]

theorem Decoder.stepBits_of_backRef {d : Decoder} (h : d.dstate = .backRef) :
    d.stepBits = d.ctl.w.toNat + d.ctl.l.toNat := by
  simp only [Decoder.stepBits, h]

theorem replay_br (d : Decoder) (br : Reader) (o n : Nat) : (d.replay br o n).decoder.br = br := by
  obtain ⟨-, h⟩ | ⟨-, h⟩ := replay_cases d br o n <;> rw [h] <;> rfl

theorem replay_ne_suspended (d d' : Decoder) (br : Reader) (o n : Nat) : d.replay br o n ≠ .suspended d' := by
  obtain ⟨-, h⟩ | ⟨-, h⟩ := replay_cases d br o n <;> rw [h] <;> exact FsmResult.noConfusion

/-- A step suspends with nothing changed while its bits have not all arrived; otherwise it does not suspend, and it
takes just these bits. -/
theorem fsmStep_by_stepBits (d : Decoder) :
    (d.br.avail < d.stepBits ∧ d.fsmStep = .suspended d) ∨
    (d.stepBits ≤ d.br.avail ∧ (∀ d', d.fsmStep ≠ .suspended d') ∧
      d.fsmStep.decoder.br = d.br.advance d.stepBits) := by
  obtain ⟨hst, ha, h⟩ | ⟨hst, ha, h⟩ | ⟨hst, ha, h⟩ | ⟨hst, ha, h⟩ | ⟨hst, ha, h⟩ | ⟨hst, ha, o, n, -, -, h⟩ :=
    fsmStep_cases d
  · exact .inl ⟨by rwa [Decoder.stepBits_of_awaitTag hst], h⟩
  · rw [Decoder.stepBits_of_awaitTag hst, h]
    exact .inr ⟨ha, fun _ => FsmResult.noConfusion, rfl⟩
  · exact .inl ⟨by rwa [Decoder.stepBits_of_literal hst], h⟩
  · rw [Decoder.stepBits_of_literal hst, h]
    exact .inr ⟨ha, fun _ => FsmResult.noConfusion, rfl⟩
  · exact .inl ⟨by rwa [Decoder.stepBits_of_backRef hst], h⟩
  · rw [Decoder.stepBits_of_backRef hst, h]
    exact .inr ⟨ha, fun d' => replay_ne_suspended d d' _ o n, replay_br d _ o n⟩

theorem fsmStep_eq_suspended_iff {d : Decoder} : d.fsmStep = .suspended d ↔ d.br.avail < d.stepBits := by
  obtain ⟨hlt, h⟩ | ⟨hle, hne, -⟩ := fsmStep_by_stepBits d
  · exact ⟨fun _ => hlt, fun _ => h⟩
  · exact ⟨fun h => absurd h (hne d), fun h => absurd h (by omega)⟩

theorem stepBits_pos {d : Decoder} (h : 0 < d.ctl.w.toNat + d.ctl.l.toNat) : 0 < d.stepBits := by
  unfold Decoder.stepBits
  split
  · exact Nat.one_pos
  · exact Nat.succ_pos 7
  · exact h

theorem runFsm_of_ran {d d' : Decoder} (h : d.fsmStep = .ran d') (fuel : Nat) :
    d.runFsm (fuel + 1) = d'.runFsm fuel := by
  simp only [Decoder.runFsm, h]

theorem runFsm_of_suspended {d d' : Decoder} (h : d.fsmStep = .suspended d') (fuel : Nat) :
    d.runFsm (fuel + 1) = d' := by
  simp only [Decoder.runFsm, h]

theorem runFsm_of_corrupt {d d' : Decoder} (h : d.fsmStep = .corrupt d') (fuel : Nat) :
    d.runFsm (fuel + 1) = d' := by
  simp only [Decoder.runFsm, h]

/-- The loop of `PROCESS` raises `Corrupt` or leaves the control registers; then, with fuel for every unread bit and
fields that are not empty, it has stopped at a step that waits for bits (43_decoder.md R146, R153). -/
theorem runFsm_ends (fuel : Nat) (d : Decoder) :
    (d.runFsm fuel).CorruptedFrom d.ctl ∨
    ((d.runFsm fuel).ctl = d.ctl ∧
      (0 < d.ctl.w.toNat + d.ctl.l.toNat → d.br.avail < fuel →
        (d.runFsm fuel).br.avail < (d.runFsm fuel).stepBits)) := by
  induction fuel generalizing d with
  | zero => exact .inr ⟨rfl, fun _ h => absurd h (Nat.not_lt_zero _)⟩
  | succ fuel ih =>
    obtain ⟨hwait, hstep⟩ | ⟨henough, hne, hbr⟩ := fsmStep_by_stepBits d
    · rw [runFsm_of_suspended hstep]
      exact .inr ⟨rfl, fun _ _ => hwait⟩
    have hctl := fsmStep_raisesOnly d
    cases hstep : d.fsmStep with
    | ran d' =>
      rw [hstep] at hctl hbr
      have hctl : d'.ctl = d.ctl := hctl
      have hbr : d'.br = d.br.advance d.stepBits := hbr
      rw [runFsm_of_ran hstep, ← hctl]
      refine (ih d').imp_right fun ⟨hsame, hwaits⟩ => ⟨hsame, fun hpos hfuel => hwaits hpos ?_⟩
      have := stepBits_pos (hctl ▸ hpos)
      rw [hbr, advance_avail]
      omega
    | suspended d' => exact absurd hstep (hne d')
    | corrupt d' =>
      rw [hstep] at hctl
      rw [runFsm_of_corrupt hstep]
      exact .inl hctl

/-- A `PROCESS` leaves the control registers or raises `Corrupt`. -/
theorem processed_ctl (d : Decoder) (chunk : Buffer) :
    (d.processed chunk).CorruptedFrom d.ctl ∨ (d.processed chunk).ctl = d.ctl :=
  (runFsm_ends _ { d with br := d.br.feed chunk }).imp_right And.left

theorem Encoder.passes_ctl (fuel : Nat) (e : Encoder) : (e.passes fuel).ctl = e.ctl := by
  induction fuel generalizing e with
  | zero => rfl
  | succ fuel ih =>
    unfold Encoder.passes
    split
    · simp [ih]
    · rfl

@[simp] theorem Encoder.compressed_ctl (e : Encoder) (input : Buffer) : (e.compressed input).ctl = e.ctl :=
  Encoder.passes_ctl _ _

/-! ### What an instruction does to the control registers -/

/-- The operands `W'`, `L'` of a construction. -/
def constructionOf : Instr → Option (Nat × Nat)
  | .encConfig w l => some (w, l)
  | .decConfig w l _ => some (w, l)
  | _ => none

theorem constructionOf_eq_some_iff {i : Instr} {w l : Nat} :
    constructionOf i = some (w, l) ↔ i = .encConfig w l ∨ ∃ h, i = .decConfig w l h := by
  cases i <;> simp [constructionOf]

theorem constructionOf_eq_none_iff {i : Instr} :
    constructionOf i = none ↔ ∀ w l, i ≠ .encConfig w l ∧ ∀ h, i ≠ .decConfig w l h := by
  cases i <;> simp [constructionOf]

/-- All that instruction `i`, answering `r`, can do to control registers `c`: the two ends of a construction, the
`Corrupt` of a ready decoder, or nothing (10_state.md R36, R37, R41). -/
inductive Control.ChangesTo (i : Instr) (c : Control) : Control → Response → Prop
  | kept {r} : constructionOf i = none → ChangesTo i c c r
  | constructed {w l r} : constructionOf i = some (w, l) → legalParams w l = true →
      ChangesTo i c (.construct w l) r
  | constructFailed {w l} : constructionOf i = some (w, l) → ¬ legalParams w l = true →
      ChangesTo i c (c.constructFailed (configMask w l)) (.configError (configMask w l))
  | corrupted {off outLen} : ((∃ chunk, i = .process chunk) ∨ ∃ o n, i = .backref o n) → c.Ready → outLen < off →
      ChangesTo i c (c.raise .corrupt (.corrupt off outLen)) (.corrupt off outLen)

theorem Encoder.configure_changesTo (e : Encoder) (w l : Nat) :
    e.ctl.ChangesTo (.encConfig w l) (e.configure w l).1.ctl (e.configure w l).2 := by
  by_cases h : legalParams w l = true
  · rw [e.configure_of_legal h]
    exact .constructed rfl h
  · rw [e.configure_of_not_legal h]
    exact .constructFailed rfl h

theorem Decoder.configure_changesTo (d : Decoder) (w l hint free : Nat) :
    d.ctl.ChangesTo (.decConfig w l hint) (d.configure w l hint free).1.ctl (d.configure w l hint free).2 := by
  by_cases h : legalParams w l = true
  · rw [d.configure_of_legal hint free h]
    exact .constructed rfl h
  · rw [d.configure_of_not_legal hint free h]
    exact .constructFailed rfl h

theorem process_changesTo {d : Decoder} (hready : d.ctl.Ready) (chunk : Buffer) :
    d.ctl.ChangesTo (.process chunk) (d.processed chunk).ctl (d.processed chunk).processResponse := by
  obtain ⟨-, hlt, hctl⟩ | hctl := processed_ctl d chunk
  · simp only [Decoder.processResponse, hctl, Control.raise_fault, if_true]
    exact .corrupted (.inl ⟨chunk, rfl⟩) hready hlt
  · rw [hctl]
    exact .kept rfl

theorem backref_changesTo {d : Decoder} {o n : Nat} {r : FsmResult} (hready : d.ctl.Ready)
    (h : d.TokenRuns false (fun d => d.backrefBody o n) r) (before : Response) :
    d.ctl.ChangesTo (.backref o n) r.decoder.ctl (r.tokenResponse.getD before) := by
  have hr := backref_tokenRuns_raisesOnly h
  cases r with
  | ran d' => exact (show d'.ctl = d.ctl from hr) ▸ .kept rfl
  | suspended d' => exact (show d'.ctl = d.ctl from hr) ▸ .kept rfl
  | corrupt d' =>
    obtain ⟨-, hlt, hctl⟩ := hr
    simp only [FsmResult.decoder, hctl]
    exact .corrupted (.inr ⟨o, n, rfl⟩) hready hlt

/-- `before` is the response that stands before the instruction: a token may leave it. -/
theorem Inst.Becomes.changesTo {i : Instr} {x y : Inst} {o : Option Response} {c c' : Control}
    (h : x.Becomes i y o) (hx : x.control? = some c) (hy : y.control? = some c') (before : Response) :
    c.ChangesTo i c' (o.getD before) := by
  cases h <;> cases hx <;> cases hy
  case literal hready hrun => exact literal_tokenRuns_ctl hrun ▸ .kept rfl
  case backref hready hrun => exact backref_changesTo hready hrun before
  case encConfig e w l => exact e.configure_changesTo w l
  case compress e input hready => exact e.compressed_ctl input ▸ .kept rfl
  case decConfig d w l hint free => exact d.configure_changesTo w l hint free
  case process d chunk hready => exact process_changesTo hready chunk
  case statusEnc | statusDec | getOutput => exact .kept rfl

@[simp] theorem State.endIn_response (s : State) (x : Inst) (o : Option Response) :
    (s.endIn x o).response = o.getD s.response := by cases o <;> rfl

theorem endIn_inst? {s : State} {x y : Inst} (o : Option Response) (h : s.inst? = some x) :
    (s.endIn y o).inst? = some y := by
  cases o with
  | none => exact put_inst? h
  | some r => exact answer_inst? r h

/-- What `exec` does to the control registers of the addressed instance. -/
theorem exec_changesTo {i : Instr} {s t : State} {x y : Inst} {c c' : Control} (h : exec i s = .next t)
    (hx : s.inst? = some x) (hy : t.inst? = some y) (hc : x.control? = some c) (hc' : y.control? = some c') :
    c.ChangesTo i c' t.response := by
  obtain ⟨x', y', o, hx', hbecomes, rfl⟩ := exec_becomes h
  obtain rfl : x' = x := Option.some.inj (hx'.symm.trans hx)
  obtain rfl : y' = y := Option.some.inj ((endIn_inst? o hx').symm.trans hy)
  rw [State.endIn_response]
  exact hbecomes.changesTo hc hc' s.response

/-- Settles O14: of the ways the control registers change, only a construction is open while `fault` is 1. -/
theorem faultRecordIsSticky : Obligations.FaultRecordIsSticky := by
  intro i s t x y c c' h hx hy hc hc' hfault
  have hchange := exec_changesTo h hx hy hc hc'
  generalize t.response = r at hchange
  simp only [← constructionOf_eq_some_iff, ← constructionOf_eq_none_iff]
  cases hchange with
  | kept hi => exact ⟨fun _ => rfl, fun w l hi' => absurd (hi.symm.trans hi') nofun⟩
  | constructed hi hlegal =>
    refine ⟨fun hi' => absurd (hi.symm.trans hi') nofun, fun w l hi' => ?_⟩
    cases hi.symm.trans hi'
    exact iff_of_true rfl hlegal
  | constructFailed hi hillegal =>
    refine ⟨fun hi' => absurd (hi.symm.trans hi') nofun, fun w l hi' => ?_⟩
    cases hi.symm.trans hi'
    exact iff_of_false nofun hillegal
  | corrupted _ hready => exact absurd (hfault.symm.trans hready.2) nofun

/-- Settles O15: a failed construction and a `Corrupt` are the changes that end with `fault` 1 where it was 0. -/
theorem faultIsSetOnlyByItsTwoCauses : Obligations.FaultIsSetOnlyByItsTwoCauses := by
  intro i s t x y c c' h hx hy hc hc' hbefore hafter
  have hchange := exec_changesTo h hx hy hc hc'
  generalize t.response = r at hchange ⊢
  cases hchange with
  | kept => exact absurd (hbefore.symm.trans hafter) nofun
  | constructed => cases hafter
  | constructFailed hi hillegal =>
    exact .inl ⟨_, mt configMask_eq_zero_iff.1 hillegal, rfl, rfl, rfl, _, _, constructionOf_eq_some_iff.1 hi⟩
  | corrupted hi _ hlt => exact .inr ⟨_, _, hlt, rfl, rfl, rfl, hi⟩

/-- Settles O16: of the changes of the control registers, only a construction that passes writes `W` and `L`. -/
theorem parametersAreWrittenOnlyByAPassedConstruction :
    Obligations.ParametersAreWrittenOnlyByAPassedConstruction := by
  intro i s t x y c c' h hx hy hc hc'
  have hchange := exec_changesTo h hx hy hc hc'
  generalize t.response = r at hchange
  cases hchange with
  | constructed hi hlegal =>
    exact .inr ⟨_, _, constructionOf_eq_some_iff.1 hi, hlegal, construct_toNat hlegal⟩
  | kept => exact .inl ⟨rfl, rfl⟩
  | constructFailed => exact .inl ⟨rfl, rfl⟩
  | corrupted => exact .inl ⟨rfl, rfl⟩

/-! ### The invariant: writers and readers -/

theorem writeBits_inv {w : Writer} (hw : w.Inv) (v n : Nat) : (w.writeBits v n).Inv := by
  induction n generalizing w with
  | zero => exact hw
  | succ n ih => exact ih (writeBit_spec hw _).2

theorem writeField_inv {w : Writer} (hw : w.Inv) (v n : Nat) : (w.writeField v n).Inv := by
  unfold Writer.writeField
  split
  · exact writeBits_inv (writeBits_inv hw _ _) _ _
  · exact writeBits_inv hw _ _

/-- A `FLUSH` leaves the writer byte-aligned, with an empty partial byte (40_bit_writer.md R94). -/
theorem flushed_aligned {w : Writer} (hw : w.Inv) : w.flushed.nacc = 0 ∧ w.flushed.acc = 0 := by
  unfold Writer.flushed
  split
  · exact ⟨rfl, rfl⟩
  next hn =>
    have hn : w.nacc = 0 := Fin.ext (Nat.eq_zero_of_not_pos hn)
    have hacc : w.acc.toNat % 2 ^ 8 = 0 := by simpa [Writer.Inv, hn] using hw
    exact ⟨hn, BitVec.eq_of_toNat_eq (by simpa [Nat.mod_eq_of_lt w.acc.isLt] using hacc)⟩

theorem advance_inv {r : Reader} {n : Nat} (h : n ≤ r.avail) (hr : r.Inv) : (r.advance n).Inv := by
  unfold Reader.Inv Reader.avail at *
  simp only [Reader.advance_stream, Reader.advance_rpos]
  omega

theorem feed_inv {r : Reader} (hr : r.Inv) (chunk : Buffer) : (r.feed chunk).Inv := by
  unfold Reader.Inv at *
  simp only [Reader.feed_stream, Reader.feed_rpos, List.length_append]
  omega

/-! ### The invariant: the control registers -/

theorem construct_inv {w l : Nat} (h : legalParams w l = true) : (Control.construct w l).Inv := by
  refine ⟨fun _ => ?_, .inl ⟨rfl, rfl, rfl⟩⟩
  rwa [(construct_toNat h).1, (construct_toNat h).2]

theorem constructFailed_inv (c : Control) {w l : Nat} (h : ¬ legalParams w l = true) :
    (c.constructFailed (configMask w l)).Inv :=
  ⟨nofun, .inr (.inl ⟨rfl, rfl, rfl, _, mt configMask_eq_zero_iff.1 h, rfl⟩)⟩

theorem raise_corrupt_inv {c : Control} (hc : c.Inv) (hready : c.Ready) {off outLen : Nat} (h : outLen < off) :
    (c.raise .corrupt (.corrupt off outLen)).Inv :=
  ⟨hc.1, .inr (.inr ⟨rfl, hready.1, rfl, off, outLen, h, rfl⟩)⟩

theorem cause_of_ready {c : Control} (hc : c.Inv) (hready : c.Ready) : c.cause = .none := by
  obtain ⟨-, ⟨-, hcause, -⟩ | ⟨hfault, -⟩ | ⟨hfault, -⟩⟩ := hc
  · exact hcause
  · exact absurd (hfault.symm.trans hready.2) nofun
  · exact absurd (hfault.symm.trans hready.2) nofun

/-! ### The invariant: encoders -/

/-- The scan keeps the best length and offset in bounds: what `SEARCH` finds is feasible and inside the window
(42_encoder.md R124, R126). -/
theorem scanWindow_bounds (inp : Buffer) {pos maxMatch k : Nat} (hmax : 1 ≤ maxMatch) (fuel : Nat) {i : Nat}
    {best : Nat × Nat} (hlen : best.1 ≤ maxMatch) (hoff : best.2 ≤ k) (hi : pos - i ≤ k) :
    (scanWindow inp pos maxMatch fuel i best).1 ≤ maxMatch ∧ (scanWindow inp pos maxMatch fuel i best).2 ≤ k := by
  induction fuel generalizing i best with
  | zero => exact ⟨hlen, hoff⟩
  | succ fuel ih =>
    have hm := (matchLength_bounds inp i pos hmax).2
    have hi' : pos - (i + 1) ≤ k := by omega
    unfold scanWindow
    dsimp only
    split
    · split
      · split
        · exact ⟨hm, hi⟩
        · exact ih hm hi hi'
      · exact ih hlen hoff hi'
    · exact ih hlen hoff hi'

theorem sub_windowStart_le (w pos : Nat) : pos - windowStart w pos ≤ 2 ^ w := by
  unfold windowStart
  generalize 2 ^ w = size
  split <;> omega

/-- What `SEARCH` finds at a position inside the input. -/
theorem search_bounds {e : Encoder} (h : e.pos < e.input.length) :
    e.search.bestLen ≤ e.search.maxMatch ∧ e.search.bestOff ≤ 2 ^ e.ctl.w.toNat := by
  have hmax : 1 ≤ maxMatchAt e.ctl.l.toNat e.pos e.input.length :=
    Nat.le_min.2 ⟨Nat.one_le_two_pow, by omega⟩
  exact scanWindow_bounds e.input hmax _ (Nat.zero_le _) (Nat.zero_le _) (sub_windowStart_le _ _)

theorem emitLiteral_inv {w : Writer} (hw : w.Inv) (b : Byte) : (w.emitLiteral b).Inv := by
  unfold Writer.emitLiteral
  exact writeBits_inv (writeBits_inv hw _ _) _ _

theorem emitBackref_inv {w : Writer} (hw : w.Inv) (wb lb offset length : Nat) :
    (w.emitBackref wb lb offset length).Inv := by
  unfold Writer.emitBackref
  exact writeField_inv (writeField_inv (writeBits_inv hw _ _) _ _) _ _

theorem emit_bw_inv {e : Encoder} (h : e.bw.Inv) (b : Byte) : (e.emit b).bw.Inv := by
  unfold Encoder.emit
  split <;> dsimp only
  · exact emitBackref_inv h _ _ _ _
  · exact emitLiteral_inv h b

/-- A pass advances by the length found, and by 1 at least (42_encoder.md R127, R134). -/
theorem emit_pos (e : Encoder) (b : Byte) : (e.emit b).pos = e.pos + max 1 e.bestLen := by
  unfold Encoder.emit
  split
  · dsimp only
    omega
  · dsimp only
    omega

/-- What holds of an encoder between the passes of `COMPRESS`. -/
def Encoder.PassInv (e : Encoder) : Prop :=
  e.bw.Inv ∧ e.pos ≤ e.input.length ∧ e.bestLen ≤ e.maxMatch ∧ e.maxMatch ≤ 2 ^ e.ctl.l.toNat ∧
  e.bestOff ≤ 2 ^ e.ctl.w.toNat

theorem load_passInv (e : Encoder) (input : Buffer) : (e.load input).PassInv :=
  ⟨fresh_inv, Nat.zero_le _, Nat.le_refl _, Nat.zero_le _, Nat.zero_le _⟩

theorem pass_passInv {e : Encoder} (he : e.PassInv) (hpos : e.pos < e.input.length) (b : Byte) :
    (e.search.emit b).PassInv := by
  obtain ⟨hlen, hoff⟩ := search_bounds hpos
  have hmax : e.search.maxMatch ≤ 2 ^ e.ctl.l.toNat ∧ e.search.maxMatch ≤ e.input.length - e.pos :=
    Nat.le_min.1 (Nat.le_refl _)
  refine ⟨emit_bw_inv (e := e.search) he.1 b, ?_, ?_, ?_, ?_⟩
  · rw [emit_pos, Encoder.emit_input, Encoder.search_pos, Encoder.search_input]
    omega
  · rwa [Encoder.emit_bestLen, Encoder.emit_maxMatch]
  · rw [Encoder.emit_maxMatch, Encoder.emit_ctl]
    exact hmax.1
  · rw [Encoder.emit_bestOff, Encoder.emit_ctl]
    exact hoff

/-- With a pass for every byte left, the passes of `COMPRESS` cover the input (42_encoder.md R135). -/
theorem passes_passInv {e : Encoder} (fuel : Nat) (he : e.PassInv) (hfuel : e.input.length ≤ e.pos + fuel) :
    (e.passes fuel).PassInv ∧ (e.passes fuel).pos = (e.passes fuel).input.length := by
  induction fuel generalizing e with
  | zero => exact ⟨he, Nat.le_antisymm he.2.1 hfuel⟩
  | succ fuel ih =>
    unfold Encoder.passes
    split
    next b hread =>
      obtain ⟨hpos, -⟩ := memRead_eq_some_iff.1 hread
      refine ih (pass_passInv he hpos b) ?_
      rw [emit_pos, Encoder.emit_input, Encoder.search_pos, Encoder.search_input]
      omega
    next hread => exact ⟨he, Nat.le_antisymm he.2.1 (memRead_eq_none_iff.1 hread)⟩

theorem compressed_inv {e : Encoder} (he : e.Inv) (input : Buffer) : (e.compressed input).Inv := by
  obtain ⟨hctl, hcause, -⟩ := he
  obtain ⟨⟨hbw, -, hlen, hmax, hoff⟩, hpos⟩ :=
    passes_passInv (e := e.load input) input.length (load_passInv e input) (Nat.le_add_left _ _)
  obtain ⟨hnacc, hacc⟩ := flushed_aligned hbw
  refine ⟨?_, ?_, hnacc, hacc, hpos, hlen, hmax, hoff⟩
  · rwa [e.compressed_ctl]
  · rwa [e.compressed_ctl]

theorem fresh_encoder_inv {c : Control} (hc : c.Inv) (hcause : c.cause ≠ .corrupt) :
    ({ Encoder.powerOn with ctl := c } : Encoder).Inv :=
  ⟨hc, hcause, rfl, rfl, rfl, Nat.le_refl _, Nat.zero_le _, Nat.zero_le _⟩

theorem Encoder.configure_inv (e : Encoder) (w l : Nat) : (e.configure w l).1.Inv := by
  by_cases h : legalParams w l = true
  · rw [e.configure_of_legal h]
    exact fresh_encoder_inv (construct_inv h) nofun
  · rw [e.configure_of_not_legal h]
    exact fresh_encoder_inv (constructFailed_inv e.ctl h) nofun

/-! ### The invariant: decoders -/

theorem fresh_decoder_inv {c : Control} (hc : c.Inv) (hcause : c.cause ≠ .corrupt) (hint draws : Nat) :
    ({ Decoder.powerOn with ctl := c, capHint := hint, freeDraws := draws } : Decoder).Inv := by
  refine ⟨hc, Nat.zero_le _, ?_, fun _ => fsmStep_eq_suspended_iff.2 Nat.one_pos, Nat.zero_le _, Nat.zero_le _,
    fun _ => ⟨rfl, rfl, rfl⟩, fun h => absurd h hcause⟩
  simp [Decoder.starvedNow]

theorem Decoder.configure_inv (d : Decoder) (w l hint free : Nat) : (d.configure w l hint free).1.Inv := by
  by_cases h : legalParams w l = true
  · rw [d.configure_of_legal hint free h]
    exact fresh_decoder_inv (construct_inv h) nofun _ _
  · rw [d.configure_of_not_legal hint free h]
    exact fresh_decoder_inv (constructFailed_inv d.ctl h) nofun _ _

theorem streamValue_lt (buf : Buffer) (start n : Nat) : streamValue buf start n < 2 ^ n := by
  induction n with
  | zero => exact Nat.one_pos
  | succ n ih =>
    refine Nat.or_lt_two_pow ?_ ((Bool.toNat_lt _).trans_le (Nat.pow_le_pow_right Nat.two_pos (Nat.le_add_left 1 n)))
    rw [Nat.shiftLeft_eq, Nat.pow_succ]
    omega

/-- A field read answers a number that fits the field, in one part or two (41_bit_reader.md R110). -/
theorem readField_lt {r r' : Reader} {n v : Nat} (h : r.readField n = some (v, r')) : v < 2 ^ n := by
  unfold Reader.readField at h
  split at h
  next hwide =>
    split at h
    next hi r₁ hhi =>
      split at h
      next lo r₂ hlo =>
        cases h
        obtain ⟨-, rfl, -⟩ := readBits_eq_some_iff.1 hhi
        obtain ⟨-, rfl, -⟩ := readBits_eq_some_iff.1 hlo
        have hlow := streamValue_lt r₁.stream r₁.rpos 8
        have hhigh := streamValue_lt r.stream r.rpos (n - 8)
        refine Nat.or_lt_two_pow ?_ (hlow.trans_le (Nat.pow_le_pow_right Nat.two_pos hwide.le))
        calc _ = _ * 2 ^ 8 := Nat.shiftLeft_eq _ _
          _ < 2 ^ (n - 8) * 2 ^ 8 := Nat.mul_lt_mul_of_pos_right hhigh (Nat.two_pow_pos 8)
          _ = 2 ^ n := by rw [← Nat.pow_add, Nat.sub_add_cancel hwide.le]
      · cases h
    · cases h
  · obtain ⟨-, rfl, -⟩ := readBits_eq_some_iff.1 h
    exact streamValue_lt _ _ _

/-- What holds of a decoder's cursor and token registers at every step of the FSM (10_state.md R26, R34). -/
def Decoder.InRange (d : Decoder) : Prop :=
  d.br.Inv ∧ d.tokOff ≤ 2 ^ d.ctl.w.toNat ∧ d.tokLen ≤ 2 ^ d.ctl.l.toNat

theorem replay_inRange {d : Decoder} {br : Reader} {o n : Nat} (hbr : br.Inv) (ho : o < 2 ^ d.ctl.w.toNat)
    (hn : n < 2 ^ d.ctl.l.toNat) : (d.replay br o n).decoder.InRange := by
  obtain ⟨-, h⟩ | ⟨-, h⟩ := replay_cases d br o n <;> rw [h] <;> exact ⟨hbr, ho, hn⟩

theorem fsmStep_inRange {d : Decoder} (hd : d.InRange) : d.fsmStep.decoder.InRange := by
  obtain ⟨hbr, hoff, hlen⟩ := hd
  obtain ⟨-, -, h⟩ | ⟨-, ha, h⟩ | ⟨-, -, h⟩ | ⟨-, ha, h⟩ | ⟨-, -, h⟩ | ⟨-, ha, o, n, ho, hn, h⟩ := fsmStep_cases d <;>
    rw [h]
  · exact ⟨hbr, hoff, hlen⟩
  · exact ⟨advance_inv ha hbr, hoff, hlen⟩
  · exact ⟨hbr, hoff, hlen⟩
  · exact ⟨advance_inv ha hbr, hoff, hlen⟩
  · exact ⟨hbr, hoff, hlen⟩
  · exact replay_inRange (advance_inv ha hbr) (readField_lt ho) (readField_lt hn)

theorem runFsm_inRange (fuel : Nat) {d : Decoder} (hd : d.InRange) : (d.runFsm fuel).InRange := by
  induction fuel generalizing d with
  | zero => exact hd
  | succ fuel ih =>
    have hstep := fsmStep_inRange hd
    cases h : d.fsmStep with
    | ran d' =>
      rw [runFsm_of_ran h]
      rw [h] at hstep
      exact ih hstep
    | suspended d' =>
      rw [runFsm_of_suspended h]
      rwa [h] at hstep
    | corrupt d' =>
      rw [runFsm_of_corrupt h]
      rwa [h] at hstep

theorem processed_inRange {d : Decoder} (hd : d.InRange) (chunk : Buffer) : (d.processed chunk).InRange :=
  runFsm_inRange _ (d := { d with br := d.br.feed chunk }) ⟨feed_inv hd.1 chunk, hd.2⟩

/-- A `PROCESS` at a legal pair raises `Corrupt` or ends at a step that waits for bits (43_decoder.md R153). -/
theorem processed_ends {d : Decoder} (hlegal : legalParams d.ctl.w.toNat d.ctl.l.toNat = true) (chunk : Buffer) :
    (d.processed chunk).CorruptedFrom d.ctl ∨
    ((d.processed chunk).ctl = d.ctl ∧ (d.processed chunk).br.avail < (d.processed chunk).stepBits) := by
  obtain ⟨hw, -⟩ := legalParams_iff.1 hlegal
  exact (runFsm_ends _ { d with br := d.br.feed chunk }).imp_right
    fun ⟨hctl, hwaits⟩ => ⟨hctl, hwaits (by dsimp only; omega) (Nat.lt_succ_self _)⟩

theorem processed_inv {d : Decoder} (hd : d.Inv) (hready : d.ctl.Ready) (chunk : Buffer) :
    (d.processed chunk).Inv := by
  obtain ⟨hctl, hbr, -, -, hoff, hlen, -, -⟩ := hd
  obtain ⟨hbr', hoff', hlen'⟩ := processed_inRange ⟨hbr, hoff, hlen⟩ chunk
  obtain ⟨hst, hlt, hraised⟩ | ⟨hsame, hwait⟩ := processed_ends (hctl.1 hready.1) chunk
  · refine ⟨?_, hbr', rfl, fun h => ?_, hoff', hlen', fun h => ?_, fun _ => ⟨?_, hst⟩⟩
    · exact hraised ▸ raise_corrupt_inv hctl hready hlt
    · exact absurd (h.2.symm.trans (congrArg Control.fault hraised)) nofun
    · rw [hraised, Control.raise_configured, hready.1] at h
      cases h
    · rw [hraised, Control.raise_info]
  · refine ⟨?_, hbr', rfl, fun _ => fsmStep_eq_suspended_iff.2 hwait, hoff', hlen', fun h => ?_, fun h => ?_⟩
    · rwa [hsame]
    · rw [hsame, hready.1] at h
      cases h
    · rw [hsame, cause_of_ready hctl hready] at h
      cases h

/-! ### The invariant: tokens and whole states -/

/-- Nothing is left for a ready decoder to run, so a token finds too few bits and changes nothing. -/
theorem literal_tokenRuns_of_inv {d : Decoder} {b : Byte} {r : FsmResult} (hd : d.Inv) (hready : d.ctl.Ready)
    (h : d.TokenRuns true (fun d => d.literalBody b) r) : r = .suspended d := by
  obtain ⟨-, -, -, hquiet, -⟩ := hd
  have hwait := fsmStep_eq_suspended_iff.1 (hquiet hready)
  cases h with
  | noTag => rfl
  | tagNow hst ha => exact absurd (Decoder.stepBits_of_awaitTag hst ▸ hwait) (by omega)
  | tagBefore hst => exact if_pos (Decoder.stepBits_of_literal hst ▸ hwait)

theorem backref_tokenRuns_of_inv {d : Decoder} {o n : Nat} {r : FsmResult} (hd : d.Inv) (hready : d.ctl.Ready)
    (h : d.TokenRuns false (fun d => d.backrefBody o n) r) : r = .suspended d := by
  obtain ⟨-, -, -, hquiet, -⟩ := hd
  have hwait := fsmStep_eq_suspended_iff.1 (hquiet hready)
  cases h with
  | noTag => rfl
  | tagNow hst ha => exact absurd (Decoder.stepBits_of_awaitTag hst ▸ hwait) (by omega)
  | tagBefore hst => exact if_pos (Decoder.stepBits_of_backRef hst ▸ hwait)

/-- An instruction leaves an instance that is between operations in such a state again. -/
theorem Inst.Becomes.inv {i : Instr} {x y : Inst} {o : Option Response} (h : x.Becomes i y o) (hx : x.Inv) :
    y.Inv := by
  cases h with
  | literal hready hrun => exact literal_tokenRuns_of_inv hx hready hrun ▸ hx
  | backref hready hrun => exact backref_tokenRuns_of_inv hx hready hrun ▸ hx
  | statusEnc | statusDec | getOutput | exhausted => exact hx
  | encConfig e w l => exact e.configure_inv w l
  | compress input => exact compressed_inv hx input
  | decConfig d w l hint free => exact d.configure_inv w l hint free
  | process chunk hready => exact processed_inv hx hready chunk
  | bwReset => exact fresh_inv
  | writeBits | writeByte => exact writeBits_inv hx _ _
  | flush => exact inv_of_acc_zero (flushed_aligned hx).2
  | brReset => exact Nat.zero_le _
  | feed r chunk => exact feed_inv hx chunk
  | readBits _ hread =>
    obtain ⟨ha, -, rfl⟩ := readBits_eq_some_iff.1 hread
    exact advance_inv ha hx

/-- Every instruction keeps the invariant. -/
theorem exec_inv {i : Instr} {s t : State} (hs : s.Inv) (h : exec i s = .next t) : t.Inv := by
  obtain ⟨x, y, o, hx, hbecomes, rfl⟩ := exec_becomes h
  have hy : y.Inv := hbecomes.inv (hs x (List.mem_of_getElem? hx))
  intro z hz
  rw [State.endIn_insts] at hz
  obtain hz | rfl := List.mem_or_eq_of_mem_set hz
  · exact hs z hz
  · exact hy

/-- Settles O9: a step executes one instruction, or leaves the instances as they are. -/
theorem stepKeepsTheInvariant : Obligations.StepKeepsTheInvariant := by
  intro s t hs h
  obtain ⟨q, rest, -, hserved⟩ | ⟨-, i, -, hexec⟩ | ⟨-, -, rfl⟩ := step_next h
  · have hs' : (s.accept q rest).Inv := hs
    obtain hexec | ⟨r, -, -, rfl⟩ := returnRefusal_next hserved
    · exact exec_inv hs' hexec
    · exact hs'
  · exact exec_inv hs hexec
  · exact hs

end Sys2Proof.Machine

/-! SUPPORT. The buffers (20_memory.md): but for a construction, a reset and the reload of `COMPRESS`, each buffer of
the addressed instance is a prefix of what it is afterwards, so no byte held is changed. -/

namespace Sys2Proof.Machine

/-- A buffer that has only grown reads as before wherever it held a byte (20_memory.md R50). -/
theorem memRead_of_prefix {buf buf' : Buffer} (h : buf <+: buf') :
    ∀ a < buf.length, memRead buf' a = memRead buf a := by
  obtain ⟨more, rfl⟩ := h
  exact fun _ => memRead_append_of_lt

theorem prefix_memAppend (buf : Buffer) (b : Byte) : buf <+: memAppend buf b := List.prefix_append _ _

/-! ### Writers and readers -/

theorem writeBit_wbuf_prefix (w : Writer) (bit : Bool) : w.wbuf <+: (w.writeBit bit).wbuf := by
  unfold Writer.writeBit
  dsimp only
  split
  · exact prefix_memAppend _ _
  · exact List.prefix_rfl

theorem writeBits_wbuf_prefix (w : Writer) (v n : Nat) : w.wbuf <+: (w.writeBits v n).wbuf := by
  induction n generalizing w with
  | zero => exact List.prefix_rfl
  | succ n ih => exact (writeBit_wbuf_prefix w _).trans (ih _)

theorem flushed_wbuf_prefix (w : Writer) : w.wbuf <+: w.flushed.wbuf := by
  unfold Writer.flushed
  split
  · exact prefix_memAppend _ _
  · exact List.prefix_rfl

theorem readBits_stream {r r' : Reader} {c v : Nat} (h : r.readBits c = some (v, r')) : r'.stream = r.stream := by
  obtain ⟨-, -, rfl⟩ := readBits_eq_some_iff.1 h
  rfl

/-! ### Decoders -/

/-- The buffers of `d'` begin with those of `d`: bytes were appended to `OUT` and `STREAM`, and none changed. -/
structure Decoder.GrowsTo (d d' : Decoder) : Prop where
  out : d.out <+: d'.out
  stream : d.br.stream <+: d'.br.stream

theorem Decoder.GrowsTo.refl (d : Decoder) : d.GrowsTo d := ⟨List.prefix_rfl, List.prefix_rfl⟩

theorem Decoder.GrowsTo.trans {d d' d'' : Decoder} (h : d.GrowsTo d') (h' : d'.GrowsTo d'') : d.GrowsTo d'' :=
  ⟨h.out.trans h'.out, h.stream.trans h'.stream⟩

theorem tagged_grows (d : Decoder) (n : Nat) (tag : Bool) : d.GrowsTo (d.tagged (d.br.advance n) tag) :=
  ⟨List.prefix_rfl, List.prefix_rfl⟩

theorem appendLiteral_grows (d : Decoder) (n : Nat) (b : Byte) : d.GrowsTo (d.appendLiteral (d.br.advance n) b) :=
  ⟨prefix_memAppend d.out b, List.prefix_rfl⟩

/-- A back-reference appends its copy to `OUT`, or raises `Corrupt` and appends nothing (43_decoder.md R150, R152). -/
theorem replay_grows (d : Decoder) (k o n : Nat) : d.GrowsTo (d.replay (d.br.advance k) o n).decoder := by
  obtain ⟨-, hran⟩ | ⟨-, hcorrupt⟩ := replay_cases d (d.br.advance k) o n
  · rw [hran]
    exact ⟨backCopy_extends (o + 1) (n + 1) d.out, List.prefix_rfl⟩
  · rw [hcorrupt]
    exact ⟨List.prefix_rfl, List.prefix_rfl⟩

theorem fsmStep_grows (d : Decoder) : d.GrowsTo d.fsmStep.decoder := by
  obtain ⟨-, -, h⟩ | ⟨-, -, h⟩ | ⟨-, -, h⟩ | ⟨-, -, h⟩ | ⟨-, -, h⟩ | ⟨-, -, o, n, -, -, h⟩ := fsmStep_cases d <;> rw [h]
  · exact .refl d
  · exact tagged_grows d 1 _
  · exact .refl d
  · exact appendLiteral_grows d 8 _
  · exact .refl d
  · exact replay_grows d _ o n

theorem runFsm_grows (fuel : Nat) (d : Decoder) : d.GrowsTo (d.runFsm fuel) := by
  induction fuel generalizing d with
  | zero => exact .refl d
  | succ fuel ih =>
    have hstep := fsmStep_grows d
    cases h : d.fsmStep with
    | ran d' =>
      rw [runFsm_of_ran h]
      rw [h] at hstep
      exact hstep.trans (ih d')
    | suspended d' =>
      rw [runFsm_of_suspended h]
      rwa [h] at hstep
    | corrupt d' =>
      rw [runFsm_of_corrupt h]
      rwa [h] at hstep

/-- A `PROCESS` appends its chunk to `STREAM`, and what the chunk decodes to `OUT` (43_decoder.md R146). -/
theorem processed_grows (d : Decoder) (chunk : Buffer) : d.GrowsTo (d.processed chunk) := by
  have hfed : d.GrowsTo { d with br := d.br.feed chunk } := ⟨List.prefix_rfl, List.prefix_append _ _⟩
  obtain ⟨hout, hstream⟩ := hfed.trans (runFsm_grows ((d.br.feed chunk).avail + 1) _)
  exact ⟨hout, hstream⟩

theorem literalBody_grows (d : Decoder) (b : Byte) : d.GrowsTo (d.literalBody b).decoder := by
  unfold Decoder.literalBody
  split
  · exact .refl d
  · exact appendLiteral_grows d 8 b

theorem backrefBody_grows (d : Decoder) (o n : Nat) : d.GrowsTo (d.backrefBody o n).decoder := by
  unfold Decoder.backrefBody
  split
  · exact .refl d
  · exact replay_grows d _ o n

/-- A token whose body only appends only appends: its tag changes no buffer. -/
theorem Decoder.TokenRuns.grows {d : Decoder} {tag : Bool} {body : Decoder → FsmResult} {r : FsmResult}
    (h : d.TokenRuns tag body r) (hbody : ∀ d : Decoder, d.GrowsTo (body d).decoder) : d.GrowsTo r.decoder := by
  cases h with
  | noTag => exact .refl d
  | tagNow => exact (tagged_grows d 1 tag).trans (hbody _)
  | tagBefore => exact hbody d

/-! ### What an instruction does to the buffers of an instance -/

/-- Instruction `i` has kept the bytes of instance `x`, now `y`: but for a construction and a reset the buffers of a
`DEC`, a `BW` and a `BR` have only grown, and but for `ENC.CONFIG` and `COMPRESS` an `ENC` is unchanged. -/
def Inst.KeepsBytes (i : Instr) : Inst → Inst → Prop
  | .enc e, .enc e' => (∀ w l, i ≠ .encConfig w l) → (∀ input, i ≠ .compress input) → e' = e
  | .dec d, .dec d' => (∀ w l hint, i ≠ .decConfig w l hint) → d.GrowsTo d'
  | .bw w, .bw w' => i ≠ .bwReset → w.wbuf <+: w'.wbuf
  | .br r, .br r' => i ≠ .brReset → r.stream <+: r'.stream
  | _, _ => False

theorem Inst.Becomes.keepsBytes {i : Instr} {x y : Inst} {o : Option Response} (h : x.Becomes i y o) :
    x.KeepsBytes i y := by
  cases h with
  | literal _ hrun => exact fun _ => hrun.grows fun d => literalBody_grows d _
  | backref _ hrun => exact fun _ => hrun.grows fun d => backrefBody_grows d _ _
  | statusEnc => exact fun _ _ => rfl
  | statusDec d | getOutput d => exact fun _ => .refl d
  | encConfig _ w l => exact fun hi _ => absurd rfl (hi w l)
  | compress input => exact fun _ hi => absurd rfl (hi input)
  | decConfig _ w l hint => exact fun hi => absurd rfl (hi w l hint)
  | process chunk => exact fun _ => processed_grows _ chunk
  | bwReset | brReset => exact fun hi => absurd rfl hi
  | writeBits w | writeByte w => exact fun _ => writeBits_wbuf_prefix w _ _
  | flush w => exact fun _ => flushed_wbuf_prefix w
  | feed r chunk => exact fun _ => List.prefix_append r.stream chunk
  | readBits _ hread => exact fun _ => readBits_stream hread ▸ List.prefix_rfl
  | exhausted => exact fun _ => List.prefix_rfl

theorem exec_keepsBytes {i : Instr} {s t : State} {x y : Inst} (h : exec i s = .next t) (hx : s.inst? = some x)
    (hy : t.inst? = some y) : x.KeepsBytes i y := by
  obtain ⟨x', y', o, hx', hbecomes, rfl⟩ := exec_becomes h
  obtain rfl : x' = x := Option.some.inj (hx'.symm.trans hx)
  obtain rfl : y' = y := Option.some.inj ((endIn_inst? o hx').symm.trans hy)
  exact hbecomes.keepsBytes

/-- Settles O13: whatever instruction answers keeps the bytes of the instance, and a buffer that has only grown reads
as before. -/
theorem buffersAreAppendOnly : Obligations.BuffersAreAppendOnly := by
  intro i s t h
  refine ⟨fun d d' hd hd' hi => ?_, fun w w' hw hw' hi => ?_, fun r r' hr hr' hi => ?_, fun e e' he he' => ?_⟩
  · obtain ⟨hout, hstream⟩ := exec_keepsBytes h hd hd' hi
    exact ⟨memRead_of_prefix hout, memRead_of_prefix hstream⟩
  · exact memRead_of_prefix (exec_keepsBytes h hw hw' hi)
  · exact memRead_of_prefix (exec_keepsBytes h hr hr' hi)
  · exact exec_keepsBytes h he he'

end Sys2Proof.Machine

/-! SUPPORT. The encoding (30_encoding.md): fields and tokens read from the front of a bit sequence, and the code of an
instruction. -/

namespace Sys2Proof

/-! ### Fields -/

@[simp] theorem bitsMSB_and_0xFF (v : Nat) : bitsMSB (v &&& 0xFF) 8 = bitsMSB v 8 := by
  rw [show v &&& 0xFF = v % 2 ^ 8 from Nat.and_two_pow_sub_one_eq_mod v 8, bitsMSB_mod]

/-- The two parts of a field wider than 8 bits, written one after the other, are the field (30_encoding.md R74). -/
theorem bitsMSB_split {w : Nat} (hw : 8 < w) (v : Nat) :
    bitsMSB (v >>> 8) (w - 8) ++ bitsMSB (v &&& 0xFF) 8 = bitsMSB v w := by
  rw [bitsMSB_and_0xFF, ← bitsMSB_add, Nat.sub_add_cancel hw.le]

/-- Settles O5: the low part keeps the low 8 bits, and the high part is what stands above them. -/
theorem fieldSplitKeepsTheBits : Obligations.FieldSplitKeepsTheBits :=
  fun v _ hw _ => bitsMSB_split hw v

theorem takeField_of_le {n : Nat} {bs : BitSeq} (h : n ≤ bs.length) :
    takeField n bs = some (valMSB (bs.take n), bs.drop n) := if_pos h

theorem takeField_of_lt {n : Nat} {bs : BitSeq} (h : bs.length < n) : takeField n bs = none :=
  if_neg (Nat.not_le.2 h)

/-- A field is read exactly from the bits it is written in. -/
theorem takeField_eq_some_iff_append {n v : Nat} {bs rest : BitSeq} :
    takeField n bs = some (v, rest) ↔ v < 2 ^ n ∧ bs = bitsMSB v n ++ rest := by
  constructor
  · intro h
    obtain ⟨hn, rfl, rfl⟩ := takeField_eq_some.1 h
    have hlen : (bs.take n).length = n := List.length_take_of_le hn
    have hlt := valMSB_lt (bs.take n)
    have hbits := bitsMSB_valMSB (bs.take n)
    rw [hlen] at hlt hbits
    exact ⟨hlt, by rw [hbits, List.take_append_drop]⟩
  · rintro ⟨hv, rfl⟩
    rw [takeField_bitsMSB, Nat.mod_eq_of_lt hv]

/-! ### Decoding one token -/

section
variable {w l : Nat} {bs bs' rest : BitSeq}

theorem decodeToken_true_of_some {v : Nat} (h : takeField 8 bs = some (v, rest)) :
    decodeToken w l (true :: bs) = .ok (.literal (BitVec.ofNat 8 v), rest) := by
  simp only [decodeToken, h]

theorem decodeToken_true_of_none (h : takeField 8 bs = none) : decodeToken w l (true :: bs) = .error .exhausted := by
  simp only [decodeToken, h]

theorem decodeToken_false_of_some {o n : Nat} (ho : takeField w bs = some (o, bs'))
    (hn : takeField l bs' = some (n, rest)) : decodeToken w l (false :: bs) = .ok (.backref o n, rest) := by
  simp only [decodeToken, ho, hn]

theorem decodeToken_false_of_none_offset (ho : takeField w bs = none) :
    decodeToken w l (false :: bs) = .error .exhausted := by
  simp only [decodeToken, ho]

theorem decodeToken_false_of_none_length {o : Nat} (ho : takeField w bs = some (o, bs'))
    (hn : takeField l bs' = none) : decodeToken w l (false :: bs) = .error .exhausted := by
  simp only [decodeToken, ho, hn]

/-- A `BACKREF` with fewer than `W + L` bits after its tag is exhausted in its first field or in its second. -/
theorem decodeToken_false_of_short (h : bs.length < w + l) :
    decodeToken w l (false :: bs) = .error .exhausted := by
  by_cases hw : w ≤ bs.length
  · exact decodeToken_false_of_none_length (takeField_of_le hw)
      (takeField_of_lt (by rw [List.length_drop]; omega))
  · exact decodeToken_false_of_none_offset (takeField_of_lt (Nat.not_le.1 hw))

theorem decodeToken_literalBits (b : Byte) : decodeToken w l (literalBits b ++ rest) = .ok (.literal b, rest) := by
  have h : takeField 8 (bitsMSB b.toNat 8 ++ rest) = some (b.toNat, rest) :=
    takeField_eq_some_iff_append.2 ⟨b.isLt, rfl⟩
  exact (decodeToken_true_of_some h).trans (by rw [BitVec.ofNat_toNat, BitVec.setWidth_eq])

theorem decodeToken_backrefBits {o n : Nat} (ho : o < 2 ^ w) (hn : n < 2 ^ l) :
    decodeToken w l (backrefBits w l o n ++ rest) = .ok (.backref o n, rest) :=
  decodeToken_false_of_some (takeField_eq_some_iff_append.2 ⟨ho, List.append_assoc _ _ _⟩)
    (takeField_eq_some_iff_append.2 ⟨hn, rfl⟩)

/-- All that a token can be decoded from: the bits of a `LITERAL`, or those of a `BACKREF` whose fields fit
(30_encoding.md R70 to R72). -/
theorem decodeToken_eq_ok {i : Instr} (h : decodeToken w l bs = .ok (i, rest)) :
    (∃ b, i = .literal b ∧ bs = literalBits b ++ rest) ∨
    (∃ o n, i = .backref o n ∧ o < 2 ^ w ∧ n < 2 ^ l ∧ bs = backrefBits w l o n ++ rest) := by
  match bs with
  | [] => cases h
  | true :: bs =>
    cases hb : takeField 8 bs with
    | none => cases (decodeToken_true_of_none hb).symm.trans h
    | some p =>
      obtain ⟨v, rest'⟩ := p
      cases (decodeToken_true_of_some hb).symm.trans h
      obtain ⟨hv, rfl⟩ := takeField_eq_some_iff_append.1 hb
      refine .inl ⟨_, rfl, ?_⟩
      rw [literalBits, BitVec.toNat_ofNat, Nat.mod_eq_of_lt hv, List.cons_append]
  | false :: bs =>
    cases ho : takeField w bs with
    | none => cases (decodeToken_false_of_none_offset ho).symm.trans h
    | some p =>
      obtain ⟨o, bs'⟩ := p
      cases hn : takeField l bs' with
      | none => cases (decodeToken_false_of_none_length ho hn).symm.trans h
      | some q =>
        obtain ⟨n, rest'⟩ := q
        cases (decodeToken_false_of_some ho hn).symm.trans h
        obtain ⟨ho', rfl⟩ := takeField_eq_some_iff_append.1 ho
        obtain ⟨hn', rfl⟩ := takeField_eq_some_iff_append.1 hn
        exact .inr ⟨o, n, rfl, ho', hn', by rw [backrefBits, List.cons_append, List.append_assoc]⟩

end

/-- Settles O3: after the tag the fields are taken at their widths, and a field is taken when its bits are there. -/
theorem tagBitAloneSelectsTheToken : Obligations.TagBitAloneSelectsTheToken := by
  intro w l bs
  refine ⟨fun h => ⟨_, decodeToken_true_of_some (takeField_of_le h)⟩, fun h => ?_,
    fun h => decodeToken_true_of_none (takeField_of_lt h), decodeToken_false_of_short⟩
  have hl : l ≤ (bs.drop w).length := by rw [List.length_drop]; omega
  rw [← List.drop_drop]
  exact ⟨_, _, decodeToken_false_of_some (takeField_of_le (by omega)) (takeField_of_le hl)⟩

/-! ### The code of an instruction -/

@[simp] theorem tokenBits_literal (w l : Nat) (b : Byte) : tokenBits w l (.literal b) = literalBits b := rfl

@[simp] theorem tokenBits_backref (w l o n : Nat) : tokenBits w l (.backref o n) = backrefBits w l o n := rfl

@[simp] theorem literalBits_length (b : Byte) : (literalBits b).length = 9 := rfl

@[simp] theorem backrefBits_length (w l o n : Nat) : (backrefBits w l o n).length = 1 + w + l := by
  simp only [backrefBits, List.length_cons, List.length_append, bitsMSB_length]
  omega

theorem wellFormed_backref_iff {w l o n : Nat} :
    (Instr.backref o n).wellFormed w l = true ↔ legalParams w l = true ∧ o < 2 ^ w ∧ n < 2 ^ l := by
  simp only [Instr.wellFormed, Bool.and_eq_true, decide_eq_true_eq, and_assoc]

/-- Settles O2: both ways to decode a token say what the bits were and that the fields fit. -/
theorem encodeOfDecodedTokenIsTheBits : Obligations.EncodeOfDecodedTokenIsTheBits := by
  intro w l bs rest i h
  obtain ⟨b, rfl, rfl⟩ | ⟨o, n, rfl, ho, hn, rfl⟩ := decodeToken_eq_ok h
  · exact ⟨rfl, fun _ => rfl⟩
  · exact ⟨rfl, fun hlegal => wellFormed_backref_iff.2 ⟨hlegal, ho, hn⟩⟩

theorem decode_token_of_ok {w l : Nat} {bs : BitSeq} {i : Instr} (h : decodeToken w l bs = .ok (i, [])) :
    decode w l (.token bs) = .ok i := by
  simp only [decode, h]

/-- A host operation's code and ports decode to it: the table of 30_encoding.md R86, read in both directions. -/
theorem decodeHost_of_encode {w l : Nat} {i : Instr} {q : HostWord} (h : encode w l i = .host q) :
    decodeHost q = i := by
  cases i with
  | literal | backref => cases h
  | reserved c => cases c <;> cases h <;> rfl
  | _ => cases h; rfl

/-- Settles O1: a token by the fields it is read from, a host operation by the table of codes. -/
theorem decodeOfEncodeIsTheInstruction : Obligations.DecodeOfEncodeIsTheInstruction := by
  intro w l i hi
  cases hcode : encode w l i with
  | host q => exact congrArg Except.ok (decodeHost_of_encode hcode)
  | token bs =>
    cases i with
    | literal b =>
      cases hcode
      exact decode_token_of_ok (List.append_nil (literalBits b) ▸ decodeToken_literalBits b)
    | backref o n =>
      cases hcode
      obtain ⟨-, ho, hn⟩ := wellFormed_backref_iff.1 hi
      exact decode_token_of_ok (List.append_nil (backrefBits w l o n) ▸ decodeToken_backrefBits ho hn)
    | reserved c => cases c <;> cases hcode
    | _ => cases hcode

/-- Settles O4: each word is evaluated. -/
theorem writtenOutWordsDecode : Obligations.WrittenOutWordsDecode :=
  ⟨rfl, rfl, rfl, rfl, rfl, rfl, rfl, rfl, rfl⟩

end Sys2Proof

/-! SUPPORT. The encoding on the machine: codes refused as `BadOp` (R86), the bits that `COMPRESS` writes (R79, R80),
the token that stands at a decoder's place (R77). -/

namespace Sys2Proof.Machine

/-! ### Codes for another kind of instance, and reserved codes -/

section
variable {s : State} {x : Inst} (hs : s.inst? = some x)
include hs

theorem onEnc_of_other (f : Encoder → Result) (hx : ∀ e, x ≠ .enc e) : s.onEnc f = .refused .badOp := by
  cases x with
  | enc e => exact absurd rfl (hx e)
  | _ => simp only [State.onEnc, hs]

theorem onDec_of_other (f : Decoder → Result) (hx : ∀ d, x ≠ .dec d) : s.onDec f = .refused .badOp := by
  cases x with
  | dec d => exact absurd rfl (hx d)
  | _ => simp only [State.onDec, hs]

theorem onBw_of_other (f : Writer → Result) (hx : ∀ w, x ≠ .bw w) : s.onBw f = .refused .badOp := by
  cases x with
  | bw w => exact absurd rfl (hx w)
  | _ => simp only [State.onBw, hs]

theorem onBr_of_other (f : Reader → Result) (hx : ∀ r, x ≠ .br r) : s.onBr f = .refused .badOp := by
  cases x with
  | br r => exact absurd rfl (hx r)
  | _ => simp only [State.onBr, hs]

theorem execStatus_of_other (henc : ∀ e, x ≠ .enc e) (hdec : ∀ d, x ≠ .dec d) :
    execStatus s = .refused .badOp := by
  cases x with
  | enc e => exact absurd rfl (henc e)
  | dec d => exact absurd rfl (hdec d)
  | _ => simp only [execStatus, hs]

end

/-- Settles O17: an instruction is an operation of one kind, `STATUS` of two, and each other kind refuses it. -/
theorem wrongKindIsRefusedAsBadOp : Obligations.WrongKindIsRefusedAsBadOp := by
  intro i s x hs hi
  cases i with
  | status => exact execStatus_of_other hs (by rintro e rfl; cases hi) (by rintro d rfl; cases hi)
  | encConfig | compress => exact onEnc_of_other hs _ (by rintro e rfl; cases hi)
  | literal | backref | decConfig | process | getOutput => exact onDec_of_other hs _ (by rintro d rfl; cases hi)
  | bwReset | writeBits | writeByte | flush => exact onBw_of_other hs _ (by rintro w rfl; cases hi)
  | brReset | feed | readBits => exact onBr_of_other hs _ (by rintro r rfl; cases hi)
  | reserved => rfl

/-- Settles O18: the arm of the reserved codes is the refusal, and the table of codes names them. -/
theorem reservedCodesAreRefused : Obligations.ReservedCodesAreRefused :=
  ⟨fun _ _ => rfl, rfl, rfl, rfl⟩

/-! ### The content of a writer -/

/-- `WRITEBITS` appends the low bits of its value (40_bit_writer.md R91). -/
theorem writeBits_wbits {w : Writer} (hw : w.Inv) (v n : Nat) :
    (w.writeBits v n).wbits = w.wbits ++ bitsMSB v n := by
  induction n generalizing w with
  | zero => rw [writeBits_zero, bitsMSB_zero, List.append_nil]
  | succ n ih =>
    obtain ⟨hbits, hinv⟩ := writeBit_spec hw (v.testBit n)
    rw [writeBits_succ, ih hinv, hbits, bitsMSB_succ, List.append_assoc, List.singleton_append]

/-- A field's bits do not depend on whether it is written in one part or two (30_encoding.md R74). -/
theorem writeField_wbits {w : Writer} (hw : w.Inv) (v n : Nat) :
    (w.writeField v n).wbits = w.wbits ++ bitsMSB v n := by
  unfold Writer.writeField
  split
  next hn => rw [writeBits_wbits (writeBits_inv hw _ _), writeBits_wbits hw, List.append_assoc, bitsMSB_split hn]
  · exact writeBits_wbits hw v n

theorem emitLiteral_wbits {w : Writer} (hw : w.Inv) (b : Byte) :
    (w.emitLiteral b).wbits = w.wbits ++ literalBits b := by
  rw [Writer.emitLiteral, writeBits_wbits (writeBits_inv hw _ _), writeBits_wbits hw, List.append_assoc]
  exact congrArg (w.wbits ++ ·) (List.singleton_append (x := true))

theorem emitBackref_wbits {w : Writer} (hw : w.Inv) (wb lb offset length : Nat) :
    (w.emitBackref wb lb offset length).wbits = w.wbits ++ backrefBits wb lb (offset - 1) (length - 1) := by
  have htag := writeBits_inv hw 0 1
  rw [Writer.emitBackref, writeField_wbits (writeField_inv htag _ _), writeField_wbits htag, writeBits_wbits hw,
    List.append_assoc, List.append_assoc]
  rfl

theorem bitsMSB_of_zero (n : Nat) : bitsMSB 0 n = List.replicate n false := by
  induction n with
  | zero => rfl
  | succ n ih => rw [bitsMSB_succ, ih, Nat.zero_testBit, List.replicate_succ]

/-- The valid bits of a partial byte, padded with zeros, are the byte: its other bits are zero (10_state.md R22). -/
theorem accBits_padded {w : Writer} (hw : w.Inv) :
    bitsMSB (w.acc.toNat >>> (8 - w.nacc.val)) w.nacc.val ++ List.replicate (8 - w.nacc.val) false =
      bitsMSB w.acc.toNat 8 := by
  have hlow : bitsMSB w.acc.toNat (8 - w.nacc.val) = List.replicate (8 - w.nacc.val) false := by
    rw [← bitsMSB_mod, show w.acc.toNat % 2 ^ (8 - w.nacc.val) = 0 from hw, bitsMSB_of_zero]
  rw [← hlow, ← bitsMSB_add, Nat.add_sub_of_le w.nacc.isLt.le]

theorem wbits_length (w : Writer) : w.wbits.length = 8 * w.wbuf.length + w.nacc.val := by
  simp only [Writer.wbits, List.length_append, bytesToBits_length, bitsMSB_length]

/-- `FLUSH` leaves the content padded to whole bytes (40_bit_writer.md R94). -/
theorem flushed_bits {w : Writer} (hw : w.Inv) : bytesToBits w.flushed.wbuf = padTo8 w.wbits := by
  have hlen := wbits_length w
  have hn := w.nacc.isLt
  unfold Writer.flushed
  split
  next hpos =>
    have hpad : (8 - w.wbits.length % 8) % 8 = 8 - w.nacc.val := by omega
    rw [padTo8, hpad, Writer.wbits, List.append_assoc, accBits_padded hw]
    simp only [memAppend, bytesToBits_append, bytesToBits_cons, bytesToBits_nil, List.append_nil]
  next hzero =>
    have hzero : w.nacc.val = 0 := Nat.eq_zero_of_not_pos hzero
    rw [padTo8_of_whole _ (by omega), Writer.wbits, hzero, bitsMSB_zero, List.append_nil]

/-! ### The bits of a compressed stream -/

/-- A pass appends the bits of its token. -/
theorem emit_wbits {e : Encoder} (he : e.bw.Inv) (b : Byte) :
    (e.emit b).bw.wbits = e.bw.wbits ++ tokenBits e.ctl.w.toNat e.ctl.l.toNat (e.token b) := by
  unfold Encoder.emit Encoder.token
  by_cases hlen : 2 ≤ e.bestLen
  · rw [if_pos hlen, if_pos hlen, tokenBits_backref]
    exact emitBackref_wbits he _ _ _ _
  · rw [if_neg hlen, if_neg hlen, tokenBits_literal]
    dsimp only
    exact emitLiteral_wbits he b

/-- The passes of `COMPRESS` append the bits of their tokens, in order. -/
theorem passes_wbits (fuel : Nat) {e : Encoder} (he : e.bw.Inv) :
    (e.passes fuel).bw.Inv ∧
    (e.passes fuel).bw.wbits =
      e.bw.wbits ++ (e.passTokens fuel).flatMap (tokenBits e.ctl.w.toNat e.ctl.l.toNat) := by
  induction fuel generalizing e with
  | zero => exact ⟨he, (List.append_nil _).symm⟩
  | succ fuel ih =>
    unfold Encoder.passes Encoder.passTokens
    split
    next b _ =>
      obtain ⟨hinv, hbits⟩ := ih (emit_bw_inv (e := e.search) he b)
      refine ⟨hinv, ?_⟩
      rw [hbits, emit_wbits (e := e.search) he]
      simp only [Encoder.emit_ctl, Encoder.search_ctl, Encoder.search_bw, List.flatMap_cons, List.append_assoc]
    · exact ⟨he, (List.append_nil _).symm⟩

/-- The bits of a compressed stream are those of its tokens and the padding (30_encoding.md R79). -/
theorem compressed_bits (e : Encoder) (input : Buffer) :
    bytesToBits (e.compressed input).bw.wbuf =
      padTo8 ((e.tokens input).flatMap (tokenBits e.ctl.w.toNat e.ctl.l.toNat)) := by
  obtain ⟨hinv, hbits⟩ := passes_wbits input.length (e := e.load input) fresh_inv
  exact (flushed_bits hinv).trans (congrArg padTo8 hbits)

/-- What a `COMPRESS` that answers responds (42_encoder.md R121). -/
theorem compress_response {s t : State} {e : Encoder} {input : Buffer} (hs : s.inst? = some (.enc e))
    (h : exec (.compress input) s = .next t) : t.response = .bytes (e.compressed input).bw.wbuf := by
  obtain ⟨x, y, o, hx, hbecomes, rfl⟩ := exec_becomes h
  cases Option.some.inj (hx.symm.trans hs)
  cases hbecomes
  rfl

/-- Settles O40: a buffer is given back by its bits, which are those of the tokens, padded. -/
theorem compressedBytesAreTheTokens : Obligations.CompressedBytesAreTheTokens := by
  intro s t e input hs h
  have hresponse : t.response = .bytes (bitsToBytes (padTo8
      ((e.tokens input).flatMap (tokenBits e.ctl.w.toNat e.ctl.l.toNat)))) := by
    rw [compress_response hs h, ← compressed_bits, bitsToBytes_bytesToBits]
  refine ⟨hresponse, fun hnone => ?_, ?_⟩
  · rw [hresponse, hnone]
    simp only [List.flatMap_nil, padTo8_of_whole [] rfl, bitsToBytes]
  · rintro rfl
    rfl

/-- What a pass emits is a token (42_encoder.md R127). -/
theorem passTokens_literal_or_backref (fuel : Nat) (e : Encoder) :
    ∀ i ∈ e.passTokens fuel, (∃ b, i = .literal b) ∨ ∃ o n, i = .backref o n := by
  induction fuel generalizing e with
  | zero => exact fun _ h => nomatch h
  | succ fuel ih =>
    unfold Encoder.passTokens
    split
    next b _ =>
      refine List.forall_mem_cons.2 ⟨?_, ih _⟩
      unfold Encoder.token
      split
      · exact .inr ⟨_, _, rfl⟩
      · exact .inl ⟨_, rfl⟩
    · exact fun _ h => nomatch h

theorem tokens_literal_or_backref (e : Encoder) (input : Buffer) :
    ∀ i ∈ e.tokens input, (∃ b, i = .literal b) ∨ ∃ o n, i = .backref o n :=
  passTokens_literal_or_backref _ _

@[simp] theorem isLiteralToken_literal (b : Byte) : isLiteralToken (.literal b) = true := rfl

@[simp] theorem isLiteralToken_backref (o n : Nat) : isLiteralToken (.backref o n) = false := rfl

/-- The number of bits of a list of tokens, from its numbers of literals and of back-references. -/
theorem flatMap_tokenBits_length (w l : Nat) {tokens : List Instr}
    (h : ∀ i ∈ tokens, (∃ b, i = .literal b) ∨ ∃ o n, i = .backref o n) :
    (tokens.flatMap (tokenBits w l)).length =
      9 * tokens.countP isLiteralToken + (1 + w + l) * tokens.countP (fun i => !isLiteralToken i) := by
  induction tokens with
  | nil => rfl
  | cons i tokens ih =>
    obtain ⟨hi, htokens⟩ := List.forall_mem_cons.1 h
    rw [List.flatMap_cons, List.length_append, ih htokens]
    obtain ⟨b, rfl⟩ | ⟨o, n, rfl⟩ := hi <;> simp [List.countP_cons] <;> ring

/-- Settles O41: the buffer's bits are those of its tokens, padded to whole bytes. -/
theorem streamSizeCountsItsTokens : Obligations.StreamSizeCountsItsTokens := by
  intro e input
  have hlen := congrArg List.length (compressed_bits e input)
  rw [bytesToBits_length, padTo8_length, flatMap_tokenBits_length _ _ (tokens_literal_or_backref e input)] at hlen
  dsimp only
  omega

/-! ### Reading fields from the unread bits -/

@[simp] theorem advance_unread (r : Reader) (n : Nat) : (r.advance n).unread = r.unread.drop n := by
  rw [Reader.unread, Reader.unread, List.drop_drop]
  rfl

theorem streamValue_unread {r : Reader} {n : Nat} (h : n ≤ r.avail) :
    streamValue r.stream r.rpos n = valMSB (r.unread.take n) := by
  cases n with
  | zero => rfl
  | succ n => exact streamValue_eq _ _ _ (by unfold Reader.avail at h; omega)

/-- `READBITS` takes a field from the unread bits and moves the cursor past it (41_bit_reader.md R107). -/
theorem readBits_of_takeField {r : Reader} {n v : Nat} {rest : BitSeq} (h : takeField n r.unread = some (v, rest)) :
    r.readBits n = some (v, r.advance n) ∧ (r.advance n).unread = rest := by
  obtain ⟨hn, rfl, rfl⟩ := takeField_eq_some.1 h
  rw [unread_length] at hn
  exact ⟨readBits_eq_some_iff.2 ⟨hn, (streamValue_unread hn).symm, rfl⟩, advance_unread r n⟩

theorem streamValue_add (buf : Buffer) (start n m : Nat) :
    streamValue buf start (n + m) = streamValue buf start n <<< m ||| streamValue buf (start + n) m := by
  induction m with
  | zero => simp [streamValue]
  | succ m ih =>
    rw [← Nat.add_assoc, streamValue, streamValue, ih, Nat.shiftLeft_or_distrib, ← Nat.shiftLeft_add, Nat.or_assoc,
      Nat.add_assoc]

/-- A field read in two parts is one read of its width (41_bit_reader.md R110). -/
theorem readField_eq_readBits (r : Reader) (n : Nat) : r.readField n = r.readBits n := by
  by_cases hn : n ≤ r.avail
  · rw [readBits_eq_some_iff.2 ⟨hn, rfl, rfl⟩]
    unfold Reader.readField
    split
    next hwide =>
      have hhi := readBits_eq_some_iff (r := r) (count := n - 8).2 ⟨by omega, rfl, rfl⟩
      have hlo := readBits_eq_some_iff (r := r.advance (n - 8)) (count := 8).2
        ⟨by rw [advance_avail]; omega, rfl, rfl⟩
      simp only [hhi, hlo, Reader.advance_stream, Reader.advance_rpos]
      rw [← streamValue_add, Reader.advance, Reader.advance, Reader.advance]
      simp only [Nat.add_assoc, Nat.sub_add_cancel hwide.le]
    · exact readBits_eq_some_iff.2 ⟨hn, rfl, rfl⟩
  · rw [readBits_eq_none_iff.2 (Nat.not_le.1 hn), Option.eq_none_iff_forall_ne_some]
    exact fun p hp => hn (readField_some hp).1

theorem readField_of_takeField {r : Reader} {n v : Nat} {rest : BitSeq} (h : takeField n r.unread = some (v, rest)) :
    r.readField n = some (v, r.advance n) ∧ (r.advance n).unread = rest :=
  readField_eq_readBits r n ▸ readBits_of_takeField h

/-! ### The token at a decoder's place -/

theorem tokenBitsAt_of_awaitTag {d : Decoder} (h : d.dstate = .awaitTag) : d.tokenBitsAt = d.br.unread := by
  simp only [Decoder.tokenBitsAt, h]

theorem tokenBitsAt_of_literal {d : Decoder} (h : d.dstate = .literal) : d.tokenBitsAt = true :: d.br.unread := by
  simp only [Decoder.tokenBitsAt, h]

theorem tokenBitsAt_of_backRef {d : Decoder} (h : d.dstate = .backRef) : d.tokenBitsAt = false :: d.br.unread := by
  simp only [Decoder.tokenBitsAt, h]

/-- With its tag read, a token is one step of the FSM (43_decoder.md R147). -/
theorem fsmToken_of_tagRead {d : Decoder} (h : d.dstate ≠ .awaitTag) : d.fsmToken = d.fsmStep := by
  cases hst : d.dstate with
  | awaitTag => exact absurd hst h
  | literal | backRef => simp only [Decoder.fsmToken, Decoder.fsmStep, hst]

/-- With the tag of a token unread or read before, the token's own bits begin in the state its tag selects; the FSM
goes on there (43_decoder.md R147, R148). -/
theorem atToken_of_tokenBitsAt {d : Decoder} {tag : Bool} {bits : BitSeq} (h : d.tokenBitsAt = tag :: bits) :
    ∃ d', d.atToken tag = some (.ran d') ∧ d.fsmToken = d'.fsmStep ∧
      d'.dstate = (if tag then .literal else .backRef) ∧ d'.ctl = d.ctl ∧ d'.br.unread = bits := by
  cases hst : d.dstate with
  | awaitTag =>
    rw [tokenBitsAt_of_awaitTag hst] at h
    have htag : takeField 1 d.br.unread = some (tag.toNat, bits) := by
      rw [takeField_eq_some_iff_append, h]
      cases tag <;> exact ⟨by decide, rfl⟩
    obtain ⟨hread, hrest⟩ := readBits_of_takeField htag
    obtain ⟨havail, -⟩ := readBits_eq_some_iff.1 hread
    refine ⟨d.tagged (d.br.advance 1) tag, ?_, ?_, rfl, rfl, hrest⟩
    · simp only [Decoder.atToken, hst, if_neg (Nat.not_lt.2 havail)]
    · cases tag <;> simp [Decoder.fsmToken, hst, Decoder.stepTag, hread]
  | literal =>
    rw [tokenBitsAt_of_literal hst] at h
    cases h
    exact ⟨d, by simp only [Decoder.atToken, hst], fsmToken_of_tagRead (by simp [hst]), hst, rfl, rfl⟩
  | backRef =>
    rw [tokenBitsAt_of_backRef hst] at h
    cases h
    exact ⟨d, by simp only [Decoder.atToken, hst], fsmToken_of_tagRead (by simp [hst]), hst, rfl, rfl⟩

/-- `STEP.LIT` on the bits of a byte is the body of its `LITERAL` (43_decoder.md R149). -/
theorem fsmStep_of_literal {d : Decoder} {b : Byte} {rest : BitSeq} (hst : d.dstate = .literal)
    (h : d.br.unread = bitsMSB b.toNat 8 ++ rest) :
    d.fsmStep = d.literalBody b ∧ d.literalBody b = .ran (d.appendLiteral (d.br.advance 8) b) ∧
      (d.br.advance 8).unread = rest := by
  obtain ⟨hread, hrest⟩ := readBits_of_takeField (takeField_eq_some_iff_append.2 ⟨b.isLt, h⟩)
  obtain ⟨havail, -⟩ := readBits_eq_some_iff.1 hread
  have hbody : d.literalBody b = .ran (d.appendLiteral (d.br.advance 8) b) := if_neg (Nat.not_lt.2 havail)
  refine ⟨?_, hbody, hrest⟩
  simp only [hbody, Decoder.fsmStep, hst, Decoder.stepLit, hread, BitVec.ofNat_toNat, BitVec.setWidth_eq]

/-- `STEP.BREF` on the bits of two fields is the body of their `BACKREF` (43_decoder.md R150). -/
theorem fsmStep_of_backref {d : Decoder} {o n : Nat} {rest : BitSeq} (hst : d.dstate = .backRef)
    (ho : o < 2 ^ d.ctl.w.toNat) (hn : n < 2 ^ d.ctl.l.toNat)
    (h : d.br.unread = bitsMSB o d.ctl.w.toNat ++ (bitsMSB n d.ctl.l.toNat ++ rest)) :
    d.fsmStep = d.backrefBody o n ∧
      d.backrefBody o n = d.replay (d.br.advance (d.ctl.w.toNat + d.ctl.l.toNat)) o n ∧
      (d.br.advance (d.ctl.w.toNat + d.ctl.l.toNat)).unread = rest := by
  obtain ⟨hreado, hresto⟩ := readField_of_takeField (takeField_eq_some_iff_append.2 ⟨ho, h⟩)
  obtain ⟨hreadn, hrest⟩ := readField_of_takeField (takeField_eq_some_iff_append.2 ⟨hn, hresto⟩)
  have hadvance : (d.br.advance d.ctl.w.toNat).advance d.ctl.l.toNat =
      d.br.advance (d.ctl.w.toNat + d.ctl.l.toNat) := by
    simp only [Reader.advance, Nat.add_assoc]
  rw [hadvance] at hreadn hrest
  have havail : ¬ d.br.avail < d.ctl.w.toNat + d.ctl.l.toNat := by
    have := congrArg List.length h
    simp only [unread_length, List.length_append, bitsMSB_length] at this
    omega
  have hbody : d.backrefBody o n = d.replay (d.br.advance (d.ctl.w.toNat + d.ctl.l.toNat)) o n := if_neg havail
  refine ⟨?_, hbody, hrest⟩
  simp only [hbody, Decoder.fsmStep, hst, Decoder.stepBref, if_neg havail, hreado, hreadn]

theorem replay_ran_or_corrupt (d : Decoder) (br : Reader) (o n : Nat) :
    ∃ d', (d.replay br o n = .ran d' ∨ d.replay br o n = .corrupt d') ∧ d'.br = br := by
  obtain ⟨-, h⟩ | ⟨-, h⟩ := replay_cases d br o n
  · exact ⟨_, .inl h, rfl⟩
  · exact ⟨_, .inr h, rfl⟩

/-- A token on a ready decoder with its tag there is its body, executed past the tag. -/
theorem tokenWithin_of_ready {s : State} {d d' : Decoder} {tag : Bool} (c : Caps) (body : Decoder → FsmResult)
    (hs : s.inst? = some (.dec d)) (hready : d.ctl.Ready) (h : d.atToken tag = some (.ran d')) :
    tokenWithin c tag body s = s.endToken c (body d') := by
  simp only [tokenWithin, onDec_of _ hs, refusal?_eq_none_iff.2 hready, h]

/-- Settles O51: past the tag, the body of the decoded token is the step of the FSM in the state the tag selects. -/
theorem fsmExecutesTheDecodedToken : Obligations.FsmExecutesTheDecodedToken := by
  intro s d i rest hs hready hdecode
  obtain ⟨b, rfl, hbits⟩ | ⟨o, n, rfl, ho, hn, hbits⟩ := decodeToken_eq_ok hdecode
  · obtain ⟨d', hat, hfsm, hst, -, hunread⟩ := atToken_of_tokenBitsAt hbits
    obtain ⟨hstep, hbody, hrest⟩ := fsmStep_of_literal hst hunread
    rw [hfsm, hstep]
    exact ⟨tokenWithin_of_ready _ _ hs hready hat, _, .inl hbody, hrest⟩
  · rw [backrefBits, List.cons_append, List.append_assoc] at hbits
    obtain ⟨d', hat, hfsm, hst, hctl, hunread⟩ := atToken_of_tokenBitsAt hbits
    rw [← hctl] at ho hn hunread
    obtain ⟨hstep, hbody, hrest⟩ := fsmStep_of_backref hst ho hn hunread
    obtain ⟨d'', hends, hbr⟩ := replay_ran_or_corrupt d' (d'.br.advance (d'.ctl.w.toNat + d'.ctl.l.toNat)) o n
    rw [hfsm, hstep]
    exact ⟨tokenWithin_of_ready _ _ hs hready hat, d'', hbody ▸ hends, hbr ▸ hrest⟩

end Sys2Proof.Machine

/-! SUPPORT. The bit writer (40_bit_writer.md): a write is a fold over its bits, what it adds to the partial byte, and
the barrel form. -/

namespace Sys2Proof.Machine

/-! ### A write is its bits, in order -/

/-- Reducing a value to its low `n` bits first does not change them. -/
@[simp] theorem bitsMSB_and_mask (v n : Nat) : bitsMSB (v &&& (2 ^ n - 1)) n = bitsMSB v n := by
  rw [Nat.and_two_pow_sub_one_eq_mod, bitsMSB_mod]

/-- The digits of two values joined by a shift are those of the high one, then those of the low one. -/
theorem bitsMSB_join (a v n c : Nat) :
    bitsMSB ((a <<< c) ||| (v &&& (2 ^ c - 1))) (n + c) = bitsMSB a n ++ bitsMSB v c := by
  have hlt : v % 2 ^ c < 2 ^ c := Nat.mod_lt _ (Nat.two_pow_pos c)
  have hsum : (a <<< c) ||| (v &&& (2 ^ c - 1)) = 2 ^ c * a + v % 2 ^ c := by
    rw [Nat.and_two_pow_sub_one_eq_mod, Nat.two_pow_add_eq_or_of_lt hlt, Nat.shiftLeft_eq, Nat.mul_comm]
  have hhigh : (2 ^ c * a + v % 2 ^ c) >>> c = a := by
    rw [Nat.shiftRight_eq_div_pow, Nat.mul_add_div (Nat.two_pow_pos c), Nat.div_eq_of_lt hlt, Nat.add_zero]
  rw [hsum, bitsMSB_add, hhigh, ← bitsMSB_mod _ c, Nat.mul_add_mod, Nat.mod_mod, bitsMSB_mod]

/-- A write depends on its value and count through its bits only. -/
theorem writeBits_eq_foldl (w : Writer) (v n : Nat) : w.writeBits v n = (bitsMSB v n).foldl Writer.writeBit w := by
  induction n generalizing w with
  | zero => rfl
  | succ n ih => rw [writeBits_succ, ih, bitsMSB_succ, List.foldl_cons]

/-- A write, split after its first `n` bits. -/
theorem writeBits_add (w : Writer) (v n m : Nat) :
    w.writeBits v (n + m) = (w.writeBits (v >>> m) n).writeBits v m := by
  simp only [writeBits_eq_foldl, bitsMSB_add, List.foldl_append]

/-- Two writes are one write of the joined value (40_bit_writer.md R96). -/
theorem writeBits_writeBits (w : Writer) (v1 c1 v2 c2 : Nat) :
    (w.writeBits v1 c1).writeBits v2 c2 =
      w.writeBits (((v1 &&& (2 ^ c1 - 1)) <<< c2) ||| (v2 &&& (2 ^ c2 - 1))) (c1 + c2) := by
  simp only [writeBits_eq_foldl, bitsMSB_join, bitsMSB_and_mask, List.foldl_append]

/-- Writes append their fields to the content, in order (40_bit_writer.md R96). -/
theorem writeAll_spec {w : Writer} (hw : w.Inv) (fields : List (Nat × Nat)) :
    (w.writeAll fields).Inv ∧
      (w.writeAll fields).wbits = w.wbits ++ fields.flatMap fun f => bitsMSB f.1 f.2 := by
  induction fields generalizing w with
  | nil => exact ⟨hw, (List.append_nil _).symm⟩
  | cons f fields ih =>
    obtain ⟨hinv, hbits⟩ := ih (writeBits_inv hw f.1 f.2)
    exact ⟨hinv, by rw [List.flatMap_cons, ← List.append_assoc, ← writeBits_wbits hw, ← hbits]; rfl⟩

/-- The buffer after a `FLUSH` is the padded content as bytes (40_bit_writer.md R94). -/
theorem flushed_wbuf {w : Writer} (hw : w.Inv) : w.flushed.wbuf = bitsToBytes (padTo8 w.wbits) := by
  rw [← flushed_bits hw, bitsToBytes_bytesToBits]

/-- Settles O27: two writes are a fold over the joined bits, and a `FLUSH` pads what the writes have appended. -/
theorem writesConcatenate : Obligations.WritesConcatenate := by
  refine ⟨writeBits_writeBits, fun fields => ?_⟩
  obtain ⟨hinv, hbits⟩ := writeAll_spec fresh_inv fields
  rw [flushed_wbuf hinv, hbits]
  rfl

/-! ### The operations of a `BW`, as answers -/

section

variable {s : State} {w : Writer} (hs : s.inst? = some (.bw w))
include hs

theorem exec_bwReset_of : exec .bwReset s = .next (s.answer (.bw .fresh) .none) :=
  onBw_of _ hs

theorem exec_writeBits_of_le (v : PortValue) {n : Nat} (hn : n ≤ 16) :
    exec (.writeBits v n) s = .next (s.answer (.bw (w.writeBits v.toNat n)) .none) :=
  (onBw_of _ hs).trans (if_neg (Nat.not_lt.2 hn))

theorem exec_writeBits_of_lt (v : PortValue) {n : Nat} (hn : 16 < n) :
    exec (.writeBits v n) s = .refused .badCount :=
  (onBw_of _ hs).trans (if_pos hn)

theorem exec_flush_of : exec .flush s = .next (s.answer (.bw w.flushed) (.bytes w.flushed.wbuf)) :=
  onBw_of _ hs

end

/-- Settles O22: the answer is the power-on writer. -/
theorem bwResetMakesAFreshWriter : Obligations.BwResetMakesAFreshWriter :=
  ⟨fun _ => rfl, fun _ _ hs => exec_bwReset_of hs⟩

/-- A write completes the bytes that its bits fill. -/
theorem writeBits_wbuf_length {w : Writer} (hw : w.Inv) (v n : Nat) :
    (w.writeBits v n).wbuf.length = w.wbuf.length + (w.nacc.val + n) / 8 := by
  have hlen := congrArg List.length (writeBits_wbits hw v n)
  rw [List.length_append, wbits_length, wbits_length, bitsMSB_length] at hlen
  have hnacc := (w.writeBits v n).nacc.isLt
  omega

/-- Settles O23: the writer answered is that of the loop, whose content grows by the bits written. -/
theorem writeBitsAppendsTheLowBits : Obligations.WriteBitsAppendsTheLowBits := by
  refine ⟨fun _ => rfl, fun s w v n hs hw => ⟨fun hn => ?_, exec_writeBits_of_lt hs v⟩⟩
  refine ⟨w.writeBits v.toNat n, exec_writeBits_of_le hs v hn, writeBits_wbits hw _ n, writeBits_inv hw _ n,
    writeBits_wbuf_length hw _ n, ?_⟩
  rintro rfl
  exact writeBits_zero w _

/-! ### `FLUSH` -/

/-- A byte-aligned writer has only its whole bytes as content. -/
theorem wbits_of_aligned {w : Writer} (hn : w.nacc = 0) : w.wbits = bytesToBits w.wbuf := by
  simp [Writer.wbits, hn]

theorem flushed_of_aligned {w : Writer} (hn : w.nacc = 0) : w.flushed = w := by
  simp [Writer.flushed, hn]

/-- The same answer a second time changes nothing. -/
theorem answer_answer (s : State) (x : Inst) (r : Response) : (s.answer x r).answer x r = s.answer x r := by
  simp [State.answer]

/-- Settles O26: a `FLUSH` leaves the padded content on whole bytes, where a second one finds nothing to pad. -/
theorem flushPadsAndReturnsTheBuffer : Obligations.FlushPadsAndReturnsTheBuffer := by
  intro s w hs hw
  obtain ⟨hnacc, hacc⟩ := flushed_aligned hw
  refine ⟨w.flushed, exec_flush_of hs, flushed_wbuf hw, (wbits_of_aligned hnacc).trans (flushed_bits hw), hacc, hnacc, ?_⟩
  rw [exec_flush_of (answer_inst? _ hs), flushed_of_aligned hnacc, answer_answer]

/-! ### The barrel form -/

/-- The bytes sliced off the top of a number of `t` bits are its first `8 * k` digits (40_bit_writer.md R92). -/
theorem bytesToBits_slicedBytes (x : Nat) {t k : Nat} (hk : 8 * k ≤ t) :
    bytesToBits (slicedBytes x t k) = bitsMSB (x >>> (t - 8 * k)) (8 * k) := by
  induction k with
  | zero => rfl
  | succ k ih =>
    have hlast : slicedBytes x t (k + 1) =
        slicedBytes x t k ++ [BitVec.ofNat 8 ((x >>> (t - 8 * (k + 1))) &&& 0xFF)] := by
      simp [slicedBytes, List.range_succ]
    have hbyte (y : Nat) : bitsMSB (BitVec.ofNat 8 (y &&& 0xFF)).toNat 8 = bitsMSB y 8 := by
      rw [BitVec.toNat_ofNat, bitsMSB_mod, bitsMSB_and_0xFF]
    have hshift : t - 8 * (k + 1) + 8 = t - 8 * k := by omega
    rw [hlast, bytesToBits_append, bytesToBits_cons, bytesToBits_nil, List.append_nil, hbyte, ih (by omega),
      Nat.mul_succ, bitsMSB_add, ← Nat.mul_succ, ← Nat.shiftRight_add, hshift]

/-- The partial byte of the barrel form is the last `r` digits at the top of a byte, zeros below (40_bit_writer.md
R92). -/
theorem leftAligned_toNat (x : Nat) {r : Nat} (hr : r < 8) :
    (BitVec.ofNat 8 ((x &&& (2 ^ r - 1)) <<< (8 - r))).toNat = x % 2 ^ r * 2 ^ (8 - r) := by
  have hlt : x % 2 ^ r * 2 ^ (8 - r) < 2 ^ r * 2 ^ (8 - r) :=
    Nat.mul_lt_mul_of_pos_right (Nat.mod_lt _ (Nat.two_pow_pos r)) (Nat.two_pow_pos _)
  rw [← Nat.pow_add, Nat.add_sub_of_le hr.le] at hlt
  rw [Nat.and_two_pow_sub_one_eq_mod, Nat.shiftLeft_eq, BitVec.toNat_ofNat, Nat.mod_eq_of_lt hlt]

/-- The barrel form keeps the unwritten bits zero and appends the same bits as the loop (40_bit_writer.md R92). -/
theorem writeBitsBarrel_spec (w : Writer) (v n : Nat) :
    (w.writeBitsBarrel v n).Inv ∧ (w.writeBitsBarrel v n).wbits = w.wbits ++ bitsMSB v n := by
  have hr : (w.nacc.val + n) % 8 < 8 := Nat.mod_lt _ (by decide)
  have hnacc : (Fin.ofNat 8 ((w.nacc.val + n) % 8)).val = (w.nacc.val + n) % 8 := Nat.mod_mod _ _
  have hcut : w.nacc.val + n - 8 * ((w.nacc.val + n) / 8) = (w.nacc.val + n) % 8 := by omega
  have hdigits := bitsMSB_join (w.acc.toNat >>> (8 - w.nacc.val)) v w.nacc.val n
  rw [Writer.writeBitsBarrel]
  generalize ((w.acc.toNat >>> (8 - w.nacc.val)) <<< n) ||| (v &&& (2 ^ n - 1)) = x at hdigits ⊢
  constructor
  · simp only [Writer.Inv, hnacc, leftAligned_toNat x hr, Nat.mul_mod_left]
  · have hlow : (x % 2 ^ ((w.nacc.val + n) % 8) * 2 ^ (8 - (w.nacc.val + n) % 8)) >>>
        (8 - (w.nacc.val + n) % 8) = x % 2 ^ ((w.nacc.val + n) % 8) := by
      rw [Nat.shiftRight_eq_div_pow, Nat.mul_div_cancel _ (Nat.two_pow_pos _)]
    simp only [Writer.wbits, hnacc, leftAligned_toNat x hr, hlow, bitsMSB_mod, bytesToBits_append,
      bytesToBits_slicedBytes x (Nat.mul_div_le (w.nacc.val + n) 8), hcut]
    rw [List.append_assoc, List.append_assoc, ← bitsMSB_add, Nat.div_add_mod, hdigits]

/-- Settles O24: both forms append the same bits, and the content determines the writer. -/
theorem barrelWriterEqualsTheLoop : Obligations.BarrelWriterEqualsTheLoop := by
  intro w v n hw
  obtain ⟨hinv, hbits⟩ := writeBitsBarrel_spec w v n
  exact writer_ext hinv (writeBits_inv hw v n) (hbits.trans (writeBits_wbits hw v n).symm)

/-! ### Whole bytes -/

/-- The writer whose partial byte has become `acc` with `n` valid bits; the eighth bit completes it
(40_bit_writer.md R91). -/
def Writer.withAcc (w : Writer) (acc : Byte) (n : Nat) : Writer :=
  if n = 8 then { wbuf := memAppend w.wbuf acc, acc := 0, nacc := 0 } else { w with acc := acc, nacc := Fin.ofNat 8 n }

theorem writeBit_eq_withAcc (w : Writer) (bit : Bool) :
    w.writeBit bit = w.withAcc (w.acc ||| ((BitVec.ofBool bit).zeroExtend 8 <<< (7 - w.nacc.val))) (w.nacc.val + 1) := rfl

theorem withAcc_self (w : Writer) : w.withAcc w.acc w.nacc.val = w := by
  simp [Writer.withAcc, w.nacc.isLt.ne]

theorem withAcc_of_ne {w : Writer} {acc : Byte} {n : Nat} (h : n ≠ 8) :
    w.withAcc acc n = { w with acc := acc, nacc := Fin.ofNat 8 n } := if_neg h

/-- The low `n` bits of `v`, placed in a byte just below its first `k` bits. -/
def placedBits (v n k : Nat) : Byte := (BitVec.ofNat 8 v <<< (8 - n)) >>> k

@[simp] theorem placedBits_zero (v k : Nat) : placedBits v 0 k = 0#8 := by
  simp [placedBits]

/-- The first of the bits placed stands just below the first `k`, the others below it. -/
theorem placedBits_succ (v : Nat) {n k : Nat} (h : k + (n + 1) ≤ 8) :
    placedBits v (n + 1) k =
      ((BitVec.ofBool (v.testBit n)).zeroExtend 8 <<< (7 - k)) ||| placedBits v n (k + 1) := by
  refine BitVec.eq_of_getLsbD_eq fun i hi => ?_
  simp only [placedBits, BitVec.getLsbD_or, BitVec.getLsbD_ushiftRight, BitVec.getLsbD_shiftLeft, BitVec.getLsbD_ofNat,
    BitVec.truncate_eq_setWidth, BitVec.getLsbD_setWidth, BitVec.getLsbD_ofBool]
  obtain hlow | rfl | hhigh := Nat.lt_trichotomy i (7 - k)
  · have hindex : k + i - (8 - (n + 1)) = k + 1 + i - (8 - n) := by omega
    rw [hindex]
    grind
  · have hindex : k + (7 - k) - (8 - (n + 1)) = n := by omega
    rw [hindex]
    grind
  · grind

/-- Bits that do not go past the partial byte fill it from the top (40_bit_writer.md R91). -/
theorem writeBits_within_byte {w : Writer} (v : Nat) {n : Nat} (h : w.nacc.val + n ≤ 8) :
    w.writeBits v n = w.withAcc (w.acc ||| placedBits v n w.nacc.val) (w.nacc.val + n) := by
  induction n generalizing w with
  | zero => rw [writeBits_zero, placedBits_zero, BitVec.or_zero, Nat.add_zero, withAcc_self]
  | succ n ih =>
    rw [writeBits_succ, writeBit_eq_withAcc, placedBits_succ v h, ← BitVec.or_assoc]
    by_cases hlast : w.nacc.val + 1 = 8
    · obtain rfl : n = 0 := by omega
      rw [writeBits_zero, placedBits_zero, BitVec.or_zero]
    · have hnacc : (Fin.ofNat 8 (w.nacc.val + 1)).val = w.nacc.val + 1 := Nat.mod_eq_of_lt (by omega)
      rw [withAcc_of_ne hlast, ih (by rw [hnacc]; omega), hnacc, Nat.add_right_comm]
      rfl

/-- The first `8 - k` bits of a byte, placed below `k` bits, are the byte moved down. -/
theorem placedBits_high (b : Byte) {k : Nat} (hk : k < 8) : placedBits (b.toNat >>> k) (8 - k) k = b >>> k := by
  refine BitVec.eq_of_getLsbD_eq fun i hi => ?_
  have hindex : k + (k + i - (8 - (8 - k))) = k + i := by omega
  simp only [placedBits, BitVec.getLsbD_ushiftRight, BitVec.getLsbD_shiftLeft, BitVec.getLsbD_ofNat, Nat.testBit_shiftRight,
    hindex, BitVec.testBit_toNat]
  grind

/-- The last `k` bits of a byte, placed at the top, are the byte moved up. -/
theorem placedBits_low (b : Byte) (k : Nat) : placedBits b.toNat k 0 = b <<< (8 - k) := by
  simp [placedBits]

/-- Fewer than 8 bits on a byte-aligned writer start a partial byte. -/
theorem writeBits_of_aligned (buf : Buffer) (v : Nat) {n : Nat} (hn : n < 8) :
    ({ wbuf := buf, acc := 0, nacc := 0 } : Writer).writeBits v n =
      { wbuf := buf, acc := placedBits v n 0, nacc := Fin.ofNat 8 n } := by
  rw [writeBits_within_byte v (by simp [hn.le]), withAcc_of_ne (by simp [hn.ne])]
  simp

/-- A write of 8 bits completes one byte and leaves as many bits over as before (40_bit_writer.md R93). -/
theorem writeBits_byte (w : Writer) (b : Byte) :
    w.writeBits b.toNat 8 =
      { wbuf := w.wbuf ++ [w.acc ||| (b >>> w.nacc.val)], acc := b <<< (8 - w.nacc.val), nacc := w.nacc } := by
  have hn := w.nacc.isLt
  have hfill : w.writeBits (b.toNat >>> w.nacc.val) (8 - w.nacc.val) =
      { wbuf := w.wbuf ++ [w.acc ||| (b >>> w.nacc.val)], acc := 0, nacc := 0 } := by
    rw [writeBits_within_byte _ (by omega), placedBits_high b hn, Nat.add_sub_of_le hn.le]
    rfl
  calc w.writeBits b.toNat 8
      = (w.writeBits (b.toNat >>> w.nacc.val) (8 - w.nacc.val)).writeBits b.toNat w.nacc.val := by
        rw [← writeBits_add, Nat.sub_add_cancel hn.le]
    _ = _ := by rw [hfill, writeBits_of_aligned _ _ hn, placedBits_low, Fin.ofNat_val_eq_self]

/-- On a byte-aligned writer the partial byte is zero (10_state.md R22). -/
theorem acc_of_aligned {w : Writer} (hw : w.Inv) (hn : w.nacc = 0) : w.acc = 0 :=
  flushed_of_aligned hn ▸ (flushed_aligned hw).2

/-- Settles O25: the write of 8 bits fills the partial byte and starts the next one. -/
theorem writeByteCompletesOneByte : Obligations.WriteByteCompletesOneByte := by
  refine ⟨fun _ => rfl, fun s b => ⟨rfl, fun w hs => ⟨?_, fun hw hn => ?_⟩⟩⟩
  · rw [← writeBits_byte, ← BitVec.toNat_setWidth_of_le (show 8 ≤ 16 by decide) (b := b)]
    exact exec_writeBits_of_le hs (b.zeroExtend 16) (by decide)
  · simp [acc_of_aligned hw hn, hn]

end Sys2Proof.Machine

/-! SUPPORT. The bit reader (41_bit_reader.md): its operations as answers, the barrel form as a slice of the stream's
bits, and reading back what a writer has written. -/

namespace Sys2Proof

/-! ### Slices of a bit sequence -/

/-- Whole bytes cut out of a buffer are whole bytes cut out of its bits (20_memory.md R52). -/
theorem bytesToBits_take_drop {buf : Buffer} {q m : Nat} (h : q + m ≤ buf.length) :
    bytesToBits ((buf.drop q).take m) = ((bytesToBits buf).drop (8 * q)).take (8 * m) := by
  have hdrop : (bytesToBits buf).drop (8 * q) = bytesToBits (buf.drop q) := by
    conv_lhs => rw [← List.take_append_drop q buf, bytesToBits_append]
    exact List.drop_left' (by rw [bytesToBits_length, List.length_take]; omega)
  rw [hdrop]
  conv_rhs => rw [← List.take_append_drop m (buf.drop q), bytesToBits_append]
  exact (List.take_left' (by rw [bytesToBits_length, List.length_take, List.length_drop]; omega)).symm

/-- The value of `n` bits after the first `s` is cut out of the whole value by a shift and a mask. -/
theorem valMSB_take_drop {bs : BitSeq} {s n t : Nat} (h : bs.length = s + (n + t)) :
    (valMSB bs >>> t) &&& (2 ^ n - 1) = valMSB ((bs.drop s).take n) := by
  have hbits : bs = bitsMSB (valMSB bs >>> (n + t)) s ++ (bitsMSB (valMSB bs >>> t) n ++ bitsMSB (valMSB bs) t) := by
    rw [← bitsMSB_add, ← bitsMSB_add, ← h, bitsMSB_valMSB]
  have hslice : (bs.drop s).take n = bitsMSB (valMSB bs >>> t) n := by
    conv_lhs => rw [hbits]
    rw [List.drop_left' (bitsMSB_length _ s), List.take_left' (bitsMSB_length _ n)]
  rw [hslice, valMSB_bitsMSB, Nat.and_two_pow_sub_one_eq_mod]

end Sys2Proof

namespace Sys2Proof.Machine

/-! ### Reading back what was written -/

theorem fresh_unread_feed (buf : Buffer) : (Reader.fresh.feed buf).unread = bytesToBits buf := rfl

/-- Reads of the counts of fields that stand at the front answer the fields, and leave what stands after them
(41_bit_reader.md R111). -/
theorem readAll_of_fields (fields : List (Nat × Nat)) {r : Reader} {rest : BitSeq}
    (h : r.unread = (fields.flatMap fun f => bitsMSB f.1 f.2) ++ rest) :
    ∃ r', r.readAll (fields.map Prod.snd) = some (fields.map fun f => f.1 &&& (2 ^ f.2 - 1), r') ∧
      r'.unread = rest := by
  induction fields generalizing r with
  | nil => exact ⟨r, rfl, h⟩
  | cons f fields ih =>
    rw [List.flatMap_cons, List.append_assoc] at h
    obtain ⟨hread, hunread⟩ := readBits_of_takeField (h ▸ takeField_bitsMSB f.1 f.2 _)
    obtain ⟨r', hrest, hpadding⟩ := ih hunread
    refine ⟨r', ?_, hpadding⟩
    simp only [List.map_cons, Reader.readAll, hread, hrest, Nat.and_two_pow_sub_one_eq_mod]

theorem flatMap_bitsMSB_length (fields : List (Nat × Nat)) :
    (fields.flatMap fun f => bitsMSB f.1 f.2).length = (fields.map Prod.snd).sum := by
  simp only [List.length_flatMap, bitsMSB_length]

/-- Settles O34: the bits fed are those of the fields, which the reads take off the front one by one, and the
padding. -/
theorem readerInvertsWriter : Obligations.ReaderInvertsWriter := by
  intro fields
  obtain ⟨hinv, hbits⟩ := writeAll_spec fresh_inv fields
  have hfed := (fresh_unread_feed _).trans ((flushed_bits hinv).trans (congrArg padTo8 hbits))
  obtain ⟨r, hread, hpadding⟩ := readAll_of_fields fields hfed
  have havail : r.avail = (8 - (fields.map Prod.snd).sum % 8) % 8 := by
    rw [← unread_length, hpadding, List.length_replicate]
    exact congrArg (fun n => (8 - n % 8) % 8) (flatMap_bitsMSB_length fields)
  refine ⟨r, hread, havail, ?_⟩
  rw [← unread_length, hpadding, List.length_replicate]

/-! ### The operations of a `BR`, as answers -/

section

variable {s : State} {r : Reader} (hs : s.inst? = some (.br r))
include hs

theorem exec_brReset_of : exec .brReset s = .next (s.answer (.br .fresh) .none) :=
  onBr_of _ hs

theorem exec_feed_of (chunk : Buffer) : exec (.feed chunk) s = .next (s.answer (.br (r.feed chunk)) .none) :=
  onBr_of _ hs

theorem feedWithin_of_lt {c : Caps} {chunk : Buffer} {n : Nat} (hcap : c.streamCap = some n)
    (hn : n < r.stream.length + chunk.length) : feedWithin c chunk s = .refused .capacityExceeded := by
  have hfits : fits c.streamCap (r.feed chunk).stream.length = false := by
    rw [hcap, fits_some, Reader.feed_stream, List.length_append, decide_eq_false (Nat.not_le.2 hn)]
  rw [feedWithin, onBr_of _ hs, hfits, within_false]

theorem exec_readBits_of_lt_count {count : Nat} (hcount : 16 < count) :
    exec (.readBits count) s = .refused .badCount :=
  (onBr_of _ hs).trans (if_pos hcount)

theorem exec_readBits_of_le {count : Nat} (hcount : count ≤ 16) (havail : count ≤ r.avail) :
    exec (.readBits count) s =
      .next (s.answer (.br (r.advance count)) (.value (valMSB (r.unread.take count)))) := by
  have hread := readBits_eq_some_iff.2 ⟨havail, (streamValue_unread havail).symm, rfl⟩
  refine ((onBr_of _ hs).trans (if_neg (Nat.not_lt.2 hcount))).trans ?_
  rw [hread]

theorem exec_readBits_of_avail_lt {count : Nat} (hcount : count ≤ 16) (havail : r.avail < count) :
    exec (.readBits count) s = .next (s.answer (.br r) .exhausted) := by
  refine ((onBr_of _ hs).trans (if_neg (Nat.not_lt.2 hcount))).trans ?_
  rw [readBits_eq_none_iff.2 havail]

end

/-- Settles O30: the three ranges of the count, each with its answer. -/
theorem readBitsAnswersTheNextBits : Obligations.ReadBitsAnswersTheNextBits :=
  ⟨fun _ => rfl, fun _ _ _ hs =>
    ⟨exec_readBits_of_le hs, exec_readBits_of_avail_lt hs, exec_readBits_of_lt_count hs⟩⟩

/-- Settles O31: the exhausted read leaves the reader to be fed, and the bytes fed make enough bits unread. -/
theorem exhaustedReadSucceedsOnceFed : Obligations.ExhaustedReadSucceedsOnceFed := by
  intro s r count chunk hs hr hcount hshort henough
  have ht := answer_inst? (y := .br r) .exhausted hs
  have hu := answer_inst? (y := .br (r.feed chunk)) .none ht
  refine ⟨_, _, exec_readBits_of_avail_lt hs hcount hshort, rfl, answer_same _ hs, exec_feed_of ht chunk, ?_⟩
  exact exec_readBits_of_le hu hcount (by rwa [feed_avail hr])

/-- Settles O28: the answer is the power-on reader, which holds no bits. -/
theorem brResetMakesAFreshReader : Obligations.BrResetMakesAFreshReader :=
  ⟨fun _ => rfl, fun _ _ hs => ⟨exec_brReset_of hs, rfl⟩⟩

theorem feed_nil (r : Reader) : r.feed [] = r := by
  rw [Reader.feed, List.append_nil]

theorem feed_feed (r : Reader) (c1 c2 : Buffer) : (r.feed c1).feed c2 = r.feed (c1 ++ c2) := by
  simp only [Reader.feed, List.append_assoc]

/-- Settles O29: a feed appends to the stream, and the capacity is tested on the stream it would leave. -/
theorem feedAppendsTheChunk : Obligations.FeedAppendsTheChunk :=
  ⟨fun _ => rfl, fun _ r c1 c2 hs =>
    ⟨exec_feed_of hs c1, fun hr => feed_avail hr c1, feed_nil r, feed_feed r c1 c2,
      fun _ _ hcap hn => feedWithin_of_lt hs hcap hn⟩⟩

/-! ### Other forms of a read -/

/-- Settles O33: a field's two parts are joined as one read joins them. -/
theorem fieldReadIsOneRead : Obligations.FieldReadIsOneRead :=
  fun r w hw => ⟨readField_eq_readBits r w, readField_isSome hw⟩

/-- The number of a window is the one its bits stand for. -/
theorem windowNumber_eq_valMSB (bytes : Buffer) : windowNumber bytes = valMSB (bytesToBits bytes) := by
  induction bytes using List.reverseRecOn with
  | nil => rfl
  | append_singleton bytes b ih =>
    have hlast : windowNumber (bytes ++ [b]) = windowNumber bytes * 2 ^ 8 + b.toNat := by
      simp [windowNumber]
    rw [hlast, ih, bytesToBits_append, bytesToBits_cons, bytesToBits_nil, List.append_nil, valMSB_append,
      bitsMSB_length, valMSB_bitsMSB, Nat.mod_eq_of_lt b.isLt]

/-- The bytes that the next bits stand in are below the end of the stream (41_bit_reader.md R109, 20_memory.md R60). -/
theorem window_le_stream_length {r : Reader} {count : Nat} (hpos : 1 ≤ count) (havail : count ≤ r.avail) :
    r.rpos / 8 + (r.rpos % 8 + count + 7) / 8 ≤ r.stream.length := by
  unfold Reader.avail at havail
  omega

/-- The barrel form cuts the next bits out of a window of whole bytes (41_bit_reader.md R109). -/
theorem barrelValue_eq {r : Reader} {count : Nat} (hpos : 1 ≤ count) (havail : count ≤ r.avail) :
    r.barrelValue count = valMSB (r.unread.take count) := by
  have hwindow := window_le_stream_length hpos havail
  have hcover : r.rpos % 8 + count ≤ 8 * ((r.rpos % 8 + count + 7) / 8) := by omega
  unfold Reader.barrelValue
  dsimp only
  generalize (r.rpos % 8 + count + 7) / 8 = m at hwindow hcover ⊢
  have hlen : (bytesToBits ((r.stream.drop (r.rpos / 8)).take m)).length =
      r.rpos % 8 + (count + (8 * m - r.rpos % 8 - count)) := by
    rw [bytesToBits_length, List.length_take, List.length_drop]
    omega
  rw [windowNumber_eq_valMSB, valMSB_take_drop hlen, bytesToBits_take_drop hwindow, List.drop_take, List.take_take,
    List.drop_drop, Nat.div_add_mod, Nat.min_eq_left (by omega)]
  rfl

/-- Settles O32: the window form and the loop both answer the value of the next bits. -/
theorem barrelReaderEqualsTheLoop : Obligations.BarrelReaderEqualsTheLoop := by
  refine fun r count => ⟨fun hpos havail => ⟨?_, window_le_stream_length hpos havail⟩, rfl⟩
  rw [barrelValue_eq hpos havail, ← streamValue_unread havail]
  exact readBits_eq_some_iff.2 ⟨havail, rfl, rfl⟩

end Sys2Proof.Machine

/-! SUPPORT. The encoder (42_encoder.md): construction (R120), `SEARCH` as the comparator array (R122 to R126), and
what `COMPRESS` emits and leaves (R121, R127 to R139). -/

namespace Sys2Proof.Machine

/-! ### Construction -/

/-- Settles O35: `configure` branches on whether the violation mask is 0, which it is exactly for a legal pair. -/
theorem encConfigConstructsOrFaults : Obligations.EncConfigConstructsOrFaults := by
  intro s e w l hs
  have hexec : exec (.encConfig w l) s = .next (s.answer (.enc (e.configure w l).1) (e.configure w l).2) :=
    onEnc_of _ hs
  refine ⟨fun hlegal => ?_, fun hillegal => ?_⟩
  · rw [hexec, e.configure_of_legal hlegal]
    rfl
  · have hillegal := Bool.eq_false_iff.1 hillegal
    refine ⟨mt configMask_eq_zero_iff.1 hillegal, ?_⟩
    rw [hexec, e.configure_of_not_legal hillegal]
    rfl

/-! ### Match lengths and comparator lanes -/

/-- The `j` bytes from `i` on are those from `pos` on (42_encoder.md R123). -/
def AgreeFor (inp : Buffer) (i pos j : Nat) : Prop := ∀ t < j, memRead inp (i + t) = memRead inp (pos + t)

section
variable {inp : Buffer} {i pos : Nat}

theorem agreeFor_zero : AgreeFor inp i pos 0 := fun _ ht => absurd ht (Nat.not_lt_zero _)

theorem agreeFor_succ_iff {j : Nat} :
    AgreeFor inp i pos (j + 1) ↔ AgreeFor inp i pos j ∧ memRead inp (i + j) = memRead inp (pos + j) :=
  Nat.forall_lt_succ_right

theorem agreeFor_one_iff : AgreeFor inp i pos 1 ↔ memRead inp i = memRead inp pos :=
  agreeFor_succ_iff.trans (and_iff_right agreeFor_zero)

theorem AgreeFor.mono {j k : Nat} (h : AgreeFor inp i pos k) (hjk : j ≤ k) : AgreeFor inp i pos j :=
  fun t ht => h t (ht.trans_le hjk)

/-- The extension loop counts on for as long as bytes agree and fuel lasts. -/
theorem le_extendMatch_iff {j : Nat} (fuel : Nat) {m : Nat} (hm : AgreeFor inp i pos m) (hj : j ≤ m + fuel) :
    j ≤ extendMatch inp i pos fuel m ↔ AgreeFor inp i pos j := by
  induction fuel generalizing m with
  | zero => exact iff_of_true hj (hm.mono hj)
  | succ fuel ih =>
    unfold extendMatch
    split
    next heq => exact ih (agreeFor_succ_iff.2 ⟨hm, heq⟩) (by omega)
    next hne => exact ⟨hm.mono, fun hagree => Nat.le_of_not_lt fun hlt => hne (hagree m hlt)⟩

/-- A comparator lane counts the leading bytes that agree at its distance (42_encoder.md R125). -/
theorem le_candLen_iff {d j k : Nat} (hj : j ≤ k) : j ≤ candLen inp pos d k ↔ AgreeFor inp (pos - d) pos j := by
  induction k generalizing j with
  | zero => exact iff_of_true hj (Nat.le_zero.1 hj ▸ agreeFor_zero)
  | succ k ih =>
    have hle := candLen_le inp pos d k
    have hbranch : (candLen inp pos d k = k ∧ memRead inp (pos - d + k) = memRead inp (pos + k)) ↔
        AgreeFor inp (pos - d) pos (k + 1) := by
      rw [agreeFor_succ_iff, ← ih le_rfl, hle.ge_iff_eq]
    unfold candLen
    split
    next hagree => exact iff_of_true hj ((hbranch.1 hagree).mono hj)
    next hdiffer =>
      obtain hlt | rfl := hj.lt_or_eq
      · exact ih (Nat.le_of_lt_succ hlt)
      · exact iff_of_false (by omega) (mt hbranch.2 hdiffer)

/-- The match length of a candidate is what the comparator lane at its distance counts. -/
theorem matchLength_eq_candLen {maxMatch : Nat} (hmax : 1 ≤ maxMatch) (hi : i ≤ pos)
    (heq : memRead inp i = memRead inp pos) :
    matchLength inp i pos maxMatch = candLen inp pos (pos - i) maxMatch := by
  have hlane {j : Nat} (hj : j ≤ maxMatch) : j ≤ candLen inp pos (pos - i) maxMatch ↔ AgreeFor inp i pos j := by
    rw [le_candLen_iff hj, Nat.sub_sub_self hi]
  have hmatch {j : Nat} (hj : j ≤ maxMatch) : j ≤ matchLength inp i pos maxMatch ↔ AgreeFor inp i pos j :=
    le_extendMatch_iff (maxMatch - 1) (agreeFor_one_iff.2 heq) (by omega)
  have hm := (matchLength_bounds inp i pos hmax).2
  have hc := candLen_le inp pos (pos - i) maxMatch
  exact Nat.le_antisymm ((hlane hm).2 ((hmatch hm).1 le_rfl)) ((hmatch hc).2 ((hlane hc).1 le_rfl))

theorem candLen_eq_zero {maxMatch : Nat} (hmax : 1 ≤ maxMatch) (hi : i ≤ pos)
    (hne : memRead inp i ≠ memRead inp pos) : candLen inp pos (pos - i) maxMatch = 0 := by
  refine Nat.lt_one_iff.1 (Nat.lt_of_not_le ?_)
  rw [le_candLen_iff hmax, Nat.sub_sub_self hi]
  exact mt agreeFor_one_iff.1 hne

/-- One candidate of the scan, in terms of the comparator lane at its distance. -/
theorem scanWindow_succ {maxMatch : Nat} (hmax : 1 ≤ maxMatch) (hi : i ≤ pos) (fuel : Nat) (best : Nat × Nat) :
    scanWindow inp pos maxMatch (fuel + 1) i best =
      if best.1 < candLen inp pos (pos - i) maxMatch then
        if candLen inp pos (pos - i) maxMatch = maxMatch then (candLen inp pos (pos - i) maxMatch, pos - i)
        else scanWindow inp pos maxMatch fuel (i + 1) (candLen inp pos (pos - i) maxMatch, pos - i)
      else scanWindow inp pos maxMatch fuel (i + 1) best := by
  rw [scanWindow]
  split
  next heq => rw [matchLength_eq_candLen hmax hi heq]
  next hne => rw [candLen_eq_zero hmax hi hne, if_neg (Nat.not_lt_zero _)]

end

/-! ### The scan and the comparator array -/

/-- `best` is the longest lane over the distances beyond `near` up to `far`, and the farthest such distance
(42_encoder.md R125). -/
structure IsBest (lane : Nat → Nat) (near far : Nat) (best : Nat × Nat) : Prop where
  longest : ∀ d, near < d → d ≤ far → lane d ≤ best.1
  noOffset : best.1 = 0 → best.2 = 0
  farthest : 1 ≤ best.1 → near < best.2 ∧ best.2 ≤ far ∧ lane best.2 = best.1 ∧
    ∀ d, best.2 < d → d ≤ far → lane d < best.1

section
variable {lane : Nat → Nat} {near far : Nat} {best : Nat × Nat}

theorem isBest_empty (lane : Nat → Nat) (far : Nat) : IsBest lane far far (0, 0) where
  longest _ hlt hle := absurd hle (Nat.not_le.2 hlt)
  noOffset _ := rfl
  farthest h := absurd h (Nat.not_succ_le_zero _)

/-- A nearer lane that is not longer changes nothing: a tie keeps the farther one. -/
theorem IsBest.keep (h : IsBest lane (near + 1) far best) (hle : lane (near + 1) ≤ best.1) :
    IsBest lane near far best where
  longest d hd hfar := by
    obtain hlt | rfl := (Nat.succ_le_of_lt hd).lt_or_eq
    · exact h.longest d hlt hfar
    · exact hle
  noOffset := h.noOffset
  farthest hpos := (h.farthest hpos).imp_left Nat.lt_of_succ_lt

/-- A nearer lane that is longer is the new best. -/
theorem IsBest.replace (h : IsBest lane (near + 1) far best) (hlt : best.1 < lane (near + 1)) (hfar : near + 1 ≤ far) :
    IsBest lane near far (lane (near + 1), near + 1) where
  longest d hd hfar := by
    obtain hlt' | rfl := (Nat.succ_le_of_lt hd).lt_or_eq
    · exact (h.longest d hlt' hfar).trans hlt.le
    · exact le_rfl
  noOffset hzero := absurd hzero (Nat.ne_zero_of_lt hlt)
  farthest _ := ⟨Nat.lt_succ_self near, hfar, rfl, fun d hd hfar => (h.longest d hd hfar).trans_lt hlt⟩

/-- When the best is as long as a lane can be, the nearer lanes need not be scanned. -/
theorem IsBest.stop (h : IsBest lane near far best) (hmax : ∀ d, lane d ≤ best.1) : IsBest lane 0 far best where
  longest d _ _ := hmax d
  noOffset := h.noOffset
  farthest hpos := (h.farthest hpos).imp_left Nat.zero_lt_of_lt

end

/-- The scan goes through the distances from the farthest to 1, so it ends with the best of them all. -/
theorem scanWindow_isBest {inp : Buffer} {pos maxMatch far : Nat} (hmax : 1 ≤ maxMatch) (fuel : Nat) {i : Nat}
    {best : Nat × Nat} (hi : i + fuel = pos) (hfar : fuel ≤ far)
    (hbest : IsBest (candLen inp pos · maxMatch) fuel far best) :
    IsBest (candLen inp pos · maxMatch) 0 far (scanWindow inp pos maxMatch fuel i best) := by
  induction fuel generalizing i best with
  | zero => exact hbest
  | succ fuel ih =>
    have hdist : pos - i = fuel + 1 := by omega
    have hnext : i + 1 + fuel = pos := by omega
    rw [scanWindow_succ hmax (by omega), hdist]
    split
    next hlonger =>
      have hreplaced := hbest.replace hlonger hfar
      split
      next hfull => exact hreplaced.stop fun d => (candLen_le inp pos d maxMatch).trans hfull.ge
      · exact ih hnext (by omega) hreplaced
    next htie => exact ih hnext (by omega) (hbest.keep (Nat.le_of_not_lt htie))

theorem windowStart_eq (w pos : Nat) : windowStart w pos = pos - 2 ^ w := by
  unfold windowStart
  generalize 2 ^ w = size
  split <;> omega

/-- The window holds `min(pos, WS)` candidates (42_encoder.md R122). -/
theorem sub_windowStart (w pos : Nat) : pos - windowStart w pos = min pos (2 ^ w) := by
  rw [windowStart_eq, Nat.sub_sub_eq_min]

theorem maxMatchAt_pos (l : Nat) {pos n : Nat} (h : pos < n) : 1 ≤ maxMatchAt l pos n :=
  Nat.le_min.2 ⟨Nat.one_le_two_pow, Nat.sub_pos_of_lt h⟩

/-- `SEARCH` leaves the best of the comparator array (42_encoder.md R125). -/
theorem search_isBest {e : Encoder} (h : e.pos < e.input.length) :
    IsBest (candLen e.input e.pos · (maxMatchAt e.ctl.l.toNat e.pos e.input.length)) 0
      (min e.pos (2 ^ e.ctl.w.toNat)) (e.search.bestLen, e.search.bestOff) := by
  rw [← sub_windowStart]
  have hstart : windowStart e.ctl.w.toNat e.pos ≤ e.pos := (windowStart_eq _ _).trans_le (Nat.sub_le _ _)
  exact scanWindow_isBest (maxMatchAt_pos _ h) _ (by omega) le_rfl (isBest_empty _ _)

/-- Settles O42: the scan ends with the best lane, the farthest of the longest. -/
theorem searchIsTheComparatorArray : Obligations.SearchIsTheComparatorArray := by
  intro e h
  obtain ⟨hlongest, hnone, hfarthest⟩ := search_isBest h
  exact ⟨hlongest, hnone, hfarthest⟩

/-! ### The bounds of a search -/

section
variable {e : Encoder} (h : e.pos < e.input.length)
include h

theorem search_bestLen_le : e.search.bestLen ≤ min (2 ^ e.ctl.l.toNat) (e.input.length - e.pos) :=
  (search_bounds h).1

theorem search_bestOff_le : e.search.bestOff ≤ min e.pos (2 ^ e.ctl.w.toNat) := by
  obtain ⟨-, hnone, hfarthest⟩ := search_isBest h
  obtain hzero | hpos := Nat.eq_zero_or_pos e.search.bestLen
  · exact (hnone hzero).trans_le (Nat.zero_le _)
  · obtain ⟨-, hle, -⟩ := hfarthest hpos
    exact hle

theorem search_bestOff_pos (hlen : 1 ≤ e.search.bestLen) : 1 ≤ e.search.bestOff :=
  ((search_isBest h).farthest hlen).1

/-- At the first position the window is empty (42_encoder.md R135). -/
theorem search_bestLen_of_first (hpos : e.pos = 0) : e.search.bestLen = 0 := by
  by_contra hne
  have hoff := search_bestOff_pos h (Nat.one_le_iff_ne_zero.2 hne)
  have hle := search_bestOff_le h
  omega

end

/-- Settles O43: the offset is a distance of the window, and the length is at most `max_match`. -/
theorem searchResultsAreInBounds : Obligations.SearchResultsAreInBounds := by
  intro e h
  have hlen := search_bestLen_le h
  refine ⟨search_bestOff_le h, hlen, hlen, search_bestLen_of_first h, fun hlast => ?_⟩
  omega

/-! ### The tokens of the passes -/

section
variable {e : Encoder} (fuel : Nat)

theorem passes_succ_of_some {b : Byte} (h : memRead e.input e.pos = some b) :
    e.passes (fuel + 1) = (e.search.emit b).passes fuel := by
  simp only [Encoder.passes, h]

theorem passes_succ_of_none (h : memRead e.input e.pos = none) : e.passes (fuel + 1) = e := by
  simp only [Encoder.passes, h]

theorem passTokens_succ_of_some {b : Byte} (h : memRead e.input e.pos = some b) :
    e.passTokens (fuel + 1) = e.search.token b :: (e.search.emit b).passTokens fuel := by
  simp only [Encoder.passTokens, h]

theorem passTokens_succ_of_none (h : memRead e.input e.pos = none) : e.passTokens (fuel + 1) = [] := by
  simp only [Encoder.passTokens, h]

end

theorem Encoder.token_of_lt {e : Encoder} (b : Byte) (h : e.bestLen < 2) : e.token b = .literal b :=
  if_neg (Nat.not_le.2 h)

theorem Encoder.token_of_le {e : Encoder} (b : Byte) (h : 2 ≤ e.bestLen) :
    e.token b = .backref (e.bestOff - 1) (e.bestLen - 1) := if_pos h

theorem tokenLength_literal (b : Byte) : tokenLength (.literal b) = 1 := rfl

theorem tokenLength_backref (o n : Nat) : tokenLength (.backref o n) = n + 1 := rfl

theorem tokenStart_zero (tokens : List Instr) : tokenStart tokens 0 = 0 := rfl

theorem tokenStart_cons_succ (i : Instr) (tokens : List Instr) (k : Nat) :
    tokenStart (i :: tokens) (k + 1) = tokenLength i + tokenStart tokens k := by
  rw [tokenStart, List.take_succ_cons, List.map_cons, List.sum_cons, tokenStart]

/-- A pass advances `pos` by the length of its token (42_encoder.md R121). -/
theorem emit_pos_eq_tokenLength (e : Encoder) (b : Byte) : (e.emit b).pos = e.pos + tokenLength (e.token b) := by
  rw [emit_pos]
  obtain hlt | hle := Nat.lt_or_ge e.bestLen 2
  · rw [e.token_of_lt b hlt, tokenLength_literal]
    omega
  · rw [e.token_of_le b hle, tokenLength_backref]
    omega

/-- What `SEARCH` finds at a position, and so the token there, depends on the parameters and the input only. -/
theorem search_token_congr {e e' : Encoder} (hctl : e.ctl = e'.ctl) (hinput : e.input = e'.input) (pos : Nat)
    (b : Byte) : { e with pos := pos }.search.token b = { e' with pos := pos }.search.token b := by
  have hlen : { e with pos := pos }.search.bestLen = { e' with pos := pos }.search.bestLen := by
    simp only [Encoder.search, hctl, hinput]
  have hoff : { e with pos := pos }.search.bestOff = { e' with pos := pos }.search.bestOff := by
    simp only [Encoder.search, hctl, hinput]
  rw [Encoder.token, Encoder.token, hlen, hoff]

/-- The `k`-th token of the passes is decided by the `SEARCH` at the position where the tokens before it end. -/
theorem passTokens_getElem? (fuel : Nat) (e : Encoder) {k : Nat} (hk : k < (e.passTokens fuel).length) :
    ∃ b, memRead e.input (e.pos + tokenStart (e.passTokens fuel) k) = some b ∧
      (e.passTokens fuel)[k]? =
        some ({ e with pos := e.pos + tokenStart (e.passTokens fuel) k }.search.token b) := by
  induction fuel generalizing e k with
  | zero => exact absurd hk (Nat.not_lt_zero _)
  | succ fuel ih =>
    cases hread : memRead e.input e.pos with
    | none =>
      rw [passTokens_succ_of_none fuel hread] at hk
      exact absurd hk (Nat.not_lt_zero _)
    | some b =>
      rw [passTokens_succ_of_some fuel hread] at hk ⊢
      cases k with
      | zero => exact ⟨b, hread, rfl⟩
      | succ k =>
        obtain ⟨b', hread', htoken⟩ := ih (e.search.emit b) (Nat.lt_of_succ_lt_succ hk)
        rw [emit_pos_eq_tokenLength, Encoder.search_pos, Nat.add_assoc, ← tokenStart_cons_succ] at hread' htoken
        rw [Encoder.emit_input, Encoder.search_input] at hread'
        refine ⟨b', hread', htoken.trans (congrArg some ?_)⟩
        exact search_token_congr (Encoder.emit_ctl _ b) (Encoder.emit_input _ b) _ b'

/-- The passes advance `pos` by the lengths of their tokens. -/
theorem passes_pos (fuel : Nat) (e : Encoder) :
    (e.passes fuel).pos = e.pos + tokenStart (e.passTokens fuel) (e.passTokens fuel).length := by
  induction fuel generalizing e with
  | zero => rfl
  | succ fuel ih =>
    cases hread : memRead e.input e.pos with
    | none =>
      rw [passes_succ_of_none fuel hread, passTokens_succ_of_none fuel hread]
      rfl
    | some b =>
      rw [passes_succ_of_some fuel hread, passTokens_succ_of_some fuel hread, ih, emit_pos_eq_tokenLength,
        Encoder.search_pos, List.length_cons, tokenStart_cons_succ, Nat.add_assoc]

/-! ### The tokens of a `COMPRESS` -/

section
variable (e : Encoder) (input : Buffer)

/-- The loop of `COMPRESS` ends at the end of the input (42_encoder.md R135). -/
theorem compressed_pos : (e.compressed input).pos = input.length :=
  (passes_passInv input.length (load_passInv e input) (Nat.le_add_left _ _)).2.trans
    (congrArg List.length (e.compressed_input input))

theorem tokens_getElem? {k : Nat} (hk : k < (e.tokens input).length) :
    ∃ b, memRead input (tokenStart (e.tokens input) k) = some b ∧
      (e.tokens input)[k]? =
        some ({ e.load input with pos := tokenStart (e.tokens input) k }.search.token b) := by
  have h := passTokens_getElem? input.length (e.load input) hk
  rwa [Encoder.load_pos, Nat.zero_add] at h

theorem tokenStart_tokens_length : tokenStart (e.tokens input) (e.tokens input).length = input.length := by
  have h := passes_pos input.length (e.load input)
  rw [Encoder.load_pos, Nat.zero_add] at h
  exact h.symm.trans (compressed_pos e input)

end

/-- What `SEARCH` decides at a position of the input fits its fields (42_encoder.md R128, R135). -/
theorem search_token_fits {e : Encoder} (hlegal : legalParams e.ctl.w.toNat e.ctl.l.toNat = true)
    (h : e.pos < e.input.length) (b : Byte) :
    (e.search.token b).wellFormed e.ctl.w.toNat e.ctl.l.toNat = true ∧
      ((∃ b', e.search.token b = .literal b') ∨ ∃ o n, e.search.token b = .backref o n ∧ 1 ≤ n) := by
  obtain hlt | hle := Nat.lt_or_ge e.search.bestLen 2
  · rw [e.search.token_of_lt b hlt]
    exact ⟨rfl, .inl ⟨b, rfl⟩⟩
  · have hlen := search_bestLen_le h
    have hoff := search_bestOff_le h
    have hpos := search_bestOff_pos h (Nat.le_of_succ_le hle)
    rw [e.search.token_of_le b hle, wellFormed_backref_iff]
    exact ⟨⟨hlegal, by omega, by omega⟩, .inr ⟨_, _, rfl, by omega⟩⟩

/-- The first byte is a literal: there is no window before it (42_encoder.md R135). -/
theorem tokens_head? (e : Encoder) (b : Byte) (rest : Buffer) :
    (e.tokens (b :: rest)).head? = some (.literal b) := by
  have hfirst : (e.load (b :: rest)).search.bestLen = 0 := search_bestLen_of_first (Nat.succ_pos _) rfl
  exact congrArg some ((e.load (b :: rest)).search.token_of_lt b (by omega))

/-- Settles O44: each token is the one its `SEARCH` decides, whose bounds make it fit, and the passes cover the input. -/
theorem emittedTokensAreWellFormed : Obligations.EmittedTokensAreWellFormed := by
  intro e input hlegal
  refine ⟨fun k hk => tokens_getElem? e input hk, fun i hi => ?_, ?_, tokenStart_tokens_length e input⟩
  · obtain ⟨k, hk⟩ := List.mem_iff_getElem?.1 hi
    obtain ⟨b, hread, htoken⟩ := tokens_getElem? e input (List.getElem?_eq_some_iff.1 hk).1
    obtain rfl := Option.some.inj (hk.symm.trans htoken)
    exact search_token_fits (e := { e.load input with pos := _ }) hlegal (memRead_eq_some_iff.1 hread).1 b
  · rintro b rest rfl
    exact tokens_head? e b rest

/-! ### Input without a repeated pair -/

/-- A search that finds two bytes or more has found an earlier position of the window with the same pair. -/
theorem repeatedPair_of_search {e : Encoder} (h : e.pos < e.input.length) (hlen : 2 ≤ e.search.bestLen) :
    ∃ i, i < e.pos ∧ e.pos ≤ i + 2 ^ e.ctl.w.toNat ∧ memRead e.input i = memRead e.input e.pos ∧
      memRead e.input (i + 1) = memRead e.input (e.pos + 1) := by
  have hpos : 1 ≤ e.search.bestLen := Nat.le_of_succ_le hlen
  have hoff := search_bestOff_pos h hpos
  have hfar := search_bestOff_le h
  obtain ⟨-, -, hlane, -⟩ := (search_isBest h).farthest hpos
  have hagree := (le_candLen_iff (search_bounds h).1).1 hlane.ge
  exact ⟨e.pos - e.search.bestOff, by omega, by omega, hagree 0 hpos, hagree 1 hlen⟩

/-- Each token of a list of literals begins at its own index. -/
theorem tokenStart_of_literals {tokens : List Instr} (h : ∀ i ∈ tokens, ∃ b, i = .literal b) {k : Nat}
    (hk : k ≤ tokens.length) : tokenStart tokens k = k := by
  induction tokens generalizing k with
  | nil => rw [Nat.le_zero.1 hk, tokenStart_zero]
  | cons i tokens ih =>
    obtain ⟨⟨b, rfl⟩, htokens⟩ := List.forall_mem_cons.1 h
    cases k with
    | zero => rfl
    | succ k => rw [tokenStart_cons_succ, ih htokens (Nat.le_of_succ_le_succ hk), tokenLength_literal, Nat.add_comm]

/-- When no search finds two bytes, the tokens are the literals of the input. -/
theorem tokens_of_short_matches {e : Encoder} {input : Buffer}
    (h : ∀ pos < input.length, { e.load input with pos := pos }.search.bestLen ≤ 1) :
    e.tokens input = input.map .literal := by
  have htoken {k : Nat} (hk : k < (e.tokens input).length) :
      ∃ b, memRead input (tokenStart (e.tokens input) k) = some b ∧ (e.tokens input)[k]? = some (.literal b) := by
    obtain ⟨b, hread, htoken⟩ := tokens_getElem? e input hk
    have hshort := h _ (memRead_eq_some_iff.1 hread).1
    exact ⟨b, hread, htoken.trans (congrArg some (Encoder.token_of_lt b (Nat.lt_succ_of_le hshort)))⟩
  have hliteral : ∀ i ∈ e.tokens input, ∃ b, i = .literal b := by
    intro i hi
    obtain ⟨k, hk⟩ := List.mem_iff_getElem?.1 hi
    obtain ⟨b, -, htoken⟩ := htoken (List.getElem?_eq_some_iff.1 hk).1
    exact ⟨b, Option.some.inj (hk.symm.trans htoken)⟩
  have hlen : (e.tokens input).length = input.length :=
    (tokenStart_of_literals hliteral le_rfl).symm.trans (tokenStart_tokens_length e input)
  refine List.ext_getElem? fun k => ?_
  obtain hk | hk := Nat.lt_or_ge k (e.tokens input).length
  · obtain ⟨b, hread, htoken⟩ := htoken hk
    rw [tokenStart_of_literals hliteral hk.le] at hread
    rw [htoken, List.getElem?_map, show input[k]? = some b from hread, Option.map_some]
  · rw [List.getElem?_eq_none hk, List.getElem?_eq_none (by rwa [List.length_map, ← hlen])]

/-- Settles O46: a match of two bytes would be a repeated pair, so each byte is a literal, of 9 bits. -/
theorem noRepeatedPairGivesLiteralsOnly : Obligations.NoRepeatedPairGivesLiteralsOnly := by
  intro e input hpairs
  have hshort : ∀ pos < input.length, { e.load input with pos := pos }.search.bestLen ≤ 1 := by
    intro pos hpos
    by_contra hlong
    obtain ⟨i, hi, hwindow, hfirst, hsecond⟩ :=
      repeatedPair_of_search (e := { e.load input with pos := pos }) hpos (Nat.lt_of_not_le hlong)
    exact hpairs pos i (Nat.one_le_of_lt hi) hpos hi hwindow ⟨hfirst, hsecond⟩
  have htokens := tokens_of_short_matches hshort
  refine ⟨hshort, htokens, ?_⟩
  have hlen := (streamSizeCountsItsTokens e input).1
  have hcount : (input.map Instr.literal).countP isLiteralToken = input.length ∧
      (input.map Instr.literal).countP (fun i => !isLiteralToken i) = 0 := by
    simp [List.countP_map, Function.comp_def]
  rwa [htokens, hcount.1, hcount.2, Nat.mul_zero, Nat.add_zero] at hlen

/-! ### The answer of a `COMPRESS` -/

/-- `COMPRESS` on a ready encoder answers the flushed buffer (42_encoder.md R121, R131). -/
theorem exec_compress_of_ready {s : State} {e : Encoder} (input : Buffer) (hs : s.inst? = some (.enc e))
    (hready : e.ctl.Ready) :
    exec (.compress input) s =
      .next (s.answer (.enc (e.compressed input)) (.bytes (e.compressed input).bw.wbuf)) := by
  refine (onEnc_of _ hs).trans ?_
  rw [refusal?_eq_none_iff.2 hready]
  rfl

/-- Settles O39: the passes keep the control registers and the input, end at its end, and the flush aligns the writer. -/
theorem compressAnswersTheFlushedBuffer : Obligations.CompressAnswersTheFlushedBuffer := by
  intro s e input hs hready
  obtain ⟨hnacc, hacc⟩ := flushed_aligned (passes_wbits input.length (e := e.load input) fresh_inv).1
  refine ⟨e.compressed input, exec_compress_of_ready input hs hready, e.compressed_ctl input,
    e.compressed_input input, compressed_pos e input, hacc, hnacc, ?_⟩
  rintro rfl
  rfl

/-! ### What a `COMPRESS` depends on -/

/-- The encoder with other control registers. -/
def Encoder.withCtl (e : Encoder) (c : Control) : Encoder := { e with ctl := c }

section
variable {c : Control}

theorem search_withCtl {e : Encoder} (hw : c.w = e.ctl.w) (hl : c.l = e.ctl.l) :
    (e.withCtl c).search = e.search.withCtl c := by
  simp only [Encoder.search, Encoder.withCtl, hw, hl]

theorem emit_withCtl {e : Encoder} (hw : c.w = e.ctl.w) (hl : c.l = e.ctl.l) (b : Byte) :
    (e.withCtl c).emit b = (e.emit b).withCtl c := by
  unfold Encoder.emit
  by_cases hlen : 2 ≤ e.bestLen
  · rw [if_pos hlen, if_pos (show 2 ≤ (e.withCtl c).bestLen from hlen)]
    simp only [Encoder.withCtl, hw, hl]
  · rw [if_neg hlen, if_neg (show ¬ 2 ≤ (e.withCtl c).bestLen from hlen)]
    simp only [Encoder.withCtl]

/-- Of the control registers, the passes of `COMPRESS` read only `W` and `L` (42_encoder.md R132). -/
theorem passes_withCtl (fuel : Nat) {e : Encoder} (hw : c.w = e.ctl.w) (hl : c.l = e.ctl.l) :
    (e.withCtl c).passes fuel = (e.passes fuel).withCtl c := by
  induction fuel generalizing e with
  | zero => rfl
  | succ fuel ih =>
    cases hread : memRead e.input e.pos with
    | none => rw [passes_succ_of_none (e := e.withCtl c) fuel hread, passes_succ_of_none fuel hread]
    | some b =>
      rw [passes_succ_of_some (e := e.withCtl c) fuel hread, passes_succ_of_some fuel hread, search_withCtl hw hl,
        emit_withCtl (e := e.search) hw hl]
      exact ih (by rwa [Encoder.emit_ctl]) (by rwa [Encoder.emit_ctl])

end

/-- Encoders with the same parameters are left the same but for the control registers: all else is loaded anew
(10_state.md R31). -/
theorem compressed_withCtl {e e' : Encoder} (hw : e.ctl.w = e'.ctl.w) (hl : e.ctl.l = e'.ctl.l) (input : Buffer) :
    e'.compressed input = (e.compressed input).withCtl e'.ctl := by
  have hpasses : (e'.load input).passes input.length = ((e.load input).passes input.length).withCtl e'.ctl :=
    passes_withCtl (e := e.load input) input.length hw.symm hl.symm
  rw [Encoder.compressed, hpasses]
  rfl

/-- The only answer of a `COMPRESS` (42_encoder.md R121). -/
theorem compress_next {s t : State} {e : Encoder} {input : Buffer} (hs : s.inst? = some (.enc e))
    (h : exec (.compress input) s = .next t) :
    t = s.answer (.enc (e.compressed input)) (.bytes (e.compressed input).bw.wbuf) := by
  obtain ⟨x, y, o, hx, hbecomes, rfl⟩ := exec_becomes h
  cases Option.some.inj (hx.symm.trans hs)
  cases hbecomes
  rfl

/-- Settles O45: two encoders with the same parameters are left the same but for the control registers. -/
theorem compressDependsOnInputAndParametersOnly : Obligations.CompressDependsOnInputAndParametersOnly := by
  intro s s' t t' e e' input hs hs' hw hl h h'
  obtain rfl := compress_next hs h
  obtain rfl := compress_next hs' h'
  have hsame := compressed_withCtl hw hl input
  refine ⟨?_, fun hctl => ?_⟩
  · rw [State.answer_response, State.answer_response, hsame]
    rfl
  · rw [answer_inst? _ hs, answer_inst? _ hs', hsame, ← hctl, ← e.compressed_ctl input]
    rfl

end Sys2Proof.Machine

/-! SUPPORT. `PROCESS` (43_decoder.md R146, R153, R158): a run of the FSM without a bound on its steps, what a run
keeps, and that bytes fed later change no step that has run. -/

namespace Sys2Proof.Machine

/-! ### Runs of the FSM -/

/-- Steps of the FSM that ran, one after another, from `d` to `d'`. -/
def Decoder.Runs : Decoder → Decoder → Prop :=
  Relation.ReflTransGen fun d d' => d.fsmStep = .ran d'

/-- The decoder has a legal pair, so every step that runs takes at least one bit. -/
def Decoder.Legal (d : Decoder) : Prop := legalParams d.ctl.w.toNat d.ctl.l.toNat = true

theorem Decoder.Legal.stepBits_pos {d : Decoder} (h : d.Legal) : 0 < d.stepBits := by
  obtain ⟨hw, -⟩ := legalParams_iff.1 h
  exact Machine.stepBits_pos (by omega)

theorem Decoder.Legal.of_ctl {d d' : Decoder} (h : d.Legal) (hctl : d'.ctl = d.ctl) : d'.Legal := by
  rwa [Decoder.Legal, hctl]

theorem fsmStep_ran_ctl {d d' : Decoder} (h : d.fsmStep = .ran d') : d'.ctl = d.ctl := by
  have hctl := fsmStep_raisesOnly d
  rwa [h] at hctl

theorem fsmStep_ran_br {d d' : Decoder} (h : d.fsmStep = .ran d') :
    d.stepBits ≤ d.br.avail ∧ d'.br = d.br.advance d.stepBits := by
  obtain ⟨-, hwaits⟩ | ⟨henough, -, hbr⟩ := fsmStep_by_stepBits d
  · cases hwaits.symm.trans h
  · rw [h] at hbr
    exact ⟨henough, hbr⟩

theorem fsmStep_suspended_self {d d' : Decoder} (h : d.fsmStep = .suspended d') : d' = d := by
  obtain ⟨-, hwaits⟩ | ⟨-, hne, -⟩ := fsmStep_by_stepBits d
  · cases hwaits.symm.trans h
    rfl
  · exact absurd h (hne d')

/-- A step that raises leaves what taking `Corrupt` leaves, and `starved` at 0 (43_decoder.md R152). -/
theorem fsmStep_corrupt_raised {d d' : Decoder} (h : d.fsmStep = .corrupt d') :
    d'.CorruptedFrom d.ctl ∧ d'.starved = false := by
  have hctl := fsmStep_raisesOnly d
  rw [h] at hctl
  refine ⟨hctl, ?_⟩
  obtain ⟨-, -, hs⟩ | ⟨-, -, hs⟩ | ⟨-, -, hs⟩ | ⟨-, -, hs⟩ | ⟨-, -, hs⟩ | ⟨-, -, o, n, -, -, hs⟩ := fsmStep_cases d
  case inr.inr.inr.inr.inr =>
    obtain ⟨-, hr⟩ | ⟨-, hr⟩ := replay_cases d (d.br.advance (d.ctl.w.toNat + d.ctl.l.toNat)) o n
    · cases (hs.trans hr).symm.trans h
    · cases (hs.trans hr).symm.trans h
      rfl
  all_goals cases hs.symm.trans h

theorem Decoder.CorruptedFrom.fault {c : Control} {d : Decoder} (h : d.CorruptedFrom c) : d.ctl.fault = true :=
  congrArg Control.fault h.2.2

theorem Decoder.Runs.ctl {d d' : Decoder} (h : d.Runs d') : d'.ctl = d.ctl := by
  induction h with
  | refl => rfl
  | tail _ hstep ih => exact (fsmStep_ran_ctl hstep).trans ih

theorem avail_lt_of_ran {d d' : Decoder} (h : d.Legal) (hstep : d.fsmStep = .ran d') : d'.br.avail < d.br.avail := by
  obtain ⟨henough, hbr⟩ := fsmStep_ran_br hstep
  have hpos := h.stepBits_pos
  rw [hbr, advance_avail]
  omega

/-- Every run at a legal pair comes to a step that suspends or raises: each step takes a bit. -/
theorem exists_runs_end {d : Decoder} (h : d.Legal) : ∃ e, d.Runs e ∧ ∀ e', e.fsmStep ≠ .ran e' := by
  induction hn : d.br.avail using Nat.strong_induction_on generalizing d with
  | _ n ih =>
    by_cases hran : ∃ d', d.fsmStep = .ran d'
    · obtain ⟨d', hstep⟩ := hran
      obtain ⟨e, hruns, hend⟩ := ih _ (hn ▸ avail_lt_of_ran h hstep) (h.of_ctl (fsmStep_ran_ctl hstep)) rfl
      exact ⟨e, .head hstep hruns, hend⟩
    · exact ⟨d, .refl, fun e' he => hran ⟨e', he⟩⟩

/-! ### `PROCESS` as a run -/

/-- The decoder with a chunk fed to its reader and a value in `starved`, the two fields that are written between
runs. -/
def Decoder.fed (d : Decoder) (chunk : Buffer) (starved : Bool) : Decoder :=
  { d with br := d.br.feed chunk, starved := starved }

section
variable (d : Decoder) (chunk : Buffer) (b : Bool)

@[simp] theorem fed_ctl : (d.fed chunk b).ctl = d.ctl := rfl
@[simp] theorem fed_br : (d.fed chunk b).br = d.br.feed chunk := rfl
@[simp] theorem fed_dstate : (d.fed chunk b).dstate = d.dstate := rfl

end

theorem fed_nil (d : Decoder) (b : Bool) : d.fed [] b = { d with starved := b } := by
  rw [Decoder.fed, feed_nil]

theorem fed_fed (d : Decoder) (c1 c2 : Buffer) (b1 b2 : Bool) : (d.fed c1 b1).fed c2 b2 = d.fed (c1 ++ c2) b2 := by
  simp only [Decoder.fed, feed_feed]

/-- `PROCESS` feeds its chunk first (43_decoder.md R146). -/
theorem processed_eq_fed (d : Decoder) (chunk : Buffer) : d.processed chunk = (d.fed chunk d.starved).processed [] := by
  simp only [Decoder.processed, Decoder.fed, feed_nil]

/-- With fuel for every unread bit, more fuel changes nothing. -/
theorem runFsm_fuel {d : Decoder} (h : d.Legal) {fuel fuel' : Nat} (hf : d.br.avail < fuel) (hf' : d.br.avail < fuel') :
    d.runFsm fuel = d.runFsm fuel' := by
  induction fuel generalizing d fuel' with
  | zero => exact absurd hf (Nat.not_lt_zero _)
  | succ fuel ih =>
    obtain ⟨fuel', rfl⟩ := Nat.exists_eq_add_one.2 (Nat.zero_lt_of_lt hf')
    cases hstep : d.fsmStep with
    | ran d' =>
      have hless := avail_lt_of_ran h hstep
      rw [runFsm_of_ran hstep, runFsm_of_ran hstep]
      exact ih (h.of_ctl (fsmStep_ran_ctl hstep)) (by omega) (by omega)
    | suspended d' => rw [runFsm_of_suspended hstep, runFsm_of_suspended hstep]
    | corrupt d' => rw [runFsm_of_corrupt hstep, runFsm_of_corrupt hstep]

theorem processed_nil (d : Decoder) :
    d.processed [] =
      { d.runFsm (d.br.avail + 1) with starved := (d.runFsm (d.br.avail + 1)).starvedNow } := by
  simp only [Decoder.processed, feed_nil]

theorem processed_of_ran {d d' : Decoder} (h : d.Legal) (hstep : d.fsmStep = .ran d') :
    d.processed [] = d'.processed [] := by
  have hsame : d.runFsm (d.br.avail + 1) = d'.runFsm (d'.br.avail + 1) :=
    (runFsm_of_ran hstep _).trans
      (runFsm_fuel (h.of_ctl (fsmStep_ran_ctl hstep)) (avail_lt_of_ran h hstep) (Nat.lt_succ_self _))
  rw [processed_nil, processed_nil, hsame]

theorem processed_of_suspended {d d' : Decoder} (hstep : d.fsmStep = .suspended d') :
    d.processed [] = { d with starved := d.starvedNow } := by
  rw [processed_nil, runFsm_of_suspended hstep, fsmStep_suspended_self hstep]

theorem processed_of_corrupt {d d' : Decoder} (hstep : d.fsmStep = .corrupt d') : d.processed [] = d' := by
  obtain ⟨hraised, hstarved⟩ := fsmStep_corrupt_raised hstep
  have hnow : d'.starvedNow = d'.starved := by
    rw [hstarved, Decoder.starvedNow, hraised.fault]
    rfl
  rw [processed_nil, runFsm_of_corrupt hstep, hnow]

theorem processed_of_runs {d d' : Decoder} (h : d.Legal) (hruns : d.Runs d') : d.processed [] = d'.processed [] := by
  induction hruns with
  | refl => rfl
  | tail hruns hstep ih => exact ih.trans (processed_of_ran (h.of_ctl (Decoder.Runs.ctl hruns)) hstep)

/-- Settles O52: each kind of step is one unfolding of the loop, and its fuel covers every unread bit. -/
theorem processRunsStepsUntilOneEnds : Obligations.ProcessRunsStepsUntilOneEnds :=
  fun d chunk => ⟨processed_eq_fed d chunk, fun hlegal _ => processed_of_ran hlegal,
    fun _ hstep => ⟨fsmStep_suspended_self hstep, processed_of_suspended hstep⟩, fun _ => processed_of_corrupt⟩

/-! ### Bytes fed later -/

theorem unread_feed_take {r : Reader} {n : Nat} (h : n ≤ r.avail) (chunk : Buffer) :
    (r.feed chunk).unread.take n = r.unread.take n := by
  rw [Reader.unread, Reader.feed_stream, Reader.feed_rpos, bytesToBits_append, List.drop_append]
  exact List.take_append_of_le_length (h.trans (unread_length r).ge)

theorem avail_le_feed (r : Reader) (chunk : Buffer) : r.avail ≤ (r.feed chunk).avail := by
  simp only [Reader.avail, Reader.feed_stream, Reader.feed_rpos, List.length_append]
  omega

/-- A read that succeeds gives the same with more bytes fed (41_bit_reader.md R106). -/
theorem readBits_feed {r r' : Reader} {n v : Nat} (h : r.readBits n = some (v, r')) (chunk : Buffer) :
    (r.feed chunk).readBits n = some (v, r'.feed chunk) := by
  obtain ⟨hn, rfl, rfl⟩ := readBits_eq_some_iff.1 h
  have hn' := hn.trans (avail_le_feed r chunk)
  refine readBits_eq_some_iff.2 ⟨hn', ?_, rfl⟩
  rw [streamValue_unread hn, streamValue_unread hn', unread_feed_take hn]

theorem readField_feed {r r' : Reader} {n v : Nat} (h : r.readField n = some (v, r')) (chunk : Buffer) :
    (r.feed chunk).readField n = some (v, r'.feed chunk) := by
  rw [readField_eq_readBits] at h ⊢
  exact readBits_feed h chunk

/-- The result of a step with a chunk fed and `starved` set before it; taking `Corrupt` writes `starved` itself. -/
def FsmResult.fed (chunk : Buffer) (starved : Bool) : FsmResult → FsmResult
  | .ran d => .ran (d.fed chunk starved)
  | .suspended d => .suspended (d.fed chunk starved)
  | .corrupt d => .corrupt (d.fed chunk false)

theorem replay_fed (d : Decoder) (br : Reader) (o n : Nat) (chunk : Buffer) (b : Bool) :
    (d.fed chunk b).replay (br.feed chunk) o n = (d.replay br o n).fed chunk b := by
  unfold Decoder.replay
  by_cases hlt : d.out.length < o + 1
  · rw [if_pos hlt, if_pos (show (d.fed chunk b).out.length < o + 1 from hlt)]
    rfl
  · rw [if_neg hlt, if_neg (show ¬ (d.fed chunk b).out.length < o + 1 from hlt)]
    rfl

/-- A step that does not suspend takes its bits from the bytes before the chunk, and reads no `starved`. -/
theorem fsmStep_fed {d : Decoder} (h : ∀ d', d.fsmStep ≠ .suspended d') (chunk : Buffer) (b : Bool) :
    (d.fed chunk b).fsmStep = d.fsmStep.fed chunk b := by
  obtain ⟨-, -, hs⟩ | ⟨hst, ha, -⟩ | ⟨-, -, hs⟩ | ⟨hst, ha, -⟩ | ⟨-, -, hs⟩ | ⟨hst, ha, o, n, ho, hn, hs⟩ :=
    fsmStep_cases d
  · exact absurd hs (h d)
  · have hread := readBits_eq_some_iff.2 ⟨ha, rfl, rfl⟩
    simp only [Decoder.fsmStep, fed_dstate, hst, Decoder.stepTag, fed_br, hread, readBits_feed hread chunk]
    rfl
  · exact absurd hs (h d)
  · have hread := readBits_eq_some_iff.2 ⟨ha, rfl, rfl⟩
    simp only [Decoder.fsmStep, fed_dstate, hst, Decoder.stepLit, fed_br, hread, readBits_feed hread chunk]
    rfl
  · exact absurd hs (h d)
  · have ha' := Nat.not_lt.2 (ha.trans (avail_le_feed d.br chunk))
    rw [hs, ← replay_fed]
    simp only [Decoder.fsmStep, fed_dstate, hst, Decoder.stepBref, fed_br, fed_ctl, if_neg ha', readField_feed ho chunk,
      readField_feed hn chunk]

section
variable {d d' : Decoder} (chunk : Buffer) (b : Bool)

theorem fsmStep_fed_of_ran (h : d.fsmStep = .ran d') : (d.fed chunk b).fsmStep = .ran (d'.fed chunk b) :=
  (fsmStep_fed (fun _ hs => nomatch h.symm.trans hs) chunk b).trans (congrArg (FsmResult.fed chunk b) h)

theorem fsmStep_fed_of_corrupt (h : d.fsmStep = .corrupt d') :
    (d.fed chunk b).fsmStep = .corrupt (d'.fed chunk false) :=
  (fsmStep_fed (fun _ hs => nomatch h.symm.trans hs) chunk b).trans (congrArg (FsmResult.fed chunk b) h)

end

theorem Decoder.Runs.fed {d d' : Decoder} (h : d.Runs d') (chunk : Buffer) (b : Bool) :
    (d.fed chunk b).Runs (d'.fed chunk b) := by
  induction h with
  | refl => exact .refl
  | tail _ hstep ih => exact ih.tail (fsmStep_fed_of_ran chunk b hstep)

/-- A `PROCESS` writes `starved` and does not read it. -/
theorem processed_fed_starved {d : Decoder} (h : d.Legal) (b : Bool) : (d.fed [] b).processed [] = d.processed [] := by
  obtain ⟨e, hruns, hend⟩ := exists_runs_end h
  rw [processed_of_runs h hruns, processed_of_runs (d := d.fed [] b) h (hruns.fed [] b)]
  cases hstep : e.fsmStep with
  | ran e' => exact absurd hstep (hend e')
  | suspended e' =>
    have hwaits : e.br.avail < e.stepBits := fsmStep_eq_suspended_iff.1 (fsmStep_suspended_self hstep ▸ hstep)
    rw [processed_of_suspended hstep,
      processed_of_suspended (d := e.fed [] b) (fsmStep_eq_suspended_iff.2 (by rwa [fed_br, feed_nil])), fed_nil]
    rfl
  | corrupt e' =>
    rw [processed_of_corrupt hstep, processed_of_corrupt (fsmStep_fed_of_corrupt [] b hstep), fed_nil, ← (fsmStep_corrupt_raised hstep).2]

/-- A `PROCESS` that leaves the control registers is taken up by the next as if their chunks were one; one that raises
`Corrupt` reads nothing fed after it (43_decoder.md R158). -/
theorem processed_append {d : Decoder} (h : d.Legal) (c1 c2 : Buffer) :
    ((d.processed c1).ctl = d.ctl ∧ (d.processed c1).processed c2 = d.processed (c1 ++ c2)) ∨
    ((d.processed c1).CorruptedFrom d.ctl ∧
      d.processed (c1 ++ c2) = (d.processed c1).fed c2 (d.processed c1).starved) := by
  obtain ⟨e, hruns, hend⟩ := exists_runs_end (d := d.fed c1 d.starved) h
  have hfirst : d.processed c1 = e.processed [] := (processed_eq_fed d c1).trans (processed_of_runs h hruns)
  have hboth : d.processed (c1 ++ c2) = (e.fed c2 d.starved).processed [] := by
    rw [processed_eq_fed, ← fed_fed d c1 c2 d.starved d.starved]
    exact processed_of_runs h (hruns.fed c2 d.starved)
  rw [hboth, hfirst]
  cases hstep : e.fsmStep with
  | ran e' => exact absurd hstep (hend e')
  | suspended e' =>
    have hnext : (e.fed [] e.starvedNow).processed c2 = (e.fed c2 d.starved).processed [] := by
      rw [processed_eq_fed, fed_fed, List.nil_append, ← processed_fed_starved _ d.starved, fed_fed, List.append_nil]
      exact h.of_ctl hruns.ctl
    rw [processed_of_suspended hstep, ← fed_nil]
    exact .inl ⟨hruns.ctl, hnext⟩
  | corrupt e' =>
    obtain ⟨hraised, hstarved⟩ := fsmStep_corrupt_raised hstep
    rw [processed_of_corrupt hstep, processed_of_corrupt (fsmStep_fed_of_corrupt c2 d.starved hstep), hstarved]
    exact .inr ⟨hruns.ctl ▸ hraised, rfl⟩

/-- A `PROCESS` that raised nothing leaves nothing to run (43_decoder.md R153). -/
theorem processed_processed_nil {d : Decoder} (h : d.Legal) {chunk : Buffer}
    (hfault : (d.processed chunk).ctl.fault = false) : (d.processed chunk).processed [] = d.processed chunk := by
  obtain ⟨-, hnext⟩ | ⟨hraised, -⟩ := processed_append h chunk []
  · rwa [List.append_nil] at hnext
  · cases hraised.fault.symm.trans hfault

/-! ### The answer of a `PROCESS` -/

/-- `PROCESS` on a ready decoder answers (43_decoder.md R146). -/
theorem exec_process_of_ready {s : State} {d : Decoder} (chunk : Buffer) (hs : s.inst? = some (.dec d))
    (hready : d.ctl.Ready) :
    exec (.process chunk) s =
      .next (s.answer (.dec (d.processed chunk)) (d.processed chunk).processResponse) := by
  refine (onDec_of _ hs).trans ?_
  rw [refusal?_eq_none_iff.2 hready]
  rfl

theorem exec_process_of_fault {s : State} {d : Decoder} (chunk : Buffer) (hs : s.inst? = some (.dec d))
    (hfault : d.ctl.fault = true) : exec (.process chunk) s = .refused (.faulted d.ctl.cause d.ctl.info) := by
  refine (onDec_of _ hs).trans ?_
  rw [Control.refusal?, if_pos hfault]

theorem processResponse_of_fault {d : Decoder} (h : d.ctl.fault = true) :
    d.processResponse = .corrupt d.tokOff d.out.length := if_pos h

theorem processResponse_of_no_fault {d : Decoder} (h : d.ctl.fault = false) : d.processResponse = .ok :=
  if_neg (by rw [h]; exact Bool.false_ne_true)

/-- Of two answers in one place the last stands. -/
theorem answer_answer_last (s : State) (x y : Inst) (r r' : Response) : (s.answer x r).answer y r' = s.answer y r' := by
  simp only [State.answer, List.set_set]

/-- Settles O54: the first `PROCESS` leaves the decoder ready for the second, or has raised `Corrupt`, which no byte
fed later changes. -/
theorem chunkingDoesNotMatter : Obligations.ChunkingDoesNotMatter := by
  intro s t u d c1 c2 hs hready hlegal ht hu
  cases (exec_process_of_ready c1 hs hready).symm.trans ht
  cases (exec_process_of_ready (c1 ++ c2) hs hready).symm.trans hu
  have hd := answer_inst? (y := .dec (d.processed c1)) (d.processed c1).processResponse hs
  obtain ⟨hctl, hnext⟩ | ⟨hraised, hboth⟩ := processed_append hlegal c1 c2
  · have hready' : (d.processed c1).ctl.Ready := by rwa [hctl]
    refine ⟨fun _ => ?_, fun hne => absurd (processResponse_of_no_fault hready'.2) hne⟩
    rw [exec_process_of_ready c2 hd hready', answer_answer_last, hnext]
  · have hresponse := processResponse_of_fault hraised.fault
    refine ⟨fun hok => (nomatch hresponse.symm.trans hok), fun _ => ?_⟩
    refine ⟨⟨_, exec_process_of_fault c2 hd hraised.fault⟩, ?_, _, hd, ?_⟩
    · rw [hboth]
      rfl
    · rw [answer_inst? _ hs, hboth]
      rfl

/-! ### What a `PROCESS` keeps -/

/-- What every step of the FSM keeps, a run keeps. -/
theorem runFsm_keeps {P : Decoder → Prop} (hstep : ∀ d, P d → P d.fsmStep.decoder) (fuel : Nat) {d : Decoder}
    (hd : P d) : P (d.runFsm fuel) := by
  induction fuel generalizing d with
  | zero => exact hd
  | succ fuel ih =>
    have hnext := hstep d hd
    cases h : d.fsmStep with
    | ran d' =>
      rw [runFsm_of_ran h]
      rw [h] at hnext
      exact ih hnext
    | suspended d' =>
      rw [runFsm_of_suspended h]
      rwa [h] at hnext
    | corrupt d' =>
      rw [runFsm_of_corrupt h]
      rwa [h] at hnext

/-- `d'` comes from `d` by reading on in the same stream, with `cap_hint` as it was. -/
def Decoder.ReadsOn (d d' : Decoder) : Prop :=
  d'.br.stream = d.br.stream ∧ d.br.rpos ≤ d'.br.rpos ∧ (d.br.Inv → d'.br.Inv) ∧ d'.capHint = d.capHint

theorem replay_capHint (d : Decoder) (br : Reader) (o n : Nat) : (d.replay br o n).decoder.capHint = d.capHint := by
  obtain ⟨-, h⟩ | ⟨-, h⟩ := replay_cases d br o n <;> rw [h] <;> rfl

theorem fsmStep_capHint (d : Decoder) : d.fsmStep.decoder.capHint = d.capHint := by
  obtain ⟨-, -, h⟩ | ⟨-, -, h⟩ | ⟨-, -, h⟩ | ⟨-, -, h⟩ | ⟨-, -, h⟩ | ⟨-, -, o, n, -, -, h⟩ := fsmStep_cases d <;> rw [h]
  case inr.inr.inr.inr.inr => exact replay_capHint d _ o n
  all_goals rfl

theorem fsmStep_readsOn {d d' : Decoder} (h : d.ReadsOn d') : d.ReadsOn d'.fsmStep.decoder := by
  obtain ⟨hstream, hrpos, hinv, hhint⟩ := h
  have hhint' := (fsmStep_capHint d').trans hhint
  obtain ⟨-, hstep⟩ | ⟨henough, -, hbr⟩ := fsmStep_by_stepBits d'
  · rw [hstep]
    exact ⟨hstream, hrpos, hinv, hhint⟩
  · refine ⟨?_, ?_, ?_, hhint'⟩ <;> rw [hbr]
    · exact hstream
    · exact hrpos.trans (Nat.le_add_right _ _)
    · exact fun hd => advance_inv henough (hinv hd)

/-- A `PROCESS` puts its chunk at the end of `STREAM` and reads on there. -/
theorem processed_readsOn (d : Decoder) (chunk : Buffer) :
    { d with br := d.br.feed chunk }.ReadsOn (d.processed chunk) :=
  runFsm_keeps (P := ({ d with br := d.br.feed chunk }.ReadsOn ·)) (fun _ => fsmStep_readsOn)
    ((d.br.feed chunk).avail + 1) ⟨rfl, Nat.le_refl _, id, rfl⟩

/-- Settles O53: what a run keeps, and its two ends. -/
theorem processAnswersOkOrCorrupt : Obligations.ProcessAnswersOkOrCorrupt := by
  intro s d chunk hs hready hlegal hinv
  obtain ⟨hstream, hrpos, hinv', hhint⟩ := processed_readsOn d chunk
  refine ⟨exec_process_of_ready chunk hs hready, hstream, (processed_grows d chunk).out, hrpos,
    hinv' (feed_inv hinv chunk), ?_⟩
  obtain ⟨hst, hlt, hraised⟩ | ⟨hsame, hwaits⟩ := processed_ends hlegal chunk
  · have hfault : (d.processed chunk).ctl.fault = true := congrArg Control.fault hraised
    have hstarved : (d.processed chunk).starvedNow = false := by
      rw [Decoder.starvedNow, hfault]
      rfl
    refine ⟨?_, ?_, ?_, hhint, .inr ⟨processResponse_of_fault hfault, hlt, hst, hstarved, hraised⟩⟩ <;> rw [hraised]
    · rfl
    · rfl
    · exact hready.1
  · have hfault : (d.processed chunk).ctl.fault = false := hsame ▸ hready.2
    have hstarved : (d.processed chunk).starvedNow = decide ((d.processed chunk).dstate ≠ .awaitTag) := by
      rw [Decoder.starvedNow, hfault]
      rfl
    exact ⟨congrArg Control.w hsame, congrArg Control.l hsame, hsame ▸ hready.1, hhint,
      .inl ⟨processResponse_of_no_fault hfault, hsame, fsmStep_eq_suspended_iff.2 hwaits, hstarved⟩⟩

end Sys2Proof.Machine

/-! SUPPORT. The other operations of a `DEC` (43_decoder.md): construction (R145), a single token (R148 to R154),
`GETOUTPUT` (R155), `STATUS` (R156). -/

namespace Sys2Proof.Machine

/-! ### Construction, `GETOUTPUT` and `STATUS` -/

/-- `DEC.CONFIG` answers as `configure` does, with some free value at hand (43_decoder.md R145; log entry 2). -/
theorem exec_decConfig_of {s : State} {d : Decoder} (w l hint : Nat) (hs : s.inst? = some (.dec d)) :
    ∃ free, exec (.decConfig w l hint) s =
      .next (s.answer (.dec (d.configure w l hint free).1) (d.configure w l hint free).2) :=
  ⟨_, onDec_of _ hs⟩

/-- Settles O36: `configure` branches on whether the violation mask is 0, which it is exactly for a legal pair. -/
theorem decConfigConstructsOrFaults : Obligations.DecConfigConstructsOrFaults := by
  intro s d w l hint hs
  obtain ⟨free, hexec⟩ := exec_decConfig_of w l hint hs
  rw [hexec]
  refine ⟨fun hlegal => ⟨d.freeDraws, ?_⟩, fun hillegal => ?_⟩
  · rw [d.configure_of_legal _ _ hlegal]
    rfl
  · have hillegal := Bool.eq_false_iff.1 hillegal
    refine ⟨mt configMask_eq_zero_iff.1 hillegal, free, d.freeDraws + 1, ?_⟩
    rw [d.configure_of_not_legal _ _ hillegal]
    rfl

/-- Settles O55: the decoder is answered as it stood. -/
theorem getOutputReadsTheOutput : Obligations.GetOutputReadsTheOutput :=
  fun _ _ hs => ⟨onDec_of _ hs, answer_same _ hs⟩

/-- The fields of the `STATUS` word stand side by side (10_state.md R39). -/
theorem statusWord_toNat (configured fault : Bool) (dstate : BitVec 2) (starved : Bool) :
    (statusWord configured fault dstate starved).toNat =
      configured.toNat + 2 * fault.toNat + 4 * dstate.toNat + 16 * starved.toNat := by
  revert configured fault dstate starved
  decide

/-- Settles O38: the word is made of the registers' fields, and what was addressed is answered as it stood. -/
theorem statusAnswersTheRegisters : Obligations.StatusAnswersTheRegisters := by
  refine ⟨fun _ => rfl, fun s e hs => ?_, fun s d hs => ?_⟩
  · exact ⟨_, _, execStatus_of_enc hs, answer_same _ hs, rfl, statusWord_toNat _ _ _ _⟩
  · refine ⟨_, _, execStatus_of_dec hs, answer_same _ hs, rfl, (statusWord_toNat _ _ _ _).trans ?_⟩
    cases d.dstate <;> rfl

/-! ### A single token -/

/-- A token on a ready decoder that may begin or go on with it ends as its body does. -/
theorem tokenWithin_of_tokenRuns {s : State} {d : Decoder} {tag : Bool} {body : Decoder → FsmResult} {r : FsmResult}
    (hs : s.inst? = some (.dec d)) (hready : d.ctl.Ready) (h : d.TokenRuns tag body r) :
    tokenWithin Config.caps tag body s = s.endToken Config.caps r := by
  cases h with
  | noTag hst ha =>
    have hat : d.atToken tag = some (.suspended d) := by simp only [Decoder.atToken, hst, if_pos ha]
    simp only [tokenWithin, onDec_of _ hs, refusal?_eq_none_iff.2 hready, hat]
    rfl
  | tagNow hst ha =>
    refine tokenWithin_of_ready _ _ hs hready ?_
    simp only [Decoder.atToken, hst, if_neg (Nat.not_lt.2 ha)]
  | tagBefore hst =>
    refine tokenWithin_of_ready _ _ hs hready ?_
    cases tag <;> simp [Decoder.atToken, hst]

section
variable {d : Decoder}

theorem literalBody_of_le (b : Byte) (h : 8 ≤ d.br.avail) :
    d.literalBody b = .ran (d.appendLiteral (d.br.advance 8) b) := if_neg (Nat.not_lt.2 h)

theorem literalBody_of_lt (b : Byte) (h : d.br.avail < 8) : d.literalBody b = .suspended d := if_pos h

theorem backrefBody_of_le (o n : Nat) (h : d.ctl.w.toNat + d.ctl.l.toNat ≤ d.br.avail) :
    d.backrefBody o n = d.replay (d.br.advance (d.ctl.w.toNat + d.ctl.l.toNat)) o n := if_neg (Nat.not_lt.2 h)

theorem backrefBody_of_lt (o n : Nat) (h : d.br.avail < d.ctl.w.toNat + d.ctl.l.toNat) :
    d.backrefBody o n = .suspended d := if_pos h

theorem replay_of_le (br : Reader) {o : Nat} (n : Nat) (h : o + 1 ≤ d.out.length) :
    d.replay br o n = .ran { d with
      br := br
      tokOff := o + 1
      tokLen := n + 1
      out := backCopy (o + 1) (n + 1) d.out
      dstate := .awaitTag } := if_neg (Nat.not_lt.2 h)

theorem replay_of_lt (br : Reader) {o : Nat} (n : Nat) (h : d.out.length < o + 1) :
    d.replay br o n = .corrupt (Decoder.raiseCorrupt { d with br := br, tokOff := o + 1, tokLen := n + 1 }) :=
  if_pos h

end

section
variable {s : State} {d : Decoder} (hs : s.inst? = some (.dec d)) (hready : d.ctl.Ready)
include hs hready

/-! A `LITERAL` and a `BACKREF` from each place: no bit unread, the tag unread, the tag read before. -/

theorem exec_literal_of_noTag (b : Byte) (hst : d.dstate = .awaitTag) (ha : d.br.avail = 0) :
    exec (.literal b) s = .next (s.put (.dec d)) :=
  tokenWithin_of_tokenRuns hs hready (.noTag hst (by omega))

theorem exec_literal_of_awaitTag (b : Byte) (hst : d.dstate = .awaitTag) (ha : 1 ≤ d.br.avail) :
    exec (.literal b) s = s.endToken Config.caps ((d.tagged (d.br.advance 1) true).literalBody b) :=
  tokenWithin_of_tokenRuns hs hready (.tagNow hst ha)

theorem exec_literal_of_literal (b : Byte) (hst : d.dstate = .literal) :
    exec (.literal b) s = s.endToken Config.caps (d.literalBody b) :=
  tokenWithin_of_tokenRuns hs hready (.tagBefore (tag := true) hst)

theorem exec_backref_of_noTag (o n : Nat) (hst : d.dstate = .awaitTag) (ha : d.br.avail = 0) :
    exec (.backref o n) s = .next (s.put (.dec d)) :=
  tokenWithin_of_tokenRuns hs hready (.noTag hst (by omega))

theorem exec_backref_of_awaitTag (o n : Nat) (hst : d.dstate = .awaitTag) (ha : 1 ≤ d.br.avail) :
    exec (.backref o n) s = s.endToken Config.caps ((d.tagged (d.br.advance 1) false).backrefBody o n) :=
  tokenWithin_of_tokenRuns hs hready (.tagNow hst ha)

theorem exec_backref_of_backRef (o n : Nat) (hst : d.dstate = .backRef) :
    exec (.backref o n) s = s.endToken Config.caps (d.backrefBody o n) :=
  tokenWithin_of_tokenRuns hs hready (.tagBefore (tag := false) hst)

/-- A whole `BACKREF` from its tag on is its replay past all its bits. -/
theorem exec_backref_whole (o n : Nat) (hst : d.dstate = .awaitTag)
    (ha : 1 + (d.ctl.w.toNat + d.ctl.l.toNat) ≤ d.br.avail) :
    exec (.backref o n) s = s.endToken Config.caps
      ((d.tagged (d.br.advance 1) false).replay (d.br.advance (1 + (d.ctl.w.toNat + d.ctl.l.toNat))) o n) := by
  have hfields : d.ctl.w.toNat + d.ctl.l.toNat ≤ (d.br.advance 1).avail := by
    rw [advance_avail]
    omega
  rw [exec_backref_of_awaitTag hs hready o n hst (by omega),
    backrefBody_of_le (d := d.tagged (d.br.advance 1) false) o n hfields]
  simp only [Decoder.tagged_br, Decoder.tagged_ctl, Reader.advance, Nat.add_assoc]

end

/-- Settles O47: the tag is read now or was read before, and the body finds its 8 bits or not. -/
theorem literalTokenAppendsItsByte : Obligations.LiteralTokenAppendsItsByte := by
  intro s d b hs hready
  refine ⟨fun hst ha => ?_, fun hst ha => ?_, fun hst htag ha => ?_, exec_literal_of_noTag hs hready b,
    fun hst ha => ?_⟩
  · have hbyte : 8 ≤ (d.br.advance 1).avail := by
      rw [advance_avail]
      omega
    rw [exec_literal_of_awaitTag hs hready b hst (by omega),
      literalBody_of_le (d := d.tagged (d.br.advance 1) true) b hbyte, hst]
    rfl
  · rw [exec_literal_of_literal hs hready b hst, literalBody_of_le b ha]
    rfl
  · have hbyte : (d.br.advance 1).avail < 8 := by
      rw [advance_avail]
      omega
    rw [exec_literal_of_awaitTag hs hready b hst htag,
      literalBody_of_lt (d := d.tagged (d.br.advance 1) true) b hbyte]
    rfl
  · rw [exec_literal_of_literal hs hready b hst, literalBody_of_lt b ha]
    rfl

/-- Settles O50: the fields are read together or not at all. -/
theorem incompleteBackrefConsumesNoField : Obligations.IncompleteBackrefConsumesNoField := by
  intro s d o n hs hready
  refine ⟨fun hst htag ha => ?_, exec_backref_of_noTag hs hready o n, fun hst ha => ?_⟩
  · have hfields : (d.br.advance 1).avail < d.ctl.w.toNat + d.ctl.l.toNat := by
      rw [advance_avail]
      omega
    rw [exec_backref_of_awaitTag hs hready o n hst htag,
      backrefBody_of_lt (d := d.tagged (d.br.advance 1) false) o n hfields]
    rfl
  · rw [exec_backref_of_backRef hs hready o n hst, backrefBody_of_lt o n ha]
    rfl

/-- Settles O49: the replay finds its offset beyond the output. -/
theorem backrefBeyondTheOutputIsCorrupt : Obligations.BackrefBeyondTheOutputIsCorrupt := by
  intro s d o n hs hready hout
  refine ⟨fun hst ha => ?_, fun hst ha => ?_⟩
  · rw [exec_backref_whole hs hready o n hst ha, replay_of_lt (d := d.tagged (d.br.advance 1) false) _ n hout]
    rfl
  · rw [exec_backref_of_backRef hs hready o n hst, backrefBody_of_le o n ha, replay_of_lt _ n hout, ← hst]
    rfl

/-! ### The back-copy repeats the output -/

/-- Over the last `n` bytes of a buffer that repeats at distance `offset`, the back-copy restores what follows its
first `pos` bytes (43_decoder.md R150). -/
theorem backCopy_take {buf : Buffer} {offset pos : Nat} (n : Nat) (hpos : 1 ≤ offset) (hoff : offset ≤ pos)
    (hlen : pos + n ≤ buf.length) (hagree : AgreeFor buf (pos - offset) pos n) :
    backCopy offset n (buf.take pos) = buf.take (pos + n) := by
  induction n generalizing pos with
  | zero => rfl
  | succ n ih =>
    have hlt : pos < buf.length := by omega
    have hread : memRead (buf.take pos) ((buf.take pos).length - offset) = some buf[pos] := by
      rw [List.length_take_of_le hlt.le, memRead, List.getElem?_take_of_lt (by omega)]
      exact (hagree 0 (Nat.succ_pos n)).trans (List.getElem?_eq_getElem hlt)
    have hnext : memAppend (buf.take pos) buf[pos] = buf.take (pos + 1) := List.take_append_getElem hlt
    have hagree' : AgreeFor buf (pos + 1 - offset) (pos + 1) n := by
      intro t ht
      have hstep := hagree (t + 1) (Nat.succ_lt_succ ht)
      rwa [show pos - offset + (t + 1) = pos + 1 - offset + t by omega,
        show pos + (t + 1) = pos + 1 + t by omega] at hstep
    rw [backCopy, hread]
    dsimp only
    rw [hnext, ih (by omega) (by omega) hagree', Nat.add_right_comm, Nat.add_assoc]

/-- The last `offset` bytes of a buffer, repeated to `n` bytes (43_decoder.md R151). -/
def repeatedTail (buf : Buffer) (offset n : Nat) : Buffer :=
  (List.range n).map fun k => buf.getD (buf.length - offset + k % offset) 0

@[simp] theorem repeatedTail_length (buf : Buffer) (offset n : Nat) : (repeatedTail buf offset n).length = n := by
  simp only [repeatedTail, List.length_map, List.length_range]

theorem memRead_repeatedTail (buf : Buffer) (offset : Nat) {n k : Nat} (hk : k < n) :
    memRead (buf ++ repeatedTail buf offset n) (buf.length + k) =
      some (buf.getD (buf.length - offset + k % offset) 0) := by
  rw [memRead, List.getElem?_append_right (Nat.le_add_right _ _), Nat.add_sub_cancel_left, repeatedTail,
    List.getElem?_map, List.getElem?_range hk, Option.map_some]

/-- The repeated tail has period `offset`, and so has what it follows. -/
theorem agreeFor_repeatedTail {buf : Buffer} {offset : Nat} (n : Nat) (hpos : 1 ≤ offset) (hoff : offset ≤ buf.length) :
    AgreeFor (buf ++ repeatedTail buf offset n) (buf.length - offset) buf.length n := by
  intro k hk
  rw [memRead_repeatedTail buf offset hk]
  obtain hlt | hle := Nat.lt_or_ge k offset
  · have hin : buf.length - offset + k < buf.length := by omega
    rw [Nat.mod_eq_of_lt hlt, memRead_append_of_lt hin, memRead, List.getD_eq_getElem _ _ hin,
      List.getElem?_eq_getElem hin]
  · rw [show buf.length - offset + k = buf.length + (k - offset) by omega,
      memRead_repeatedTail buf offset (by omega), ← Nat.mod_eq_sub_mod hle]

/-- The back-copy appends the last bytes, repeated (43_decoder.md R150, R151). -/
theorem backCopy_eq_append {offset : Nat} (n : Nat) {out : Buffer} (hpos : 1 ≤ offset) (hoff : offset ≤ out.length) :
    backCopy offset n out = out ++ repeatedTail out offset n := by
  have hlen : (out ++ repeatedTail out offset n).length = out.length + n := by
    rw [List.length_append, repeatedTail_length]
  have hcopy := backCopy_take n hpos hoff hlen.ge (agreeFor_repeatedTail n hpos hoff)
  rwa [List.take_left, ← hlen, List.take_length] at hcopy

/-- Settles O48: the replay finds its offset inside the output, and the back-copy repeats the last bytes. -/
theorem backrefTokenRepeatsTheOutput : Obligations.BackrefTokenRepeatsTheOutput := by
  intro s d o n hs hready hout
  have hcopy := backCopy_eq_append (n + 1) (Nat.succ_pos o) hout
  refine ⟨fun hst ha => ?_, fun hst ha => ?_⟩
  · rw [exec_backref_whole hs hready o n hst ha, replay_of_le (d := d.tagged (d.br.advance 1) false) _ n hout,
      Decoder.tagged_out, hcopy, ← hst]
    rfl
  · rw [exec_backref_of_backRef hs hready o n hst, backrefBody_of_le o n ha, replay_of_le _ n hout, hcopy]
    rfl

end Sys2Proof.Machine

/-! SUPPORT. The round trip (43_decoder.md R159, R160): a decoder fed a compressed stream runs through its tokens, each
of which gives back the bytes it stands for, and then into the padding. -/

namespace Sys2Proof.Machine

/-! ### A token at a tag boundary -/

/-- The decoder awaits a tag, with control registers `c`, output `out` and unread bits `bits`. -/
structure Decoder.AtBoundary (d : Decoder) (c : Control) (out : Buffer) (bits : BitSeq) : Prop where
  ctl : d.ctl = c
  dstate : d.dstate = .awaitTag
  out : d.out = out
  unread : d.br.unread = bits

section
variable {d : Decoder} {c : Control} {out : Buffer} {rest : BitSeq}

/-- `STEP.TAG` on a tag (43_decoder.md R148). -/
theorem fsmStep_of_tag {tag : Bool} (h : d.AtBoundary c out (tag :: rest)) :
    d.fsmStep = .ran (d.tagged (d.br.advance 1) tag) ∧ (d.br.advance 1).unread = rest := by
  have htag : takeField 1 d.br.unread = some (tag.toNat, rest) := by
    rw [takeField_eq_some_iff_append, h.unread]
    cases tag <;> exact ⟨by decide, rfl⟩
  obtain ⟨hread, hrest⟩ := readBits_of_takeField htag
  refine ⟨?_, hrest⟩
  cases tag <;> simp [Decoder.fsmStep, h.dstate, Decoder.stepTag, hread]

/-- A `LITERAL` is two steps, and its byte is appended. -/
theorem runs_literal {b : Byte} (h : d.AtBoundary c out (literalBits b ++ rest)) :
    ∃ d', d.Runs d' ∧ d'.AtBoundary c (memAppend out b) rest := by
  obtain ⟨htag, hunread⟩ := fsmStep_of_tag h
  obtain ⟨hstep, hbody, hrest⟩ := fsmStep_of_literal (d := d.tagged (d.br.advance 1) true) rfl hunread
  exact ⟨_, .head htag (.single (hstep.trans hbody)), h.ctl, rfl, congrArg (memAppend · b) h.out, hrest⟩

/-- A `BACKREF` whose offset is inside the output is two steps, and its bytes are copied. -/
theorem runs_backref {o n : Nat} (ho : o < 2 ^ c.w.toNat) (hn : n < 2 ^ c.l.toNat) (hout : o + 1 ≤ out.length)
    (h : d.AtBoundary c out (backrefBits c.w.toNat c.l.toNat o n ++ rest)) :
    ∃ d', d.Runs d' ∧ d'.AtBoundary c (backCopy (o + 1) (n + 1) out) rest := by
  obtain ⟨rfl, -, rfl, -⟩ := id h
  obtain ⟨htag, hunread⟩ := fsmStep_of_tag h
  obtain ⟨hstep, hbody, hrest⟩ := fsmStep_of_backref (d := d.tagged (d.br.advance 1) false) rfl ho hn
    (hunread.trans (List.append_assoc _ _ _))
  have hreplay := replay_of_le (d := d.tagged (d.br.advance 1) false)
    ((d.br.advance 1).advance (d.ctl.w.toNat + d.ctl.l.toNat)) n hout
  exact ⟨_, .head htag (.single (hstep.trans (hbody.trans hreplay))), rfl, rfl, rfl, hrest⟩

end

/-! ### The tokens of a `COMPRESS` -/

section
variable {e : Encoder} {d : Decoder} {rest : BitSeq}

/-- A decoder that has the bytes before a position and reads the token the encoder emits there has the bytes up to the
next position (43_decoder.md R159). -/
theorem runs_pass {b : Byte} (hread : memRead e.input e.pos = some b)
    (h : d.AtBoundary e.ctl (e.input.take e.pos)
      (tokenBits e.ctl.w.toNat e.ctl.l.toNat (e.search.token b) ++ rest)) :
    ∃ d', d.Runs d' ∧ d'.AtBoundary e.ctl (e.input.take (e.search.emit b).pos) rest := by
  obtain ⟨hpos, hbyte⟩ := memRead_eq_some_iff.1 hread
  rw [emit_pos_eq_tokenLength, Encoder.search_pos]
  obtain hlt | hle := Nat.lt_or_ge e.search.bestLen 2
  · rw [e.search.token_of_lt b hlt] at h ⊢
    rw [tokenLength_literal, ← List.take_append_getElem hpos, hbyte]
    exact runs_literal h
  · have hone : 1 ≤ e.search.bestLen := Nat.le_of_succ_le hle
    have hlen := search_bestLen_le hpos
    have hoff := search_bestOff_le hpos
    have hoffpos := search_bestOff_pos hpos hone
    obtain ⟨-, -, hlane, -⟩ := (search_isBest hpos).farthest hone
    have hagree := (le_candLen_iff (search_bounds hpos).1).1 hlane.ge
    have hcopy := backCopy_take e.search.bestLen hoffpos (by omega) (by omega) hagree
    have htaken := List.length_take_of_le hpos.le
    rw [e.search.token_of_le b hle] at h ⊢
    rw [tokenLength_backref, Nat.sub_add_cancel hone, ← hcopy]
    have hruns := runs_backref (by omega) (by omega) (by omega) h
    rwa [Nat.sub_add_cancel hoffpos, Nat.sub_add_cancel hone] at hruns

/-- A decoder runs through the tokens of the passes as the encoder does through its input. -/
theorem runs_passTokens (fuel : Nat)
    (h : d.AtBoundary e.ctl (e.input.take e.pos)
      ((e.passTokens fuel).flatMap (tokenBits e.ctl.w.toNat e.ctl.l.toNat) ++ rest)) :
    ∃ d', d.Runs d' ∧ d'.AtBoundary e.ctl (e.input.take (e.passes fuel).pos) rest := by
  induction fuel generalizing e d with
  | zero => exact ⟨d, .refl, h⟩
  | succ fuel ih =>
    cases hread : memRead e.input e.pos with
    | none =>
      rw [passTokens_succ_of_none fuel hread] at h
      rw [passes_succ_of_none fuel hread]
      exact ⟨d, .refl, h⟩
    | some b =>
      rw [passTokens_succ_of_some fuel hread, List.flatMap_cons, List.append_assoc] at h
      obtain ⟨d₁, hruns₁, h₁⟩ := runs_pass hread h
      have hnext := ih (e := e.search.emit b) (d := d₁)
      simp only [Encoder.emit_input, Encoder.search_input, Encoder.emit_ctl, Encoder.search_ctl] at hnext
      obtain ⟨d₂, hruns₂, h₂⟩ := hnext h₁
      rw [passes_succ_of_some fuel hread]
      exact ⟨d₂, hruns₁.trans hruns₂, h₂⟩

/-- A decoder runs through the tokens of a compressed input and has the input (43_decoder.md R159). -/
theorem runs_tokens (input : Buffer)
    (h : d.AtBoundary e.ctl [] ((e.tokens input).flatMap (tokenBits e.ctl.w.toNat e.ctl.l.toNat) ++ rest)) :
    ∃ d', d.Runs d' ∧ d'.AtBoundary e.ctl input rest := by
  obtain ⟨d', hruns, h'⟩ := runs_passTokens (e := e.load input) input.length h
  have hpos : ((e.load input).passes input.length).pos = input.length := compressed_pos e input
  rw [hpos, Encoder.load_input, List.take_length] at h'
  exact ⟨d', hruns, h'⟩

end

/-! ### The padding -/

theorem replicate_false_eq_backrefBits (w l k : Nat) :
    List.replicate (1 + w + l + k) false = backrefBits w l 0 0 ++ List.replicate k false := by
  simp only [backrefBits, bitsMSB_of_zero, List.replicate_append_replicate, ← List.replicate_succ]
  congr 1
  omega

theorem backCopy_last (out : Buffer) (x : Byte) : backCopy 1 1 (out ++ [x]) = out ++ [x] ++ [x] := by
  have hread : memRead (out ++ [x]) ((out ++ [x]).length - 1) = some x := by simp [memRead]
  rw [backCopy, hread]
  rfl

section
variable {d : Decoder} {c : Control} {out : Buffer} {p : Nat}

/-- Padding that holds no whole token: a tag is read if there is one, and the decoder waits (43_decoder.md R160). -/
theorem processed_of_short_padding (hlegal : d.Legal) (hfault : c.fault = false)
    (h : d.AtBoundary c out (List.replicate p false)) (hp : p < 1 + c.w.toNat + c.l.toNat) :
    (d.processed []).ctl = c ∧ (d.processed []).out = out ∧ (d.processed []).br.avail = p - 1 ∧
      (p = 0 → (d.processed []).dstate = .awaitTag) ∧
      (1 ≤ p → (d.processed []).dstate = .backRef ∧ (d.processed []).starved = true) := by
  obtain ⟨rfl, hst, rfl, hunread⟩ := id h
  have havail : d.br.avail = p := by rw [← unread_length, hunread, List.length_replicate]
  cases p with
  | zero =>
    have hwaits : d.fsmStep = .suspended d := by
      rw [fsmStep_eq_suspended_iff, Decoder.stepBits_of_awaitTag hst, havail]
      exact Nat.one_pos
    rw [processed_of_suspended hwaits]
    exact ⟨rfl, rfl, havail, fun _ => hst, fun hpos => absurd hpos (Nat.not_succ_le_zero 0)⟩
  | succ p =>
    obtain ⟨htag, -⟩ := fsmStep_of_tag h
    have hleft : (d.br.advance 1).avail = p := by
      rw [advance_avail, havail, Nat.add_sub_cancel]
    have hwaits : (d.tagged (d.br.advance 1) false).fsmStep = .suspended (d.tagged (d.br.advance 1) false) := by
      rw [fsmStep_eq_suspended_iff, Decoder.stepBits_of_backRef rfl, Decoder.tagged_br, hleft, Decoder.tagged_ctl]
      omega
    have hstarved : (d.tagged (d.br.advance 1) false).starvedNow = true := by
      rw [Decoder.starvedNow, Decoder.tagged_ctl, hfault]
      rfl
    rw [processed_of_ran hlegal htag, processed_of_suspended hwaits]
    exact ⟨rfl, rfl, hleft, fun hzero => absurd hzero (Nat.succ_ne_zero p), fun _ => ⟨rfl, hstarved⟩⟩

/-- Padding that holds a whole token repeats the last byte (43_decoder.md R160). -/
theorem runs_spurious_token (hne : out ≠ [])
    (h : d.AtBoundary c out (List.replicate (1 + c.w.toNat + c.l.toNat + p) false)) :
    ∃ d', d.Runs d' ∧ ∃ x, out.getLast? = some x ∧ d'.AtBoundary c (out ++ [x]) (List.replicate p false) := by
  obtain ⟨init, x, rfl⟩ := (List.eq_nil_or_concat' out).resolve_left hne
  rw [replicate_false_eq_backrefBits] at h
  obtain ⟨d', hruns, h'⟩ := runs_backref (Nat.two_pow_pos _) (Nat.two_pow_pos _) (by simp) h
  rw [backCopy_last] at h'
  exact ⟨d', hruns, x, List.getLast?_concat, h'⟩

end

/-- What a decoder holds after a `PROCESS` of the compressed input `b` with `p` bits of padding, where a
back-reference has `t` bits (43_decoder.md R159, R160). -/
structure Decoder.DecodedFrom (d : Decoder) (b : Buffer) (p t : Nat) : Prop where
  noFault : d.ctl.fault = false
  aligned : p = 0 → d.dstate = .awaitTag ∧ d.br.avail = 0 ∧ d.out = b
  short : 1 ≤ p → p < t → d.dstate = .backRef ∧ d.br.avail = p - 1 ∧ d.starved = true ∧ d.out = b
  spurious : t ≤ p → (∃ x, b.getLast? = some x ∧ d.out = b ++ [x]) ∧ d.br.avail = 0 ∧
    (p = t → d.dstate = .awaitTag) ∧ (t < p → d.dstate = .backRef)

theorem Decoder.DecodedFrom.dstate_ne_literal {d : Decoder} {b : Buffer} {p t : Nat} (h : d.DecodedFrom b p t) :
    d.dstate ≠ .literal := by
  have hstate : d.dstate = .awaitTag ∨ d.dstate = .backRef := by
    obtain rfl | hpos := Nat.eq_zero_or_pos p
    · exact .inl (h.aligned rfl).1
    obtain hlt | hle := Nat.lt_or_ge p t
    · exact .inr (h.short hpos hlt).1
    obtain ⟨-, -, hexact, hmore⟩ := h.spurious hle
    exact hle.eq_or_lt.imp (fun heq => hexact heq.symm) hmore
  obtain h | h := hstate <;> rw [h] <;> exact nofun

/-- Padding that holds no whole token adds nothing to the output (43_decoder.md R159). -/
theorem Decoder.DecodedFrom.out_of_short {d : Decoder} {b : Buffer} {p t : Nat} (h : d.DecodedFrom b p t)
    (hp : p < t) : d.out = b := by
  obtain rfl | hpos := Nat.eq_zero_or_pos p
  · obtain ⟨-, -, hout⟩ := h.aligned rfl
    exact hout
  · obtain ⟨-, -, -, hout⟩ := h.short hpos hp
    exact hout

/-- The padding is shorter than two tokens, so it holds at most one (43_decoder.md R160). -/
theorem processed_padding {d : Decoder} {c : Control} {b : Buffer} {p : Nat} (hlegal : d.Legal)
    (hfault : c.fault = false) (hp : p < 8) (hempty : b = [] → p = 0)
    (h : d.AtBoundary c b (List.replicate p false)) :
    (d.processed []).DecodedFrom b p (1 + c.w.toNat + c.l.toNat) := by
  have hpair := legalParams_iff.1 hlegal
  rw [h.ctl] at hpair
  obtain hshort | hlong := Nat.lt_or_ge p (1 + c.w.toNat + c.l.toNat)
  · obtain ⟨hctl, hout, havail, haligned, hwaits⟩ := processed_of_short_padding hlegal hfault h hshort
    exact {
      noFault := hctl ▸ hfault
      aligned := fun hzero => ⟨haligned hzero, by omega, hout⟩
      short := fun hpos _ => ⟨(hwaits hpos).1, havail, (hwaits hpos).2, hout⟩
      spurious := fun hle => absurd hle (Nat.not_le.2 hshort) }
  · obtain ⟨k, rfl⟩ := Nat.exists_eq_add_of_le hlong
    have hne : b ≠ [] := fun hnil => by have := hempty hnil; omega
    obtain ⟨d', hruns, x, hlast, h'⟩ := runs_spurious_token hne h
    obtain ⟨hctl, hout, havail, haligned, hwaits⟩ :=
      processed_of_short_padding (hlegal.of_ctl hruns.ctl) hfault h' (by omega)
    rw [processed_of_runs hlegal hruns]
    exact {
      noFault := hctl ▸ hfault
      aligned := fun hzero => by omega
      short := fun _ hlt => absurd hlt (Nat.not_lt.2 hlong)
      spurious := fun _ => ⟨⟨x, hlast, hout⟩, by omega, fun hexact => haligned (by omega),
        fun hmore => (hwaits (by omega)).1⟩ }

/-! ### A compressed stream -/

/-- The number of padding bits of `COMPRESS(b)` (30_encoding.md R79). -/
def Encoder.padding (e : Encoder) (b : Buffer) : Nat :=
  (8 - ((e.tokens b).flatMap (tokenBits e.ctl.w.toNat e.ctl.l.toNat)).length % 8) % 8

/-- No input, no tokens, no padding. -/
theorem padding_nil (e : Encoder) : e.padding [] = 0 := by
  rw [Encoder.padding, show e.tokens [] = [] from rfl, List.flatMap_nil, List.length_nil]

theorem padding_lt (e : Encoder) (b : Buffer) : e.padding b < 8 := Nat.mod_lt _ (by decide)

/-- A fresh decoder with the encoder's control registers, fed the whole of a compressed input (43_decoder.md R159,
R160). -/
theorem processed_compressed {e : Encoder} {d : Decoder} (b : Buffer) (hlegal : d.Legal) (hfault : e.ctl.fault = false)
    (hbr : d.br = .fresh) (h : d.AtBoundary e.ctl [] []) :
    (d.processed (e.compressed b).bw.wbuf).DecodedFrom b (e.padding b) (1 + e.ctl.w.toNat + e.ctl.l.toNat) := by
  have hstart : (d.fed (e.compressed b).bw.wbuf d.starved).AtBoundary e.ctl []
      ((e.tokens b).flatMap (tokenBits e.ctl.w.toNat e.ctl.l.toNat) ++ List.replicate (e.padding b) false) := by
    refine ⟨h.ctl, h.dstate, h.out, ?_⟩
    rw [fed_br, hbr, fresh_unread_feed, compressed_bits]
    rfl
  obtain ⟨d', hruns, h'⟩ := runs_tokens b hstart
  rw [processed_eq_fed, processed_of_runs (d := d.fed _ _) hlegal hruns]
  exact processed_padding (hlegal.of_ctl hruns.ctl) hfault (padding_lt e b) (fun hnil => hnil ▸ padding_nil e) h'

section
variable {w l : Nat} (hlegal : legalParams w l = true)
include hlegal

theorem Encoder.configure_ctl_of_legal (e : Encoder) : (e.configure w l).1.ctl = .construct w l := by
  rw [e.configure_of_legal hlegal]

theorem Decoder.configure_fresh_of_legal (d : Decoder) (hint free : Nat) :
    (d.configure w l hint free).1.br = .fresh ∧
      (d.configure w l hint free).1.starved = false ∧
      (d.configure w l hint free).1.AtBoundary (.construct w l) [] [] := by
  rw [d.configure_of_legal hint free hlegal]
  exact ⟨rfl, rfl, rfl, rfl, rfl, rfl⟩

theorem construct_legal {d : Decoder} (h : d.ctl = .construct w l) : d.Legal := by
  obtain ⟨hw, hl⟩ := construct_toNat hlegal
  rwa [Decoder.Legal, h, hw, hl]

/-- `processed_compressed` for an encoder and a decoder constructed at one pair. -/
theorem processed_compressed_of_configure (e : Encoder) (d : Decoder) (hint free : Nat) (b : Buffer) :
    ((d.configure w l hint free).1.processed ((e.configure w l).1.compressed b).bw.wbuf).DecodedFrom b
      ((8 - (((e.configure w l).1.tokens b).flatMap (tokenBits w l)).length % 8) % 8) (1 + w + l) := by
  obtain ⟨hw, hl⟩ := construct_toNat hlegal
  obtain ⟨hbr, -, hstart⟩ := d.configure_fresh_of_legal hlegal hint free
  have hctl := e.configure_ctl_of_legal hlegal
  have hend := processed_compressed (e := (e.configure w l).1) b (construct_legal hlegal hstart.ctl) (by rw [hctl]; rfl)
    hbr (hctl ▸ hstart)
  rwa [Encoder.padding, hctl, hw, hl] at hend

end

/-- Settles O57: the decoder runs through the tokens and then reads the padding as tags and fields of zeros. -/
theorem paddingOutcome : Obligations.PaddingOutcome := by
  intro e d w l hint free b hlegal
  have hend := processed_compressed_of_configure hlegal e d hint free b
  exact ⟨hend.dstate_ne_literal, hend.noFault, hend.aligned, hend.short, hend.spurious⟩

/-! ### The round trip -/

/-- Chunks of a stream that raises no fault are processed one after another as the whole stream is (43_decoder.md
R158). -/
theorem processAll_of_no_fault (chunks : List Buffer) {s : State} {d : Decoder} (hs : s.inst? = some (.dec d))
    (hready : d.ctl.Ready) (hlegal : d.Legal) (hquiet : d.processed [] = d)
    (hfault : (d.processed chunks.flatten).ctl.fault = false) :
    ∃ t, processAll chunks s = .next t ∧ t.inst? = some (.dec (d.processed chunks.flatten)) := by
  induction chunks generalizing s d with
  | nil => exact ⟨s, rfl, hs.trans (congrArg (some ∘ Inst.dec) hquiet.symm)⟩
  | cons chunk chunks ih =>
    have hexec := exec_process_of_ready chunk hs hready
    have hd := answer_inst? (y := .dec (d.processed chunk)) (d.processed chunk).processResponse hs
    rw [List.flatten_cons] at hfault ⊢
    obtain ⟨hctl, hnext⟩ | ⟨hraised, hboth⟩ := processed_append hlegal chunk chunks.flatten
    · have hready' : (d.processed chunk).ctl.Ready := hctl ▸ hready
      rw [← hnext] at hfault ⊢
      simp only [processAll, hexec]
      exact ih hd hready' (hlegal.of_ctl hctl) (processed_processed_nil hlegal hready'.2) hfault
    · rw [hboth, fed_ctl, hraised.fault] at hfault
      cases hfault

/-- A decoder that awaits a tag with no bit unread has nothing to run. -/
theorem processed_nil_of_atBoundary {d : Decoder} {c : Control} {out : Buffer} (h : d.AtBoundary c out [])
    (hstarved : d.starved = false) : d.processed [] = d := by
  have hwaits : d.fsmStep = .suspended d := by
    rw [fsmStep_eq_suspended_iff, Decoder.stepBits_of_awaitTag h.dstate, ← unread_length, h.unread]
    exact Nat.one_pos
  have hnow : d.starvedNow = d.starved := by
    rw [hstarved, Decoder.starvedNow, h.dstate]
    exact Bool.and_false _
  rw [processed_of_suspended hwaits, hnow]

/-- A decoder constructed at the encoder's pair, fed a compressed input in any chunks. -/
theorem processAll_compressed {w l : Nat} (hlegal : legalParams w l = true) (e : Encoder) (d : Decoder)
    (hint free : Nat) (b : Buffer) {s : State} (hs : s.inst? = some (.dec (d.configure w l hint free).1))
    {chunks : List Buffer} (hchunks : chunks.flatten = ((e.configure w l).1.compressed b).bw.wbuf) :
    ∃ t d', processAll chunks s = .next t ∧ t.inst? = some (.dec d') ∧ d'.DecodedFrom b
      ((8 - (((e.configure w l).1.tokens b).flatMap (tokenBits w l)).length % 8) % 8) (1 + w + l) := by
  have hend := processed_compressed_of_configure hlegal e d hint free b
  rw [← hchunks] at hend
  obtain ⟨-, hstarved, hstart⟩ := d.configure_fresh_of_legal hlegal hint free
  have hready : (d.configure w l hint free).1.ctl.Ready := by
    rw [hstart.ctl]
    exact ⟨rfl, rfl⟩
  obtain ⟨t, hexec, ht⟩ := processAll_of_no_fault chunks hs hready (construct_legal hlegal hstart.ctl)
    (processed_nil_of_atBoundary hstart hstarved) hend.noFault
  exact ⟨t, _, hexec, ht, hend⟩

/-- Settles O56: the operations answer, and the chunks are processed as the whole stream is. -/
theorem decoderRecoversWhatWasCompressed : Obligations.DecoderRecoversWhatWasCompressed := by
  intro s ke kd e d w l hint b he hd hlegal
  have hne : ke ≠ kd := by
    rintro rfl
    cases he.symm.trans hd
  have henc : ({ s with cur := ke } : State).inst? = some (.enc e) := he
  have henc₁ := answer_inst? (y := .enc (e.configure w l).1) (e.configure w l).2 henc
  have hready : (e.configure w l).1.ctl.Ready := by
    rw [e.configure_ctl_of_legal hlegal]
    exact ⟨rfl, rfl⟩
  have hcompress := exec_compress_of_ready b henc₁ hready
  have hdec (x y : Inst) (r r' : Response) :
      ({ (({ s with cur := ke } : State).answer x r).answer y r' with cur := kd } : State).inst? = some (.dec d) :=
    (List.getElem?_set_ne hne).trans ((List.getElem?_set_ne hne).trans hd)
  obtain ⟨free, hconfig⟩ := exec_decConfig_of w l hint (hdec _ _ _ _)
  refine ⟨_, _, _, _, onEnc_of _ henc, hcompress, rfl, hconfig, fun chunks hchunks => ?_⟩
  obtain ⟨s₄, d₄, hexec, hd₄, hend⟩ :=
    processAll_compressed hlegal e d hint free b (answer_inst? _ (hdec _ _ _ _)) hchunks
  exact ⟨s₄, d₄, hexec, hd₄, hend.noFault, onDec_of _ hd₄, hend.out_of_short, fun hlong => (hend.spurious hlong).1⟩

end Sys2Proof.Machine

/-! SUPPORT. The exceptions (60_exceptions.md): the violation mask (R176), what is refused and how (R179), that nothing
happens between operations (R180). -/

namespace Sys2Proof.Machine

/-! ### The violation mask -/

/-- Each check sets the bits of its own mask and no others. -/
theorem configMask_getLsbD (w l k : Nat) :
    (configMask w l).getLsbD k =
      ((decide (w < 4 ∨ 15 < w) && (1#3).getLsbD k || decide (l = 0) && (2#3).getLsbD k) ||
        decide (w ≤ l) && (4#3).getLsbD k) := by
  have hcheck (p : Prop) [Decidable p] (m : BitVec 3) :
      (if p then m else 0#3).getLsbD k = (decide p && m.getLsbD k) := by
    split <;> simp [*]
  rw [configMask, BitVec.getLsbD_or, BitVec.getLsbD_or, hcheck, hcheck, hcheck]
  rfl

/-- Settles O37: the masks of the three checks are the bits 0, 1 and 2. -/
theorem violationMaskReportsEveryCheck : Obligations.ViolationMaskReportsEveryCheck := by
  intro w l
  refine ⟨?_, ?_, ?_, configMask_eq_zero_iff⟩ <;> rw [configMask_getLsbD] <;> simp

/-! ### The refusals of an instance that is not ready, and of a count -/

theorem refusal?_of_fault {c : Control} (h : c.fault = true) : c.refusal? = some (.faulted c.cause c.info) :=
  if_pos h

theorem refusal?_of_not_configured {c : Control} (hconf : c.configured = false) (hfault : c.fault = false) :
    c.refusal? = some .notConfigured := by
  simp only [Control.refusal?, hconf, hfault, Bool.false_eq_true, if_false]

section
variable {s : State} {i : Instr} {x : Inst} (hs : s.inst? = some x) (hon : runsOn i x = true)
include hs hon

/-- `COMPRESS` and `PROCESS` end in the refusal that the control registers of their instance call for
(60_exceptions.md R179, R181). -/
theorem exec_work_of_refusal {bs : Buffer} {c : Control} {r : Refusal} (hi : i = .compress bs ∨ i = .process bs)
    (hc : x.control? = some c) (hr : c.refusal? = some r) : exec i s = .refused r := by
  obtain rfl | rfl := hi
  · cases x with
    | enc e =>
      cases hc
      refine (onEnc_of _ hs).trans ?_
      rw [hr]
    | dec | bw | br => cases hon
  · cases x with
    | dec d =>
      cases hc
      refine (onDec_of _ hs).trans ?_
      rw [hr]
    | enc | bw | br => cases hon

theorem exec_badCount {v : PortValue} {n : Nat} (hi : i = .writeBits v n ∨ i = .readBits n) (hn : 16 < n) :
    exec i s = .refused .badCount := by
  obtain rfl | rfl := hi
  · cases x with
    | bw w => exact exec_writeBits_of_lt hs v hn
    | enc | dec | br => cases hon
  · cases x with
    | br r => exact exec_readBits_of_lt_count hs hn
    | enc | dec | bw => cases hon

end

/-- Settles O19: both operations begin with the test of the control registers. -/
theorem unreadyInstanceRefusesWork : Obligations.UnreadyInstanceRefusesWork :=
  fun _ _ =>
    ⟨fun _ hs =>
      ⟨fun hconf hfault => exec_work_of_refusal hs rfl (.inl rfl) rfl (refusal?_of_not_configured hconf hfault),
        fun hfault => exec_work_of_refusal hs rfl (.inl rfl) rfl (refusal?_of_fault hfault)⟩,
    fun _ hs =>
      ⟨fun hconf hfault => exec_work_of_refusal hs rfl (.inr rfl) rfl (refusal?_of_not_configured hconf hfault),
        fun hfault => exec_work_of_refusal hs rfl (.inr rfl) rfl (refusal?_of_fault hfault)⟩⟩

/-! ### Every refusal of an operation is one of the spec's own -/

/-- If `o` is a refusal, the host is given its name. -/
def RefusesByName (o : Result) : Prop := ∀ r, o = .refused r → r.isReturned = true

theorem RefusesByName.next (t : State) : RefusesByName (.next t) := fun _ h => by cases h

theorem RefusesByName.fault (f : Fault) : RefusesByName (.fault f) := fun _ h => by cases h

theorem RefusesByName.refused {r : Refusal} (hr : r.isReturned = true) : RefusesByName (.refused r) := by
  rintro _ ⟨⟩
  exact hr

theorem RefusesByName.within (ok : Bool) {o : Result} (ho : RefusesByName o) : RefusesByName (within ok o) := by
  cases ok with
  | true => exact ho
  | false => exact .refused rfl

/-! An operation of one kind: every other kind refuses it as `BadOp`, and with no instance there it faults. -/

theorem RefusesByName.onEnc (s : State) {f : Encoder → Result} (hf : ∀ e, RefusesByName (f e)) :
    RefusesByName (s.onEnc f) := by
  unfold State.onEnc
  split
  case h_1 => exact hf _
  case h_5 => exact .fault _
  all_goals exact .refused rfl

theorem RefusesByName.onDec (s : State) {f : Decoder → Result} (hf : ∀ d, RefusesByName (f d)) :
    RefusesByName (s.onDec f) := by
  unfold State.onDec
  split
  case h_2 => exact hf _
  case h_5 => exact .fault _
  all_goals exact .refused rfl

theorem RefusesByName.onBw (s : State) {f : Writer → Result} (hf : ∀ w, RefusesByName (f w)) :
    RefusesByName (s.onBw f) := by
  unfold State.onBw
  split
  case h_3 => exact hf _
  case h_5 => exact .fault _
  all_goals exact .refused rfl

theorem RefusesByName.onBr (s : State) {f : Reader → Result} (hf : ∀ r, RefusesByName (f r)) :
    RefusesByName (s.onBr f) := by
  unfold State.onBr
  split
  case h_4 => exact hf _
  case h_5 => exact .fault _
  all_goals exact .refused rfl

/-! The operations themselves: the tests they make before they change anything. -/

theorem refusal?_isReturned {c : Control} {r : Refusal} (h : c.refusal? = some r) : r.isReturned = true := by
  unfold Control.refusal? at h
  split at h
  · cases h; rfl
  · split at h
    · cases h
    · cases h; rfl

theorem execStatus_refusesByName (s : State) : RefusesByName (execStatus s) := by
  unfold execStatus
  split
  case h_1 | h_2 => exact .next _
  case h_3 | h_4 => exact .refused rfl
  case h_5 => exact .fault _

theorem execCompress_refusesByName (input : Buffer) (s : State) : RefusesByName (execCompress input s) := by
  refine .onEnc s fun e => ?_
  split
  next hr => exact .refused (refusal?_isReturned hr)
  · exact .within _ (.next _)

theorem execProcess_refusesByName (chunk : Buffer) (s : State) : RefusesByName (execProcess chunk s) := by
  refine .onDec s fun d => ?_
  split
  next hr => exact .refused (refusal?_isReturned hr)
  · exact .within _ (.next _)

theorem execWriteBits_refusesByName (v : PortValue) (n : Nat) (s : State) : RefusesByName (execWriteBits v n s) := by
  refine .onBw s fun w => ?_
  split
  · exact .refused rfl
  · exact .within _ (.next _)

theorem execReadBits_refusesByName (n : Nat) (s : State) : RefusesByName (execReadBits n s) := by
  refine .onBr s fun r => ?_
  split
  · exact .refused rfl
  · split <;> exact .next _

theorem endToken_refusesByName (c : Caps) (s : State) (r : FsmResult) : RefusesByName (s.endToken c r) := by
  cases r with
  | ran d => exact .within _ (.next _)
  | suspended d | corrupt d => exact .next _

theorem tokenWithin_refusesByName (c : Caps) (tag : Bool) (body : Decoder → FsmResult) (s : State) :
    RefusesByName (tokenWithin c tag body s) := by
  refine .onDec s fun d => ?_
  split
  next hr => exact .refused (refusal?_isReturned hr)
  · split
    · exact endToken_refusesByName c s _
    · exact .next _
    · exact .next _
    · exact .fault _

/-- Every refusal of `exec` is one that the spec names (60_exceptions.md R179). -/
theorem exec_refusesByName (i : Instr) (s : State) : RefusesByName (exec i s) := by
  cases i with
  | literal | backref => exact tokenWithin_refusesByName _ _ _ s
  | status => exact execStatus_refusesByName s
  | encConfig => exact .onEnc s fun _ => .next _
  | compress input => exact execCompress_refusesByName input s
  | decConfig | getOutput => exact .onDec s fun _ => .next _
  | process chunk => exact execProcess_refusesByName chunk s
  | bwReset => exact .onBw s fun _ => .next _
  | writeBits v n => exact execWriteBits_refusesByName v n s
  | writeByte b => exact execWriteBits_refusesByName _ 8 s
  | flush => exact .onBw s fun _ => .within _ (.next _)
  | brReset => exact .onBr s fun _ => .next _
  | feed => exact .onBr s fun _ => .within _ (.next _)
  | readBits n => exact execReadBits_refusesByName n s
  | reserved => exact .refused rfl

/-- Settles O20: whatever `exec` refuses is returned by its name, and each condition makes `exec` refuse. -/
theorem refusedRequestReturnsItsName : Obligations.RefusedRequestReturnsItsName := by
  intro s q rest x hport hx i returns
  have hs : (s.accept q rest).inst? = some x := hx
  have hreturns (r : Refusal) (h : exec i (s.accept q rest) = .refused r) : returns r := by
    refine (step_of_port_cons hport).trans ?_
    rw [h]
    exact returnRefusal_of_isReturned _ (exec_refusesByName i _ r h)
  refine ⟨hreturns, fun hi => hreturns _ (wrongKindIsRefusedAsBadOp i _ x hs hi), fun bs c hi hon hc => ?_,
    fun v n hi hon hn => hreturns _ (exec_badCount hs hon hi hn)⟩
  exact ⟨fun hconf hfault =>
      hreturns _ (exec_work_of_refusal hs hon hi hc (refusal?_of_not_configured hconf hfault)),
    fun hfault => hreturns _ (exec_work_of_refusal hs hon hi hc (refusal?_of_fault hfault))⟩

/-! ### Between operations -/

/-- A decoder whose next step suspends executes no token. -/
theorem fsmToken_of_suspended {d : Decoder} (h : d.fsmStep = .suspended d) : d.fsmToken = .suspended d := by
  cases hst : d.dstate with
  | awaitTag =>
    have htag : d.stepTag = .suspended d := by simpa only [Decoder.fsmStep, hst] using h
    simp only [Decoder.fsmToken, hst, htag]
  | literal | backRef => rw [fsmToken_of_tagRead (by simp [hst]), h]

/-- Between operations no decoder has a whole token unread, since the FSM would execute it (43_decoder.md R153). -/
theorem fetchToken_of_inv {s : State} (hs : s.Inv) : s.fetchToken = none := by
  rw [Option.eq_none_iff_forall_ne_some]
  intro i hfetch
  obtain ⟨d, rest, hd, hready, hdecode⟩ := fetchToken_eq_some_iff.1 hfetch
  obtain ⟨-, -, -, hquiet, -⟩ : d.Inv := hs (.dec d) (List.mem_of_getElem? hd)
  obtain ⟨-, d', hends, -⟩ := fsmExecutesTheDecodedToken s d i rest hd hready hdecode
  rw [fsmToken_of_suspended (hquiet hready)] at hends
  obtain hran | hcorrupt := hends
  · cases hran
  · cases hcorrupt

/-- A step with nothing at the port and no token to execute changes nothing. -/
theorem step_of_nothing {s : State} (hport : s.port = []) (hfetch : s.fetchToken = none) : step s = .next s := by
  simp only [step, hport, hfetch]

/-- Settles O7: between operations there is no token to fetch. -/
theorem nothingHappensBetweenOperations : Obligations.NothingHappensBetweenOperations :=
  fun _ hs hport => step_of_nothing hport (fetchToken_of_inv hs)

end Sys2Proof.Machine

/-! SUPPORT. Reset (10_state.md section 11): the power-on values (R47), and the invariant between operations there. -/

namespace Sys2Proof.Machine

/-! ### The control registers at power-on -/

@[simp] theorem Control.powerOn_cause : Control.powerOn.cause = .none := rfl
@[simp] theorem Control.powerOn_info : Control.powerOn.info = .zero := rfl

/-- At power-on an instance is not configured and has no fault recorded. -/
theorem Control.powerOn_inv : Control.powerOn.Inv := ⟨nofun, .inl ⟨rfl, rfl, rfl⟩⟩

@[simp] theorem Encoder.powerOn_statusReg : Encoder.powerOn.statusReg = 0 := by decide
@[simp] theorem Decoder.powerOn_statusReg : Decoder.powerOn.statusReg = 0 := by decide

/-! ### The instances at reset -/

theorem Encoder.powerOn_inv : Encoder.powerOn.Inv := fresh_encoder_inv Control.powerOn_inv nofun

theorem Decoder.powerOn_inv : Decoder.powerOn.Inv := fresh_decoder_inv Control.powerOn_inv nofun 0 0

theorem Reader.fresh_inv : Reader.fresh.Inv := Nat.zero_le _

/-- Settles O10: each register by its power-on value. -/
theorem powerOnState : Obligations.PowerOnState :=
  ⟨.powerOn, .powerOn, rfl, by simp⟩

/-- Settles O8: each of the four instances is legal at power-on. -/
theorem resetIsBetweenOperations : Obligations.ResetIsBetweenOperations := by
  intro x hx
  simp only [State.reset, List.mem_cons, List.not_mem_nil, or_false] at hx
  obtain rfl | rfl | rfl | rfl := hx
  · exact Encoder.powerOn_inv
  · exact Decoder.powerOn_inv
  · exact fresh_inv
  · exact Reader.fresh_inv

end Sys2Proof.Machine
